-- ==== Sys2Proof/Word.lean ====
section
/-! DEFINITION. The word types of SM2CORE-v1: the widths the spec's files fix (00_scope.md R7, 10_state.md R22 and R30,
30_encoding.md R76 and R77). Nothing is computed here. -/

namespace Sys2Proof

/-- One byte lane of the host bus (20_memory.md R53). -/
abbrev Byte := BitVec 8

/-- One digit of a big integer and one DMEM word: 64 bits (00_scope.md R7, 10_state.md R43). -/
abbrev Digit := BitVec 64

/-- One instruction word: 32 bits (30_encoding.md R76). -/
abbrev InsnWord := BitVec 32

/-- A register field of an instruction word: four bits, naming one of R0..R15 (30_encoding.md R77, R79). -/
abbrev RegIx := BitVec 4

/-- The 16-bit immediate field: a constant, a DMEM word index or an IMEM word index (30_encoding.md R80). -/
abbrev Imm16 := BitVec 16

/-- The program counter, an IMEM word index (10_state.md R30). -/
abbrev PcWord := BitVec 16

/-- FLAGS and the condition mask of B: bit 0 LT, bit 1 EQ, bit 2 GT (10_state.md R31, 30_encoding.md R81). -/
abbrev FlagBits := BitVec 3

/-- A byte offset in the host register window, 0x00000 to 0xFFFFF (20_memory.md R51). -/
abbrev Offset := BitVec 20

end Sys2Proof
end

