-- ==== Sys2Proof/Config.lean ====
section
/-! DEFINITION. What an implementation fixes: the constants of 00_scope.md R7 to R10, the four parameters that R10 says a
model takes as arguments, and the free values of what the spec leaves unspecified. -/

namespace Sys2Proof

/-- CAP_WORDS, the digits of a register: `2 * FIELD_WORDS + 1` (00_scope.md R9). -/
abbrev Config.capWords : Nat := 9

/-- FIELD_WORDS (00_scope.md R8). It limits no operand. -/
abbrev Config.fieldWords : Nat := 4

/-- NREG (00_scope.md R10). -/
abbrev Config.nreg : Nat := 16

/-- NCURVE (00_scope.md R10). -/
abbrev Config.ncurve : Nat := 6

/-- MAXMAG, the largest magnitude a register holds (00_scope.md R9). -/
def Config.maxMag : Nat := 2 ^ (64 * Config.capWords) - 1

/-- The constant the ID register reads (10_state.md R34). -/
def Config.idWord : BitVec 64 := 0x0045524F43324D53#64

/-- What the host bus carries back for an access that gives no data of the block: a response code of the bus protocol, and what
stands on the data lines, which is no data of the block (20_memory.md R54, 93_implementation_defined.md U9; log 2). -/
structure BusSignal where
  code : Nat
  lines : BitVec 64
deriving DecidableEq, Repr

/-- `HOST_BUS` (00_scope.md R10): of the bus protocol, what the spec leaves to the platform and an access can show (log 2). -/
structure HostBus where
  /-- how the host sees a read that completes with a bus error (20_memory.md R54, U9) -/
  readError : BusSignal
  /-- how the host sees a write that completes with a bus error (20_memory.md R54, U9) -/
  writeError : BusSignal
  /-- how the bus responds to an access while rst_n = 0; none where it does not (70_reset_and_hazards.md R200, U10) -/
  inReset : Option BusSignal
deriving DecidableEq, Repr

/-- The parameters that 00_scope.md R10 makes arguments of a model. They are part of every state and no step changes them
(log 1). -/
structure Params where
  /-- IMEM_WORDS, 32-bit words. -/
  imemWords : Nat
  /-- DMEM_WORDS, 64-bit words. -/
  dmemWords : Nat
  /-- BASE, the host byte address of offset 0 of the window. -/
  base : Nat
  /-- HOST_BUS. -/
  hostBus : HostBus
deriving DecidableEq, Repr

/-- The size of the host window in bytes: 1 MiB (20_memory.md R51). -/
abbrev Config.windowBytes : Nat := 2 ^ 20

/-- The legal ranges of 00_scope.md R10, and BASE aligned to 1 MiB (20_memory.md R51). -/
abbrev Params.wf (p : Params) : Prop :=
  (1 ≤ p.imemWords ∧ p.imemWords ≤ 65536) ∧ (10 ≤ p.dmemWords ∧ p.dmemWords ≤ 65536) ∧ p.base % Config.windowBytes = 0

/-- The host byte address of offset `o`: `BASE + offset` (20_memory.md R50, R51). -/
def Params.hostAddr (p : Params) (o : Offset) : Nat := p.base + o.toNat

/-- The offset that a host byte address names, or none outside the window (20_memory.md R51). -/
def Params.offsetOf (p : Params) (a : Nat) : Option Offset :=
  if p.base ≤ a ∧ a < p.base + Config.windowBytes then some (BitVec.ofNat 20 (a - p.base)) else none

/-- The sizes this hardware takes (00_scope.md R10). R10 leaves BASE and HOST_BUS OPEN: their values here are the model's
(log 1). -/
def Params.default : Params := ⟨256, 1024, 0, ⟨⟨0, 0⟩, ⟨0, 0⟩, none⟩⟩

/-- The value an unspecified host read returns, one for every draw (93_implementation_defined.md U1, U2, U5: "any value",
"drawn afresh each time"). It has no body: nothing can be proved about it (log 6). -/
opaque Config.freeWord : Nat → BitVec 64

end Sys2Proof
end

