-- ==== Sys2Proof/Syntax.lean ====
section
/-! DEFINITION. The instructions of SM2CORE-v1: one constructor per row of spec/opcode_table.json, in the table's order, the
operands in the assembler order of 30_encoding.md R82. -/

namespace Sys2Proof

/-- An instruction with its operand fields. A point operand (pd, ps, pt) is the field's own value, an even register number
where the instruction is legal (30_encoding.md R79); which operands are legal is WellFormed.lean's. -/
inductive Instr where
  /-- 44_control.md R160 -/
  | nop
  /-- 44_control.md R161 -/
  | halt
  /-- 43_move_memory.md R150 -/
  | mov (rd rs : RegIx)
  /-- 43_move_memory.md R151 -/
  | ldi (rd : RegIx) (imm : Imm16)
  /-- 43_move_memory.md R152; `k` is the curve-register index -/
  | movc (rd : RegIx) (k : BitVec 4)
  /-- 43_move_memory.md R154 -/
  | ld (rd : RegIx) (addr : Imm16)
  /-- 43_move_memory.md R155 -/
  | st (rs : RegIx) (addr : Imm16)
  /-- 40_bigint.md R100 -/
  | cmp (rs rt : RegIx)
  /-- 40_bigint.md R101 -/
  | cmpm (rs rt : RegIx)
  /-- 40_bigint.md R102 -/
  | add (rd rs rt : RegIx)
  /-- 40_bigint.md R103 -/
  | sub (rd rs rt : RegIx)
  /-- 40_bigint.md R104 -/
  | mul (rd rs rt : RegIx)
  /-- 40_bigint.md R105 -/
  | divrem (rq rr rs rt : RegIx)
  /-- 40_bigint.md R106 -/
  | mod (rd rs rt : RegIx)
  /-- 41_modular.md R120 -/
  | modadd (rd rs rt rm : RegIx)
  /-- 41_modular.md R121 -/
  | modsub (rd rs rt rm : RegIx)
  /-- 41_modular.md R122 -/
  | modmul (rd rs rt rm : RegIx)
  /-- 41_modular.md R123 -/
  | modinv (rd rs rm : RegIx)
  /-- 40_bigint.md R107 -/
  | bitlen (rd rs : RegIx)
  /-- 40_bigint.md R108 -/
  | getbit (rd rs rt : RegIx)
  /-- 42_curve.md R131 -/
  | pisid (ps : RegIx)
  /-- 42_curve.md R132 -/
  | pcmp (ps pt : RegIx)
  /-- 42_curve.md R134 -/
  | padd (pd ps pt : RegIx)
  /-- 42_curve.md R135 -/
  | pdbl (pd ps : RegIx)
  /-- 42_curve.md R136; `rk` is an ordinary register -/
  | pmul (pd rk ps : RegIx)
  /-- 44_control.md R162 -/
  | j (target : Imm16)
  /-- 44_control.md R163 -/
  | b (cond : FlagBits) (target : Imm16)
deriving DecidableEq, Repr

end Sys2Proof
end

