-- ==== Sys2Proof/WellFormed.lean ====
section
/-! DEFINITION. Which instructions are legal: the operand constraints of 30_encoding.md R84 (cases 3 to 5), and the names of
all five cases. -/

namespace Sys2Proof

/-- Why a word is illegal: the five cases of 30_encoding.md R84, in the order R86 checks them. Every one raises E_ILLEGAL. -/
inductive Illegal where
  /-- case 1: the opcode is unassigned (R83) -/
  | unassignedOpcode
  /-- case 2: a must-be-zero bit of the format is 1 (R78) -/
  | mustBeZero
  /-- case 3: a point operand field holds an odd value (R79) -/
  | oddPoint
  /-- case 4: MOVC with k above 5 -/
  | curveIndex
  /-- case 5: DIVREM with one register for quotient and remainder -/
  | sameDestination
deriving DecidableEq, Repr

/-- A point field is legal where it is even: bit 0 is clear (30_encoding.md R79). -/
def evenField (r : RegIx) : Bool := !r.getLsbD 0

/-- The operand constraint an instruction breaks, if it breaks one: cases 3 to 5 of 30_encoding.md R84. PMUL's scalar field
is an ordinary register and may be odd (R79). -/
def Instr.operandIllegal : Instr → Option Illegal
  | .pisid ps => if evenField ps then none else some .oddPoint
  | .pcmp ps pt => if evenField ps && evenField pt then none else some .oddPoint
  | .padd pd ps pt => if evenField pd && evenField ps && evenField pt then none else some .oddPoint
  | .pdbl pd ps => if evenField pd && evenField ps then none else some .oddPoint
  | .pmul pd _ ps => if evenField pd && evenField ps then none else some .oddPoint
  | .movc _ k => if k.toNat ≤ 5 then none else some .curveIndex
  | .divrem rq rr _ _ => if rq = rr then some .sameDestination else none
  | .nop | .halt | .mov _ _ | .ldi _ _ | .ld _ _ | .st _ _ | .cmp _ _ | .cmpm _ _ | .add _ _ _ | .sub _ _ _
  | .mul _ _ _ | .mod _ _ _ | .modadd _ _ _ _ | .modsub _ _ _ _ | .modmul _ _ _ _ | .modinv _ _ _ | .bitlen _ _
  | .getbit _ _ _ | .j _ | .b _ _ => none

/-- A well-formed instruction breaks no operand constraint. -/
def Instr.wf (i : Instr) : Bool := i.operandIllegal.isNone

end Sys2Proof
end

