-- ==== Sys2Proof/Decode.lean ====
section
/-! DEFINITION. Decoding an instruction word (30_encoding.md R76 to R86) and, after it, the encoder. Decoding is total: a word
is one instruction or is rejected by the name of the rule it breaks. -/

namespace Sys2Proof

/-! ### The fields of an instruction word (30_encoding.md R77) -/

/-- `op`, w[31:24]. -/
def opField (w : InsnWord) : BitVec 8 := w.extractLsb' 24 8
/-- `fa`, w[23:20]. -/
def faField (w : InsnWord) : BitVec 4 := w.extractLsb' 20 4
/-- `fb`, w[19:16]. -/
def fbField (w : InsnWord) : BitVec 4 := w.extractLsb' 16 4
/-- `fc`, w[15:12]. -/
def fcField (w : InsnWord) : BitVec 4 := w.extractLsb' 12 4
/-- `fd`, w[11:8]. -/
def fdField (w : InsnWord) : BitVec 4 := w.extractLsb' 8 4
/-- `imm16`, w[15:0]. -/
def immField (w : InsnWord) : BitVec 16 := w.extractLsb' 0 16
/-- `cond`, w[23:21]. -/
def condField (w : InsnWord) : BitVec 3 := w.extractLsb' 21 3

/-- Case 2 of 30_encoding.md R84: the must-be-zero bits `z` of the format are all zero, or the word is illegal. -/
def needZero {n : Nat} (z : BitVec n) (i : Instr) : Except Illegal Instr :=
  if z = 0#n then .ok i else .error .mustBeZero

/-- The opcode map 30_encoding.md R82 with the must-be-zero bits of each format (R78): cases 1 and 2 of R84. -/
def decodeShape (w : InsnWord) : Except Illegal Instr :=
  match opField w with
  | 0x00#8 => needZero (w.extractLsb' 0 24) .nop
  | 0x01#8 => needZero (w.extractLsb' 0 24) .halt
  | 0x02#8 => needZero (w.extractLsb' 0 16) (.mov (faField w) (fbField w))
  | 0x03#8 => needZero (w.extractLsb' 16 4) (.ldi (faField w) (immField w))
  | 0x04#8 => needZero (w.extractLsb' 0 16) (.movc (faField w) (fbField w))
  | 0x08#8 => needZero (w.extractLsb' 16 4) (.ld (faField w) (immField w))
  | 0x09#8 => needZero (w.extractLsb' 16 4) (.st (faField w) (immField w))
  | 0x10#8 => needZero (w.extractLsb' 0 16) (.cmp (faField w) (fbField w))
  | 0x11#8 => needZero (w.extractLsb' 0 16) (.cmpm (faField w) (fbField w))
  | 0x12#8 => needZero (w.extractLsb' 0 12) (.add (faField w) (fbField w) (fcField w))
  | 0x13#8 => needZero (w.extractLsb' 0 12) (.sub (faField w) (fbField w) (fcField w))
  | 0x14#8 => needZero (w.extractLsb' 0 12) (.mul (faField w) (fbField w) (fcField w))
  | 0x15#8 => needZero (w.extractLsb' 0 8) (.divrem (faField w) (fbField w) (fcField w) (fdField w))
  | 0x16#8 => needZero (w.extractLsb' 0 12) (.mod (faField w) (fbField w) (fcField w))
  | 0x18#8 => needZero (w.extractLsb' 0 8) (.modadd (faField w) (fbField w) (fcField w) (fdField w))
  | 0x19#8 => needZero (w.extractLsb' 0 8) (.modsub (faField w) (fbField w) (fcField w) (fdField w))
  | 0x1A#8 => needZero (w.extractLsb' 0 8) (.modmul (faField w) (fbField w) (fcField w) (fdField w))
  | 0x1B#8 => needZero (w.extractLsb' 0 12) (.modinv (faField w) (fbField w) (fcField w))
  | 0x1C#8 => needZero (w.extractLsb' 0 16) (.bitlen (faField w) (fbField w))
  | 0x1D#8 => needZero (w.extractLsb' 0 12) (.getbit (faField w) (fbField w) (fcField w))
  | 0x20#8 => needZero (w.extractLsb' 0 20) (.pisid (faField w))
  | 0x21#8 => needZero (w.extractLsb' 0 16) (.pcmp (faField w) (fbField w))
  | 0x22#8 => needZero (w.extractLsb' 0 12) (.padd (faField w) (fbField w) (fcField w))
  | 0x23#8 => needZero (w.extractLsb' 0 16) (.pdbl (faField w) (fbField w))
  | 0x24#8 => needZero (w.extractLsb' 0 12) (.pmul (faField w) (fbField w) (fcField w))
  | 0x30#8 => needZero (w.extractLsb' 16 8) (.j (immField w))
  | 0x31#8 => needZero (w.extractLsb' 16 5) (.b (condField w) (immField w))
  | _ => .error .unassignedOpcode

/-- The decoder: the opcode, then the must-be-zero bits, then the operand constraints (30_encoding.md R86). Rejecting with any
of the five names raises E_ILLEGAL (R84). -/
def decode (w : InsnWord) : Except Illegal Instr :=
  match decodeShape w with
  | .error e => .error e
  | .ok i =>
    match i.operandIllegal with
    | some e => .error e
    | none => .ok i

/-! ### The encoder (30_encoding.md R77, R78, R82) -/

/-- Formats N, R1, R2, R3 and R4: opcode, four register fields and the zero field; an unused field is zero. -/
def packRegs (op : BitVec 8) (a b c d : BitVec 4) : InsnWord := op ++ a ++ b ++ c ++ d ++ 0#8

/-- Formats I, M and J: opcode, one register field (zero in J), a zero field and the immediate. -/
def packImm (op : BitVec 8) (a : BitVec 4) (imm : Imm16) : InsnWord := op ++ a ++ 0#4 ++ imm

/-- Format B: opcode, condition mask, five zero bits and the target. -/
def packCond (op : BitVec 8) (cond : FlagBits) (imm : Imm16) : InsnWord := op ++ cond ++ 0#5 ++ imm

/-- The word of an instruction. An ill-formed instruction has its illegal word. -/
def encode : Instr → InsnWord
  | .nop => packRegs 0x00#8 0#4 0#4 0#4 0#4
  | .halt => packRegs 0x01#8 0#4 0#4 0#4 0#4
  | .mov rd rs => packRegs 0x02#8 rd rs 0#4 0#4
  | .ldi rd imm => packImm 0x03#8 rd imm
  | .movc rd k => packRegs 0x04#8 rd k 0#4 0#4
  | .ld rd addr => packImm 0x08#8 rd addr
  | .st rs addr => packImm 0x09#8 rs addr
  | .cmp rs rt => packRegs 0x10#8 rs rt 0#4 0#4
  | .cmpm rs rt => packRegs 0x11#8 rs rt 0#4 0#4
  | .add rd rs rt => packRegs 0x12#8 rd rs rt 0#4
  | .sub rd rs rt => packRegs 0x13#8 rd rs rt 0#4
  | .mul rd rs rt => packRegs 0x14#8 rd rs rt 0#4
  | .divrem rq rr rs rt => packRegs 0x15#8 rq rr rs rt
  | .mod rd rs rt => packRegs 0x16#8 rd rs rt 0#4
  | .modadd rd rs rt rm => packRegs 0x18#8 rd rs rt rm
  | .modsub rd rs rt rm => packRegs 0x19#8 rd rs rt rm
  | .modmul rd rs rt rm => packRegs 0x1A#8 rd rs rt rm
  | .modinv rd rs rm => packRegs 0x1B#8 rd rs rm 0#4
  | .bitlen rd rs => packRegs 0x1C#8 rd rs 0#4 0#4
  | .getbit rd rs rt => packRegs 0x1D#8 rd rs rt 0#4
  | .pisid ps => packRegs 0x20#8 ps 0#4 0#4 0#4
  | .pcmp ps pt => packRegs 0x21#8 ps pt 0#4 0#4
  | .padd pd ps pt => packRegs 0x22#8 pd ps pt 0#4
  | .pdbl pd ps => packRegs 0x23#8 pd ps 0#4 0#4
  | .pmul pd rk ps => packRegs 0x24#8 pd rk ps 0#4
  | .j target => packImm 0x30#8 0#4 target
  | .b cond target => packCond 0x31#8 cond target

/-! ### Byte order of a word (20_memory.md R53, R63: little-endian byte lanes) -/

/-- The value of a list of bytes, the first the least significant. -/
def leNat : List Byte → Nat
  | [] => 0
  | b :: bs => b.toNat + 256 * leNat bs

/-- The `n` low bytes of `v`, the least significant first. -/
def leBytes : Nat → Nat → List Byte
  | 0, _ => []
  | n + 1, v => BitVec.ofNat 8 v :: leBytes n (v / 256)

/-- The instruction word that four bytes of IMEM make, lowest byte lane first (20_memory.md R63). -/
def insnOfBytes (bs : List Byte) : InsnWord := BitVec.ofNat 32 (leNat bs)

/-- The decoder on the bytes of an IMEM word: exactly four of them (30_encoding.md R76), or no instruction. -/
def decodeBytes (bs : List Byte) : Option Instr :=
  if bs.length = 4 then (decode (insnOfBytes bs)).toOption else none

/-- The instruction the decoder reads from the word whose low `nbits` bits are `w` and whose other bits are zero, laid out in
IMEM's byte lanes. -/
def decodeTableWord (nbits w : Nat) : Option Instr := decodeBytes (leBytes 4 (w % 2 ^ nbits))

end Sys2Proof
end

