-- ==== Sys2Proof/Machine/State.lean ====
section
/-! DEFINITION. The state of the block (10_state.md), the reasons a step can stop, and the state right after reset. -/

namespace Sys2Proof.Machine

/-- One big-integer register, R0..R15 or C0..C5: a sign bit and nine digits, digit 0 least significant (10_state.md R22). -/
structure BigReg where
  /-- SIGN: true is 1, negative -/
  sign : Bool
  /-- DIG[0..8] -/
  dig : Vector Digit 9
deriving DecidableEq, Repr

/-- A register after reset: SIGN 0 and every digit 0 (10_state.md R45). -/
def BigReg.zero : BigReg := ⟨false, #v[0, 0, 0, 0, 0, 0, 0, 0, 0]⟩

/-- The engine errors of 60_exceptions.md R171. They are not faults of the model: an error is recorded in the state (R173). -/
inductive EngineError where
  | illegal | fetch | addr | overflow | divZero | modulus | noInv | operand | noCurve
deriving DecidableEq, Repr

/-- What happens at the block's ports in one step (20_memory.md R62, 70_reset_and_hazards.md R199). A host access names its
width in bits and its host byte address (20_memory.md R50, R51); a 32-bit write carries its data in bits 31:0. -/
inductive PortEvent where
  /-- a host read -/
  | read (width : Nat) (address : Nat)
  /-- a host write -/
  | write (width : Nat) (address : Nat) (data : BitVec 64)
  /-- rst_n goes to 0 -/
  | resetAssert
  /-- rst_n goes to 1 -/
  | resetRelease
  /-- nothing: the engine has this step -/
  | quiet
deriving DecidableEq, Repr

/-- How a host access completed (20_memory.md R53, R54). -/
inductive BusResponse where
  /-- a read returned this value, zero-extended from its width -/
  | data (width : Nat) (value : BitVec 64)
  /-- a write completed without a bus error; a write the block refused or ignored completes so too (log 2) -/
  | done
  /-- a bus error, which the host sees as HOST_BUS has it; a read returns no data (R54) -/
  | busError (signal : BusSignal)
  /-- an access while rst_n = 0: no access was accepted, and the bus responds as HOST_BUS has it (70_reset_and_hazards.md R200) -/
  | platform (signal : Option BusSignal)
deriving DecidableEq, Repr

/-- A RAM as (byte address, byte) pairs, addresses strictly rising; an address not listed has not been written since hardware
reset and reads as no value (20_memory.md R75, log 5). -/
abbrev Memory := List Host.Cell

/-- The state of the block. The last three fields are the model's own (INVENTORY.md, log 2, 3, 6). -/
structure State where
  /-- IMEM_WORDS, DMEM_WORDS, BASE and HOST_BUS (00_scope.md R10); no step changes them -/
  params : Params
  /-- R0..R15 (10_state.md R21) -/
  regs : Vector BigReg 16
  /-- C0..C5 = p, a, b, n, Gx, Gy (10_state.md R28) -/
  curve : Vector BigReg 6
  /-- PC (10_state.md R30) -/
  pc : PcWord
  /-- FLAGS (10_state.md R31) -/
  flags : FlagBits
  /-- CTRL.IE (10_state.md R33) -/
  ie : Bool
  /-- CTRL.CURVE_LOCK (10_state.md R33) -/
  curveLock : Bool
  /-- STATUS.BUSY (10_state.md R36) -/
  busy : Bool
  /-- STATUS.DONE (10_state.md R36) -/
  done : Bool
  /-- STATUS.ERR (10_state.md R36) -/
  err : Bool
  /-- STATUS.HOSTERR (10_state.md R36) -/
  hosterr : Bool
  /-- STATUS.ECODE (10_state.md R36) -/
  ecode : BitVec 4
  /-- START_PC (10_state.md R37) -/
  startPc : PcWord
  /-- EPC (10_state.md R39) -/
  epc : PcWord
  /-- EINSN (10_state.md R40) -/
  einsn : InsnWord
  /-- IMEM: byte b of word i is at 4 * i + b (10_state.md R43, 20_memory.md R57) -/
  imem : Memory
  /-- DMEM: byte b of word j is at 8 * j + b (10_state.md R43, 20_memory.md R58) -/
  dmem : Memory
  /-- the level at the port rst_n (70_reset_and_hazards.md R199; log 16) -/
  rstN : Bool
  /-- the model's own: what happens at the ports from now on, oldest first; empty is quiet for ever (log 3) -/
  ports : List PortEvent
  /-- the model's own: the response to the last host access (log 2) -/
  response : Option BusResponse
  /-- the model's own: how many free values have been drawn (log 6) -/
  freeCount : Nat
deriving DecidableEq, Repr

/-- Why a step has no next state. -/
inductive Fault where
  /-- The engine fetched an IMEM word that nothing has written since hardware reset. Raised by the fetch. Safe: the spec asks a
  model for a fault here (20_memory.md R75, 93_implementation_defined.md U3). -/
  | unwrittenImem
  /-- LD read a record with a byte that nothing has written since hardware reset. Raised by LD. Safe: the spec asks a model for
  a fault here (20_memory.md R75, 93_implementation_defined.md U4). -/
  | unwrittenDmem
deriving DecidableEq, Repr

/-- Why an instruction has no meaning. -/
inductive Refusal where
  /-- An instruction whose arm of `exec` gives no meaning. No arm answers it. Safe: nothing follows from a refusal. -/
  | notModelled (mnemonic : String)
deriving DecidableEq, Repr

/-- The block right after hardware reset, rst_n back at 1 (10_state.md R45, 70_reset_and_hazards.md R200): idle, every register
and field 0, both RAMs unwritten, the parameters this hardware takes. -/
def State.reset : State where
  params := Params.default
  regs := Vector.replicate 16 BigReg.zero
  curve := Vector.replicate 6 BigReg.zero
  pc := 0
  flags := 0
  ie := false
  curveLock := false
  busy := false
  done := false
  err := false
  hosterr := false
  ecode := 0
  startPc := 0
  epc := 0
  einsn := 0
  imem := []
  dmem := []
  rstN := true
  ports := []
  response := none
  freeCount := 0

end Sys2Proof.Machine
end

