-- ==== Sys2Proof/Machine/Ops.lean ====
section
/-! DEFINITION. The named operations over registers, memory and the run state: the stored form of a big integer (10_state.md
R22 to R25), the two RAMs (R43), committing a result (60_exceptions.md R170), the engine error (R173) and, beside it, the
start of a run (10_state.md R42), which is the only way the engine goes on after an error (60_exceptions.md R178), and the
two resets (70_reset_and_hazards.md R200, R202). -/

namespace Sys2Proof.Machine

/-! ### Big integers in their stored form -/

/-- The magnitude of digits given least significant first: digit i has weight `2^(64*i)` (10_state.md R22). -/
def magOfDigits : List Digit → Nat
  | [] => 0
  | d :: ds => d.toNat + 2 ^ 64 * magOfDigits ds

/-- Digit `j` of magnitude `m`: `floor(m / 2^(64*j)) mod 2^64` (10_state.md R25). -/
def digitOf (m j : Nat) : Digit := BitVec.ofNat 64 (m / 2 ^ (64 * j))

/-- The nine digits of magnitude `m`. -/
def digitsOf (m : Nat) : Vector Digit 9 :=
  #v[digitOf m 0, digitOf m 1, digitOf m 2, digitOf m 3, digitOf m 4, digitOf m 5, digitOf m 6, digitOf m 7, digitOf m 8]

/-- `mag` (10_state.md R22). -/
def BigReg.mag (r : BigReg) : Nat := magOfDigits r.dig.toList

/-- The integer a register holds; a stored negative zero has the value 0 (10_state.md R24). -/
def BigReg.value (r : BigReg) : Int := if r.sign then -(r.mag : Int) else (r.mag : Int)

/-- The stored form an instruction writes for the integer `v` (10_state.md R25): canonical, never a negative zero. -/
def BigReg.ofInt (v : Int) : BigReg := ⟨decide (v < 0), digitsOf v.natAbs⟩

/-- `used` of a list of digits: 1 plus the index of the highest non-zero digit, and 0 where every digit is 0. -/
def usedDigits : List Digit → Nat
  | [] => 0
  | d :: ds => if usedDigits ds = 0 then (if d = 0 then 0 else 1) else usedDigits ds + 1

/-- `used` (10_state.md R23): at least 1. -/
def BigReg.used (r : BigReg) : Nat := max 1 (usedDigits r.dig.toList)

/-- `|v| <= MAXMAG` (00_scope.md R9, 10_state.md R26). -/
abbrev fits (v : Int) : Prop := v.natAbs ≤ Config.maxMag

/-! ### Registers -/

/-- The stored form of register `r`. -/
def State.bigReg (s : State) (r : RegIx) : BigReg := s.regs[r.toNat]'r.isLt

/-- `R[r]`, the integer value of register `r` (00_scope.md R15). -/
def State.val (s : State) (r : RegIx) : Int := (s.bigReg r).value

/-- Replace the stored form of register `r`. -/
def State.setBigReg (s : State) (r : RegIx) (b : BigReg) : State := { s with regs := s.regs.set r.toNat b r.isLt }

/-- `R[r] <- v`, the canonical write (00_scope.md R15, 10_state.md R25). -/
def State.setReg (s : State) (r : RegIx) (v : Int) : State := s.setBigReg r (BigReg.ofInt v)

/-- `C[k]`, the integer value of curve register `k` (00_scope.md R15, 10_state.md R28). -/
def State.curveVal (s : State) (k : Fin 6) : Int := s.curve[k].value

/-- `FLAGS <- f`. -/
def State.setFlags (s : State) (f : FlagBits) : State := { s with flags := f }

/-- `pc <- target`. -/
def State.setPc (s : State) (target : PcWord) : State := { s with pc := target }

/-- The next PC of an instruction that is no taken branch: `(PC + 1) mod 2^16` (10_state.md R30). -/
def State.advance (s : State) : State := s.setPc (s.pc + 1)

/-! ### Memory: bytes, and the words made of them, least significant byte lowest (20_memory.md R53, R57, R58) -/

/-- The canonical form: addresses strictly rising. An unlisted address reads as no value, which no entry can equal. -/
abbrev Memory.wf (m : Memory) : Prop := m.Pairwise (fun c d => c.1 < d.1)

/-- Every listed address is below `n`. -/
abbrev Memory.below (m : Memory) (n : Nat) : Prop := ∀ c ∈ m, c.1 < n

/-- The byte at address `a`, or no value where nothing has been written since hardware reset (20_memory.md R75). -/
def readByte : Memory → Nat → Option Byte
  | [], _ => none
  | c :: m, a => if a = c.1 then some c.2 else readByte m a

/-- Write one byte, keeping the addresses strictly rising. -/
def writeByte : Memory → Nat → Byte → Memory
  | [], a, v => [(a, v)]
  | c :: m, a, v => if a < c.1 then (a, v) :: c :: m else if a = c.1 then (a, v) :: m else c :: writeByte m a v

/-- The `n` bytes from address `a` up, or no value where one of them is unwritten. -/
def readBytes (m : Memory) : Nat → Nat → Option (List Byte)
  | _, 0 => some []
  | a, n + 1 =>
    match readByte m a, readBytes m (a + 1) n with
    | some b, some bs => some (b :: bs)
    | _, _ => none

/-- Write bytes from address `a` up. -/
def writeBytes : Memory → Nat → List Byte → Memory
  | m, _, [] => m
  | m, a, b :: bs => writeBytes (writeByte m a b) (a + 1) bs

/-- `IMem(a)`: IMEM word `a`, or no value where it is unwritten (00_scope.md R15, 20_memory.md R57). -/
def imemWord (m : Memory) (a : Nat) : Option InsnWord := (readBytes m (4 * a) 4).map insnOfBytes

/-- DMEM word `j`, or no value where a byte of it is unwritten (20_memory.md R58, log 5). -/
def dmemWord (m : Memory) (j : Nat) : Option Digit := (readBytes m (8 * j) 8).map fun bs => BitVec.ofNat 64 (leNat bs)

/-- `MemRead(a, n)`: the DMEM words at indices a .. a+n-1 (00_scope.md R15). -/
def memRead (m : Memory) : Nat → Nat → Option (List Digit)
  | _, 0 => some []
  | a, n + 1 =>
    match dmemWord m a, memRead m (a + 1) n with
    | some w, some ws => some (w :: ws)
    | _, _ => none

/-- The bytes of DMEM words, in address order. -/
def wordBytes : List Digit → List Byte
  | [] => []
  | w :: ws => leBytes 8 w.toNat ++ wordBytes ws

/-- `MemWrite(a, n, ws)`, n the length of ws (00_scope.md R15). -/
def memWrite (m : Memory) (a : Nat) (ws : List Digit) : Memory := writeBytes m (8 * a) (wordBytes ws)

/-! ### Engine errors, and the start of a run -/

/-- The code STATUS.ECODE records (60_exceptions.md R171). -/
def EngineError.code : EngineError → BitVec 4
  | .illegal => 1
  | .fetch => 2
  | .addr => 3
  | .overflow => 4
  | .divZero => 5
  | .modulus => 6
  | .noInv => 7
  | .operand => 8
  | .noCurve => 9

/-- Error entry, one atomic action (60_exceptions.md R173): the record is written, ERR is set, BUSY cleared; DONE, PC and
everything else stay as they are (R174). `w` is the word fetched, or 0 for E_FETCH (R172). -/
def raiseError (e : EngineError) (w : InsnWord) (s : State) : State :=
  { s with ecode := e.code, epc := s.pc, einsn := w, err := true, busy := false }

/-- START of an idle engine (10_state.md R42). There is no return from an error: this, by the host, is what follows one
(60_exceptions.md R178). -/
def startRun (s : State) : State :=
  { s with pc := s.startPc, flags := 0, done := false, err := false, ecode := 0, epc := 0, einsn := 0, busy := true }

/-- The end of a run by HALT: PC stays at the HALT (44_control.md R161). -/
def endRun (s : State) : State := { s with busy := false, done := true }

/-- Soft reset: every element but IMEM and DMEM takes its reset value (70_reset_and_hazards.md R202). The parameters, the port
rst_n and the model's own fields are no state that it resets. -/
def softReset (s : State) : State :=
  { State.reset with
    params := s.params, imem := s.imem, dmem := s.dmem, rstN := s.rstN, ports := s.ports, response := s.response,
    freeCount := s.freeCount }

/-- rst_n = 0: every element takes its reset value and both RAMs are unwritten (70_reset_and_hazards.md R200, 10_state.md R45). -/
def hardReset (s : State) : State :=
  { State.reset with params := s.params, rstN := false, ports := s.ports, freeCount := s.freeCount }

/-! ### The outcome of an instruction (60_exceptions.md R170) -/

/-- The outcome of a step of this machine. -/
abbrev Res := Host.Outcome State Fault Refusal

/-- `raise E_X` within instruction `i` (00_scope.md R15). The word recorded is `i`'s own: an instruction has exactly one word
(30_encoding.md R84, log 7). -/
def raise (e : EngineError) (i : Instr) (s : State) : Res := .next (raiseError e (encode i) s)

/-- `check cond else E_X` (00_scope.md R15), `k` being the rest of the instruction. -/
def check (c : Prop) [Decidable c] (e : EngineError) (i : Instr) (s : State) (k : Res) : Res :=
  if c then k else raise e i s

/-- The operand constraints of 30_encoding.md R84, cases 3 to 5, which the decoder has checked before an instruction runs
(log 8). -/
def checkLegal (i : Instr) (s : State) (k : Res) : Res := check (i.wf = true) .illegal i s k

/-- Commit one register and the next PC. -/
def commitReg (rd : RegIx) (v : Int) (s : State) : Res := .next (s.setReg rd v).advance

/-- Commit two registers and the next PC; the second is written last. -/
def commitRegs (r1 : RegIx) (v1 : Int) (r2 : RegIx) (v2 : Int) (s : State) : Res :=
  .next ((s.setReg r1 v1).setReg r2 v2).advance

/-- Commit FLAGS and the next PC. -/
def commitFlags (f : FlagBits) (s : State) : Res := .next (s.setFlags f).advance

/-- Commit DMEM words from index `a` up and the next PC. -/
def commitMem (a : Nat) (ws : List Digit) (s : State) : Res :=
  .next { s with dmem := memWrite s.dmem a ws }.advance

end Sys2Proof.Machine
end

