-- ==== Sys2Proof/Machine/Flags.lean ====
section
/-! DEFINITION. Every computation and use of FLAGS (10_state.md R31): bit 0 LT, bit 1 EQ, bit 2 GT. -/

namespace Sys2Proof.Machine

/-- FLAGS of a comparison: exactly one bit (40_bigint.md R100, R101). -/
def compareFlags (a b : Int) : FlagBits := if a < b then 0b001 else if a = b then 0b010 else 0b100

/-- FLAGS of a point test: EQ where it holds, GT where it does not (42_curve.md R131, R132). -/
def testFlags (c : Bool) : FlagBits := if c then 0b010 else 0b100

/-- The condition of B: `(FLAGS AND cond) != 0` (30_encoding.md R81, 44_control.md R163). -/
def condHolds (flags cond : FlagBits) : Bool := flags &&& cond != 0

end Sys2Proof.Machine
end

