-- ==== Sys2Proof/Machine/Arith.lean ====
section
/-! DEFINITION. The integer functions of the engine: bit length and bits of a magnitude (00_scope.md R13), floor division
(R14: Lean's `Int.fdiv` and `Int.fmod`), and the inverse by the extended Euclidean algorithm (41_modular.md R123). -/

namespace Sys2Proof.Machine

/-- `bitlen(m)`: the least k with `m < 2^k` (00_scope.md R13). -/
def bitlenOf (m : Nat) : Nat := if m = 0 then 0 else Nat.log2 m + 1

/-- `bit(m, i)`: `floor(m / 2^i) mod 2`, as 0 or 1 (00_scope.md R13). -/
def bitOf (m i : Nat) : Nat := if m.testBit i then 1 else 0

/-- The extended Euclidean algorithm on remainders `r0`, `r1` with coefficients `t0`, `t1`: the last non-zero remainder and
its coefficient. The first argument bounds the number of steps. -/
def euclidLoop : Nat → Int → Int → Int → Int → Int × Int
  | 0, r0, _, t0, _ => (r0, t0)
  | n + 1, r0, r1, t0, t1 =>
    if r1 = 0 then (r0, t0) else euclidLoop n r1 (Int.fmod r0 r1) t1 (t0 - Int.fdiv r0 r1 * t1)

/-- Steps that are always enough: two steps at least halve the remainder (41_modular.md R125). -/
def euclidFuel (m : Int) : Nat := 2 * bitlenOf m.natAbs + 2

/-- The inverse of `a` modulo `m > 0`: the unique x in [0, m) with `(a * x) mod m == 1 mod m`, or none where the greatest common
divisor is not 1 (41_modular.md R123). For m = 1 it is 0. -/
def modInverse (a m : Int) : Option Int :=
  let gt := euclidLoop (euclidFuel m) m (Int.fmod a m) 0 1
  if gt.1 = 1 then some (Int.fmod gt.2 m) else none

end Sys2Proof.Machine
end

