-- ==== Sys2Proof/Machine/CurveOps.lean ====
section
/-! DEFINITION. The point adder, the point doubler and the scalar multiplier (42_curve.md R134, R135, R136), on exact integers
(R137). They answer none where an inverse does not exist (E_NOINV). -/

namespace Sys2Proof.Machine

/-- A point (x, y) (42_curve.md R130). -/
structure Point where
  x : Int
  y : Int
deriving DecidableEq, Repr

/-- The identity is (0, 0) (42_curve.md R130). -/
def identity : Point := ⟨0, 0⟩

/-- `is_identity`: both coordinates are 0 (42_curve.md R131). -/
def Point.isId (q : Point) : Bool := q.x = 0 && q.y = 0

/-- `equals`, on integer coordinates (42_curve.md R132). -/
def Point.eqv (q r : Point) : Bool :=
  if q.isId && r.isId then true else if q.isId || r.isId then false else q.x = r.x && q.y = r.y

/-- `0 <= x < p and 0 <= y < p` unless the point is the identity (42_curve.md R133). -/
def Point.inRange (p : Int) (q : Point) : Bool := q.isId || (0 ≤ q.x && q.x < p && 0 ≤ q.y && q.y < p)

/-- The third point on the line of slope `l` through (x1, y1) and a point with coordinate x2, negated: `xr = l*l - x1 - x2`,
`yr = l*(x1 - xr) - y1`, each reduced (42_curve.md R134, R135). -/
def slopePoint (p l x1 y1 x2 : Int) : Point :=
  let xr := Int.fmod (l * l - x1 - x2) p
  ⟨xr, Int.fmod (l * (x1 - xr) - y1) p⟩

/-- `ecdbl` (42_curve.md R135), with p the modulus and a the coefficient. -/
def ecdbl (p a : Int) (q : Point) : Option Point :=
  if q.isId || q.y = 0 then some identity
  else
    match modInverse (Int.fmod (2 * q.y) p) p with
    | none => none
    | some d => some (slopePoint p (Int.fmod ((3 * q.x * q.x + a) * d) p) q.x q.y q.x)

/-- `ecadd` (42_curve.md R134). -/
def ecadd (p a : Int) (q r : Point) : Option Point :=
  if q.isId then some r
  else if r.isId then some q
  else if q.x = r.x && q.y = r.y then ecdbl p a q
  else if q.x = r.x then some identity
  else
    match modInverse (Int.fmod (r.x - q.x) p) p with
    | none => none
    | some d => some (slopePoint p (Int.fmod ((r.y - q.y) * d) p) q.x q.y r.x)

/-- The double-and-add loop of 42_curve.md R136, bits `i - 1` down to 0 of `k`, from the accumulator `acc`. -/
def ecmulLoop (p a : Int) (k : Nat) (q : Point) : Nat → Point → Option Point
  | 0, acc => some acc
  | i + 1, acc =>
    match ecdbl p a acc with
    | none => none
    | some d =>
      if k.testBit i then
        match ecadd p a d q with
        | none => none
        | some e => ecmulLoop p a k q i e
      else ecmulLoop p a k q i d

/-- The scalar multiplier (42_curve.md R136), `k` being the magnitude of the scalar. -/
def ecmul (p a : Int) (k : Nat) (q : Point) : Option Point :=
  if k = 0 || q.isId then some identity else ecmulLoop p a k q (bitlenOf k) identity

end Sys2Proof.Machine
end

