-- ==== Sys2Proof/Machine/Operands.lean ====
section
/-! DEFINITION. The operand forms: immediates (30_encoding.md R80), DMEM records (20_memory.md R67, 43_move_memory.md R153),
point pairs (42_curve.md R130), and the checks that belong to an operand form: the record address (R153), the modulus
(41_modular.md R124) and the point unit (42_curve.md R133). -/

namespace Sys2Proof.Machine

/-- LDI's constant, `sext(imm16)` (30_encoding.md R80). -/
def immValue (imm : Imm16) : Int := imm.toInt

/-- The DMEM word index of LD and ST, `zext_16(imm16)` (30_encoding.md R80). -/
def recordIndex (addr : Imm16) : Nat := addr.toNat

/-- The target of J and B, an absolute IMEM word index (30_encoding.md R80). -/
def branchTarget (target : Imm16) : PcWord := target

/-- The words of a record: header and digits (20_memory.md R67). -/
abbrev recordWords : Nat := 1 + Config.capWords

/-- The record address check: `A + 1 + CAP_WORDS <= DMEM_WORDS` (43_move_memory.md R153). -/
def recordCheck (a : Nat) (i : Instr) (s : State) (k : Res) : Res :=
  check (a + recordWords ≤ s.params.dmemWords) .addr i s k

/-- The value of a record's words: bit 0 of the header is the sign, the rest of the header is ignored (43_move_memory.md R154). -/
def recordValue : List Digit → Int
  | [] => 0
  | h :: ds => if h.getLsbD 0 then -(magOfDigits ds : Int) else (magOfDigits ds : Int)

/-- The header ST writes: the sign of the value in bit 0, `used` in bits 15:8 (43_move_memory.md R155). -/
def recordHeader (v : Int) : Digit :=
  BitVec.ofNat 64 ((if v < 0 then 1 else 0) + 256 * (BigReg.ofInt v).used)

/-- The ten words ST writes for the value `v` (43_move_memory.md R155). -/
def recordOf (v : Int) : List Digit := recordHeader v :: (digitsOf v.natAbs).toList

/-- The second register of a pair (42_curve.md R130). -/
def pairHigh (i : RegIx) : RegIx := i + 1

/-- `P[i]` (42_curve.md R130). -/
def State.point (s : State) (i : RegIx) : Point := ⟨s.val i, s.val (pairHigh i)⟩

/-- `P[i] <- q`, both registers at once, and the next PC (42_curve.md R130). -/
def commitPoint (i : RegIx) (q : Point) (s : State) : Res := commitRegs i q.x (pairHigh i) q.y s

/-- Commit a point, or raise E_NOINV where the point function had no inverse (42_curve.md R134 to R136). -/
def commitPointOr (i : RegIx) (q : Option Point) (instr : Instr) (s : State) : Res :=
  match q with
  | none => raise .noInv instr s
  | some r => commitPoint i r s

/-- p, which the point unit reads from C0 (42_curve.md R133). -/
def State.fieldP (s : State) : Int := s.curveVal 0

/-- a, which the point unit reads from C1 (42_curve.md R133). -/
def State.coeffA (s : State) : Int := s.curveVal 1

/-- The modulus check of MODADD, MODSUB, MODMUL and MODINV (41_modular.md R124). -/
def modulusCheck (m : Int) (i : Instr) (s : State) (k : Res) : Res :=
  check (m ≠ 0) .divZero i s (check (0 < m) .modulus i s k)

/-- The point-unit check of PADD, PDBL and PMUL, over the point operands in operand order (42_curve.md R133). -/
def pointCheck (qs : List Point) (i : Instr) (s : State) (k : Res) : Res :=
  check (s.fieldP ≠ 0) .noCurve i s
    (check (0 < s.fieldP) .modulus i s
      (check (qs.all (Point.inRange s.fieldP) = true) .operand i s k))

end Sys2Proof.Machine
end

