-- ==== Sys2Proof/Machine/Control.lean ====
section
/-! DEFINITION. Control instructions (44_control.md): NOP, HALT, J, B. None of them raises an execution error
(60_exceptions.md R171). -/

namespace Sys2Proof.Machine

/-- NOP (44_control.md R160). -/
def execNop (s : State) : Res := .next s.advance

/-- HALT: BUSY 0, DONE 1, PC stays at the HALT (44_control.md R161). -/
def execHalt (s : State) : Res := .next (endRun s)

/-- J (44_control.md R162). A target at or beyond IMEM_WORDS is found by the next fetch. -/
def execJ (target : Imm16) (s : State) : Res := .next (s.setPc (branchTarget target))

/-- B (44_control.md R163). -/
def execB (cond : FlagBits) (target : Imm16) (s : State) : Res :=
  .next (if condHolds s.flags cond then s.setPc (branchTarget target) else s.advance)

end Sys2Proof.Machine
end

