-- ==== Sys2Proof/Machine/Curve.lean ====
section
/-! DEFINITION. The curve-group instructions (42_curve.md): PISID, PCMP, PADD, PDBL, PMUL. An odd point field is illegal
(30_encoding.md R84); p is C0 and a is C1. -/

namespace Sys2Proof.Machine

/-- PISID (42_curve.md R131): no range or modulus check. -/
def execPisid (ps : RegIx) (s : State) : Res :=
  checkLegal (.pisid ps) s (commitFlags (testFlags (s.point ps).isId) s)

/-- PCMP (42_curve.md R132): no range or modulus check. -/
def execPcmp (ps pt : RegIx) (s : State) : Res :=
  checkLegal (.pcmp ps pt) s (commitFlags (testFlags ((s.point ps).eqv (s.point pt))) s)

/-- PADD (42_curve.md R134). -/
def execPadd (pd ps pt : RegIx) (s : State) : Res :=
  checkLegal (.padd pd ps pt) s
    (pointCheck [s.point ps, s.point pt] (.padd pd ps pt) s
      (commitPointOr pd (ecadd s.fieldP s.coeffA (s.point ps) (s.point pt)) (.padd pd ps pt) s))

/-- PDBL (42_curve.md R135). -/
def execPdbl (pd ps : RegIx) (s : State) : Res :=
  checkLegal (.pdbl pd ps) s
    (pointCheck [s.point ps] (.pdbl pd ps) s
      (commitPointOr pd (ecdbl s.fieldP s.coeffA (s.point ps)) (.pdbl pd ps) s))

/-- PMUL, by the magnitude of the scalar (42_curve.md R136). -/
def execPmul (pd rk ps : RegIx) (s : State) : Res :=
  checkLegal (.pmul pd rk ps) s
    (pointCheck [s.point ps] (.pmul pd rk ps) s
      (commitPointOr pd (ecmul s.fieldP s.coeffA (s.val rk).natAbs (s.point ps)) (.pmul pd rk ps) s))

end Sys2Proof.Machine
end

