-- ==== Sys2Proof/Machine/Integer.lean ====
section
/-! DEFINITION. The integer engine (40_bigint.md): CMP, CMPM, ADD, SUB, MUL, DIVREM, MOD, BITLEN, GETBIT. Operands are the exact
integers the registers hold, results are exact (R110). -/

namespace Sys2Proof.Machine

/-- CMP (40_bigint.md R100). -/
def execCmp (rs rt : RegIx) (s : State) : Res := commitFlags (compareFlags (s.val rs) (s.val rt)) s

/-- CMPM (40_bigint.md R101). -/
def execCmpm (rs rt : RegIx) (s : State) : Res := commitFlags (compareFlags |s.val rs| |s.val rt|) s

/-- ADD (40_bigint.md R102). -/
def execAdd (rd rs rt : RegIx) (s : State) : Res :=
  check (fits (s.val rs + s.val rt)) .overflow (.add rd rs rt) s (commitReg rd (s.val rs + s.val rt) s)

/-- SUB (40_bigint.md R103). -/
def execSub (rd rs rt : RegIx) (s : State) : Res :=
  check (fits (s.val rs - s.val rt)) .overflow (.sub rd rs rt) s (commitReg rd (s.val rs - s.val rt) s)

/-- MUL (40_bigint.md R104). -/
def execMul (rd rs rt : RegIx) (s : State) : Res :=
  check (fits (s.val rs * s.val rt)) .overflow (.mul rd rs rt) s (commitReg rd (s.val rs * s.val rt) s)

/-- DIVREM (40_bigint.md R105); rq = rr is illegal (30_encoding.md R84). -/
def execDivrem (rq rr rs rt : RegIx) (s : State) : Res :=
  checkLegal (.divrem rq rr rs rt) s
    (check (s.val rt ≠ 0) .divZero (.divrem rq rr rs rt) s
      (commitRegs rq (Int.fdiv (s.val rs) (s.val rt)) rr (Int.fmod (s.val rs) (s.val rt)) s))

/-- MOD (40_bigint.md R106). A negative modulus is accepted. -/
def execMod (rd rs rt : RegIx) (s : State) : Res :=
  check (s.val rt ≠ 0) .divZero (.mod rd rs rt) s (commitReg rd (Int.fmod (s.val rs) (s.val rt)) s)

/-- BITLEN (40_bigint.md R107). -/
def execBitlen (rd rs : RegIx) (s : State) : Res := commitReg rd (bitlenOf (s.val rs).natAbs : Int) s

/-- GETBIT (40_bigint.md R108). -/
def execGetbit (rd rs rt : RegIx) (s : State) : Res :=
  check (0 ≤ s.val rt) .operand (.getbit rd rs rt) s
    (commitReg rd (bitOf (s.val rs).natAbs (s.val rt).toNat : Int) s)

end Sys2Proof.Machine
end

