-- ==== Sys2Proof/Machine/Modular.lean ====
section
/-! DEFINITION. The modular instructions (41_modular.md): MODADD, MODSUB, MODMUL, MODINV. The modulus is a register and is
checked first (R124); the unreduced sum, difference or product must fit a register. -/

namespace Sys2Proof.Machine

/-- MODADD (41_modular.md R120). -/
def execModadd (rd rs rt rm : RegIx) (s : State) : Res :=
  modulusCheck (s.val rm) (.modadd rd rs rt rm) s
    (check (fits (s.val rs + s.val rt)) .overflow (.modadd rd rs rt rm) s
      (commitReg rd (Int.fmod (s.val rs + s.val rt) (s.val rm)) s))

/-- MODSUB (41_modular.md R121). -/
def execModsub (rd rs rt rm : RegIx) (s : State) : Res :=
  modulusCheck (s.val rm) (.modsub rd rs rt rm) s
    (check (fits (s.val rs - s.val rt)) .overflow (.modsub rd rs rt rm) s
      (commitReg rd (Int.fmod (s.val rs - s.val rt) (s.val rm)) s))

/-- MODMUL (41_modular.md R122). -/
def execModmul (rd rs rt rm : RegIx) (s : State) : Res :=
  modulusCheck (s.val rm) (.modmul rd rs rt rm) s
    (check (fits (s.val rs * s.val rt)) .overflow (.modmul rd rs rt rm) s
      (commitReg rd (Int.fmod (s.val rs * s.val rt) (s.val rm)) s))

/-- MODINV (41_modular.md R123). -/
def execModinv (rd rs rm : RegIx) (s : State) : Res :=
  modulusCheck (s.val rm) (.modinv rd rs rm) s
    (match modInverse (s.val rs) (s.val rm) with
     | none => raise .noInv (.modinv rd rs rm) s
     | some x => commitReg rd x s)

end Sys2Proof.Machine
end

