-- ==== Sys2Proof/Machine/Move.lean ====
section
/-! DEFINITION. Data movement (43_move_memory.md): MOV, LDI, MOVC, LD, ST. -/

namespace Sys2Proof.Machine

/-- MOV: the value is copied, so a stored negative zero becomes +0 (43_move_memory.md R150). -/
def execMov (rd rs : RegIx) (s : State) : Res := commitReg rd (s.val rs) s

/-- LDI (43_move_memory.md R151). -/
def execLdi (rd : RegIx) (imm : Imm16) (s : State) : Res := commitReg rd (immValue imm) s

/-- MOVC (43_move_memory.md R152); an index above 5 is illegal (30_encoding.md R84). -/
def execMovc (rd : RegIx) (k : BitVec 4) (s : State) : Res :=
  if h : k.toNat < 6 then commitReg rd (s.curveVal ⟨k.toNat, h⟩) s else raise .illegal (.movc rd k) s

/-- LD (43_move_memory.md R154). A record with an unwritten byte is a fault of the model (20_memory.md R75). -/
def execLd (rd : RegIx) (addr : Imm16) (s : State) : Res :=
  recordCheck (recordIndex addr) (.ld rd addr) s
    (match memRead s.dmem (recordIndex addr) recordWords with
     | none => .fault .unwrittenDmem
     | some ws => commitReg rd (recordValue ws) s)

/-- ST (43_move_memory.md R155). -/
def execSt (rs : RegIx) (addr : Imm16) (s : State) : Res :=
  recordCheck (recordIndex addr) (.st rs addr) s (commitMem (recordIndex addr) (recordOf (s.val rs)) s)

end Sys2Proof.Machine
end

