-- ==== Sys2Proof/Machine/Dispatch.lean ====
section
/-! DEFINITION. One arm per instruction, each one direct call of its meaning. -/

namespace Sys2Proof.Machine

def exec (i : Instr) (s : State) : Host.Outcome State Fault Refusal :=
  match i with
  | .nop => Sys2Proof.Machine.execNop s
  | .halt => Sys2Proof.Machine.execHalt s
  | .mov rd rs => Sys2Proof.Machine.execMov rd rs s
  | .ldi rd imm => Sys2Proof.Machine.execLdi rd imm s
  | .movc rd k => Sys2Proof.Machine.execMovc rd k s
  | .ld rd addr => Sys2Proof.Machine.execLd rd addr s
  | .st rs addr => Sys2Proof.Machine.execSt rs addr s
  | .cmp rs rt => Sys2Proof.Machine.execCmp rs rt s
  | .cmpm rs rt => Sys2Proof.Machine.execCmpm rs rt s
  | .add rd rs rt => Sys2Proof.Machine.execAdd rd rs rt s
  | .sub rd rs rt => Sys2Proof.Machine.execSub rd rs rt s
  | .mul rd rs rt => Sys2Proof.Machine.execMul rd rs rt s
  | .divrem rq rr rs rt => Sys2Proof.Machine.execDivrem rq rr rs rt s
  | .mod rd rs rt => Sys2Proof.Machine.execMod rd rs rt s
  | .modadd rd rs rt rm => Sys2Proof.Machine.execModadd rd rs rt rm s
  | .modsub rd rs rt rm => Sys2Proof.Machine.execModsub rd rs rt rm s
  | .modmul rd rs rt rm => Sys2Proof.Machine.execModmul rd rs rt rm s
  | .modinv rd rs rm => Sys2Proof.Machine.execModinv rd rs rm s
  | .bitlen rd rs => Sys2Proof.Machine.execBitlen rd rs s
  | .getbit rd rs rt => Sys2Proof.Machine.execGetbit rd rs rt s
  | .pisid ps => Sys2Proof.Machine.execPisid ps s
  | .pcmp ps pt => Sys2Proof.Machine.execPcmp ps pt s
  | .padd pd ps pt => Sys2Proof.Machine.execPadd pd ps pt s
  | .pdbl pd ps => Sys2Proof.Machine.execPdbl pd ps s
  | .pmul pd rk ps => Sys2Proof.Machine.execPmul pd rk ps s
  | .j target => Sys2Proof.Machine.execJ target s
  | .b cond target => Sys2Proof.Machine.execB cond target s

end Sys2Proof.Machine
end

