-- ==== Sys2Proof/Machine/HostWindow.lean ====
section
/-! DEFINITION. The host register window: the address map (20_memory.md R52 to R58), host reads and writes (R59 to R62), the
words CTRL, STATUS, ID, CONFIG and the slot header (10_state.md R32 to R40, 20_memory.md R56), and `irq` (10_state.md R41). -/

namespace Sys2Proof.Machine

/-- The control and status registers of 10_state.md R32. -/
inductive Csr where
  | id | config | ctrl | status | startPc | pc | epc | einsn
deriving DecidableEq, Repr

/-- What an offset of the window addresses (20_memory.md R52). A slot is named with the 64-bit word within it (R55), a RAM with
the byte within it (R57, R58). -/
inductive Region where
  | csr (r : Csr)
  | regSlot (r : RegIx) (word : Nat)
  | curveSlot (k : Fin 6) (word : Nat)
  | imem (byte : Nat)
  | dmem (byte : Nat)
  | reserved
deriving DecidableEq, Repr

/-- The register at word `n` of the control block (10_state.md R32). -/
def csrAt : Nat → Csr
  | 0 => .id
  | 1 => .config
  | 2 => .ctrl
  | 3 => .status
  | 4 => .startPc
  | 5 => .pc
  | 6 => .epc
  | _ => .einsn

/-- The address map (20_memory.md R52). -/
def regionOf (o : Offset) : Region :=
  let n := o.toNat
  if n < 0x40 then .csr (csrAt (n / 8))
  else if n < 0x1000 then .reserved
  else if n < 0x1800 then .regSlot (BitVec.ofNat 4 ((n - 0x1000) / 0x80)) (n % 0x80 / 8)
  else if n < 0x2000 then .reserved
  else if h : n < 0x2300 then .curveSlot ⟨(n - 0x2000) / 0x80, by omega⟩ (n % 0x80 / 8)
  else if n < 0x40000 then .reserved
  else if n < 0x80000 then .imem (n - 0x40000)
  else .dmem (n - 0x80000)

/-- The accesses that complete with a bus error (20_memory.md R54, R57). -/
def isBusError (p : Params) (width : Nat) (o : Offset) : Bool :=
  !(width == 32 || width == 64) || o.toNat % (width / 8) != 0 ||
    match regionOf o with
    | .reserved => true
    | .imem b => decide (4 * p.imemWords < b + width / 8)
    | .dmem b => decide (8 * p.dmemWords < b + width / 8)
    | .csr _ | .regSlot _ _ | .curveSlot _ _ => false

/-- A 32-bit access to bits 63:32 of a 64-bit register (20_memory.md R53). -/
def isHighHalf (width : Nat) (o : Offset) : Bool := width == 32 && o.toNat % 8 == 4

/-- What an access of this width and offset reads of a 64-bit register (20_memory.md R53). -/
def laneOut (width : Nat) (o : Offset) (full : BitVec 64) : BitVec 64 :=
  if width = 64 then full
  else if isHighHalf width o then (full.extractLsb' 32 32).setWidth 64
  else (full.extractLsb' 0 32).setWidth 64

/-- A 64-bit register after a write: a 32-bit write changes only its half (20_memory.md R53). -/
def laneIn (width : Nat) (o : Offset) (old data : BitVec 64) : BitVec 64 :=
  if width = 64 then data
  else if isHighHalf width o then data.extractLsb' 0 32 ++ old.extractLsb' 0 32
  else old.extractLsb' 32 32 ++ data.extractLsb' 0 32

/-! ### The words the host reads -/

/-- CTRL: START and SRST read 0 (10_state.md R33). -/
def ctrlWord (s : State) : BitVec 64 := 0#61 ++ BitVec.ofBool s.curveLock ++ BitVec.ofBool s.ie ++ 0#1

/-- STATUS (10_state.md R36). -/
def statusWord (s : State) : BitVec 64 :=
  0#45 ++ s.flags ++ 0#4 ++ s.ecode ++ 0#4 ++ BitVec.ofBool s.hosterr ++ BitVec.ofBool s.err ++ BitVec.ofBool s.done
    ++ BitVec.ofBool s.busy

/-- CONFIG (10_state.md R35). -/
def configWord (p : Params) : BitVec 64 :=
  BitVec.ofNat 16 (p.dmemWords - 1) ++ BitVec.ofNat 16 (p.imemWords - 1) ++ BitVec.ofNat 8 Config.ncurve
    ++ BitVec.ofNat 8 Config.nreg ++ BitVec.ofNat 8 Config.fieldWords ++ BitVec.ofNat 8 Config.capWords

/-- The value of a control or status register (10_state.md R32 to R40). -/
def csrWord (r : Csr) (s : State) : BitVec 64 :=
  match r with
  | .id => Config.idWord
  | .config => configWord s.params
  | .ctrl => ctrlWord s
  | .status => statusWord s
  | .startPc => s.startPc.setWidth 64
  | .pc => s.pc.setWidth 64
  | .epc => s.epc.setWidth 64
  | .einsn => s.einsn.setWidth 64

/-- The header word of a slot (20_memory.md R56). -/
def headerWord (r : BigReg) : BitVec 64 := 0#48 ++ BitVec.ofNat 8 r.used ++ 0#7 ++ BitVec.ofBool r.sign

/-- Word `w` of a slot: header, digits, reserved (20_memory.md R55). -/
def slotWord (r : BigReg) (w : Nat) : BitVec 64 :=
  if w = 0 then headerWord r else if h : w - 1 < 9 then r.dig[w - 1] else 0

/-- A write to word `w` of a slot touches SIGN or a digit (20_memory.md R55, R56; log 10). -/
def slotWritable (width : Nat) (o : Offset) (w : Nat) : Bool := if w = 0 then !isHighHalf width o else decide (w ≤ 9)

/-- The register after a write to word `w` of its slot: SIGN from bit 0 of the header, a digit verbatim (20_memory.md R55, R56). -/
def slotWrite (width : Nat) (o : Offset) (w : Nat) (data : BitVec 64) (r : BigReg) : BigReg :=
  if w = 0 then (if isHighHalf width o then r else { r with sign := data.getLsbD 0 })
  else if h : w - 1 < 9 then { r with dig := r.dig.set (w - 1) (laneIn width o r.dig[w - 1] data) }
  else r

/-! ### Responses and free values -/

/-- Complete the access with a response. -/
def State.respond (s : State) (r : BusResponse) : State := { s with response := some r }

/-- The next free value, of `width` bits (93_implementation_defined.md U1, U5; log 6). -/
def freeValue (width : Nat) (s : State) : BitVec 64 :=
  if width = 64 then Config.freeWord s.freeCount else ((Config.freeWord s.freeCount).extractLsb' 0 32).setWidth 64

/-- Draw a free value: the next one is another. -/
def State.draw (s : State) : State := { s with freeCount := s.freeCount + 1 }

/-- Answer a read with an unspecified value (20_memory.md R61). -/
def respondFree (width : Nat) (s : State) : State := (s.respond (.data width (freeValue width s))).draw

/-- The `n` bytes from address `a` up, an unwritten one taken from the bytes of `free` in order (93_implementation_defined.md
U5; log 6). -/
def bytesOrFree (m : Memory) : Nat → Nat → Nat → List Byte
  | _, 0, _ => []
  | a, n + 1, free => (readByte m a).getD (BitVec.ofNat 8 free) :: bytesOrFree m (a + 1) n (free / 256)

/-- A host read of a RAM while idle (20_memory.md R57, R58): the stored bytes, little-endian; a free value is drawn where one of
them is unwritten. -/
def ramRead (m : Memory) (width a : Nat) (s : State) : State :=
  match readBytes m a (width / 8) with
  | some bs => s.respond (.data width (BitVec.ofNat 64 (leNat bs)))
  | none =>
    (s.respond (.data width (BitVec.ofNat 64 (leNat (bytesOrFree m a (width / 8) (freeValue width s).toNat))))).draw

/-! ### Host reads and writes -/

/-- A host read (20_memory.md R54, R61, R62): it changes nothing but the response. Every word of a slot is a slot's (log 15). -/
def hostRead (width : Nat) (o : Offset) (s : State) : State :=
  if isBusError s.params width o then s.respond (.busError s.params.hostBus.readError)
  else
    match regionOf o with
    | .csr .pc =>
      if s.busy then
        (s.respond (.data width (laneOut width o (((Config.freeWord s.freeCount).extractLsb' 0 16).setWidth 64)))).draw
      else s.respond (.data width (laneOut width o (csrWord .pc s)))
    | .csr r => s.respond (.data width (laneOut width o (csrWord r s)))
    | .regSlot r w =>
      if s.busy then respondFree width s else s.respond (.data width (laneOut width o (slotWord (s.bigReg r) w)))
    | .curveSlot k w =>
      if s.busy then respondFree width s else s.respond (.data width (laneOut width o (slotWord s.curve[k] w)))
    | .imem b => if s.busy then respondFree width s else ramRead s.imem width b s
    | .dmem b => if s.busy then respondFree width s else ramRead s.dmem width b s
    | .reserved => s.respond (.busError s.params.hostBus.readError)

/-- A refused write changes nothing and sets HOSTERR (20_memory.md R59, R60). -/
def hostRefuse (s : State) : State := { s with hosterr := true }

/-- A write the block refuses while the engine runs (20_memory.md R59). -/
def unlessBusy (s t : State) : State := if s.busy then hostRefuse s else t

/-- One write of CTRL, in the order of 10_state.md R33: SRST, and otherwise IE, CURVE_LOCK, START. A START while running is
ignored and sets HOSTERR (R42; log 9). -/
def writeCtrl (data : BitVec 64) (s : State) : State :=
  if data.getLsbD 3 then softReset s
  else
    let t := { s with ie := data.getLsbD 1, curveLock := s.curveLock || data.getLsbD 2 }
    if data.getLsbD 0 then unlessBusy t (startRun t) else t

/-- Write-1-to-clear of DONE, ERR and HOSTERR; the rest of STATUS is read-only (10_state.md R36). -/
def writeStatus (data : BitVec 64) (s : State) : State :=
  { s with done := s.done && !data.getLsbD 1, err := s.err && !data.getLsbD 2, hosterr := s.hosterr && !data.getLsbD 3 }

/-- A write to a control or status register; bits 63:32 of each are read-only or reserved (10_state.md R32, R33, R36, R37;
log 14). -/
def writeCsr (r : Csr) (width : Nat) (o : Offset) (data : BitVec 64) (s : State) : State :=
  match r with
  | .ctrl => if isHighHalf width o then s else writeCtrl data s
  | .status => if isHighHalf width o then s else writeStatus data s
  | .startPc => unlessBusy s (if isHighHalf width o then s else { s with startPc := data.extractLsb' 0 16 })
  | .id | .config | .pc | .epc | .einsn => s

/-- A host write (20_memory.md R54, R59, R60, R62; log 10, 14, 15). A refused write completes without a bus error (log 2). -/
def hostWrite (width : Nat) (o : Offset) (data : BitVec 64) (s : State) : State :=
  if isBusError s.params width o then s.respond (.busError s.params.hostBus.writeError)
  else
    (match regionOf o with
     | .csr r => writeCsr r width o data s
     | .regSlot r w => unlessBusy s (s.setBigReg r (slotWrite width o w data (s.bigReg r)))
     | .curveSlot k w =>
       unlessBusy s
         (if s.curveLock then (if slotWritable width o w then hostRefuse s else s)
          else { s with curve := s.curve.set k (slotWrite width o w data s.curve[k]) })
     | .imem b => unlessBusy s { s with imem := writeBytes s.imem b (leBytes (width / 8) data.toNat) }
     | .dmem b => unlessBusy s { s with dmem := writeBytes s.dmem b (leBytes (width / 8) data.toNat) }
     | .reserved => s).respond .done

/-- The interrupt output: `CTRL.IE AND (STATUS.DONE OR STATUS.ERR)` (10_state.md R41). -/
def irq (s : State) : Bool := s.ie && (s.done || s.err)

end Sys2Proof.Machine
end

