-- ==== Sys2Proof/Machine/Engine.lean ====
section
/-! DEFINITION. Who has the step and what it does: the engine's cycle (60_exceptions.md R170) and the events at the ports
(20_memory.md R62, 70_reset_and_hazards.md R200). -/

namespace Sys2Proof.Machine

/-- One engine step while BUSY = 1: fetch, decode, execute and commit (60_exceptions.md R170). -/
def engineStep (s : State) : Res :=
  if s.params.imemWords ≤ s.pc.toNat then .next (raiseError .fetch 0 s)
  else
    match imemWord s.imem s.pc.toNat with
    | none => .fault .unwrittenImem
    | some w =>
      match decode w with
      | .error _ => .next (raiseError .illegal w s)
      | .ok i => exec i s

/-- The engine's turn: an idle engine, or one held in reset, executes nothing (60_exceptions.md R186, 70_reset_and_hazards.md
R200; log 13). -/
def engineTurn (s : State) : Res := if s.rstN && s.busy then engineStep s else .next s

/-- An access at the host bus: one outside the window is not the block's (20_memory.md R51; log 2), and while rst_n = 0 the block
accepts none, HOST_BUS saying how the bus responds (70_reset_and_hazards.md R200). `k` is what an accepted access does. -/
def hostAccess (address : Nat) (k : Offset → State → State) (s : State) : State :=
  match s.params.offsetOf address with
  | none => s
  | some o => if s.rstN then k o s else s.respond (.platform s.params.hostBus.inReset)

/-- What one event at the ports does (20_memory.md R62, 70_reset_and_hazards.md R200). -/
def portEvent (e : PortEvent) (s : State) : State :=
  match e with
  | .read width a => hostAccess a (fun o t => hostRead width o t) s
  | .write width a data => hostAccess a (fun o t => hostWrite width o data t) s
  | .resetAssert => hardReset s
  | .resetRelease => { s with rstN := true }
  | .quiet => s

/-- One step of the block: the next event at the ports, and where that is none or quiet, the engine's turn (20_memory.md R70;
log 3). -/
def turn (s : State) : Res :=
  match s.ports with
  | [] => engineTurn s
  | .quiet :: rest => engineTurn { s with ports := rest }
  | e :: rest => .next (portEvent e { s with ports := rest })

/-- `s` with the instruction word `w` as the word the very next step fetches: the port list empty, rst_n at 1, the engine
running, PC inside IMEM and `w` in IMEM there (log 4). -/
def placeWord (s : State) (w : Nat) : State :=
  let pc := if s.pc.toNat < s.params.imemWords then s.pc else 0
  { s with ports := [], rstN := true, busy := true, pc := pc, imem := writeBytes s.imem (4 * pc.toNat) (leBytes 4 w) }

end Sys2Proof.Machine
end

