-- ==== Sys2Proof/Machine/Step.lean ====
section
/-! DEFINITION. The one step of the block, and the placing of a word where it fetches. -/

namespace Sys2Proof.Machine

/-- One step: one event at the ports, or one engine step (60_exceptions.md R170, 20_memory.md R70). -/
def step (s : State) : Host.Outcome State Fault Refusal := turn s

/-- `s` with the instruction whose low `nbits` bits are `w`, the others zero, where step fetches next (log 4). -/
def State.withFetchWord (s : State) (nbits w : Nat) : State := placeWord s (w % 2 ^ nbits)

end Sys2Proof.Machine
end

