-- ==== Sys2Proof/Safety.lean ====
section
/-! DEFINITION. The terms claims are written in: what a committed instruction leaves unchanged, what taking an engine error
leaves, what counts as a good state, and the point functions as relations that name no algorithm. -/

namespace Sys2Proof.Machine

/-! ### Frames -/

/-- A register in the form every instruction writes: no negative zero (10_state.md R25). -/
def BigReg.canonical (b : BigReg) : Prop := b.sign = true → b.mag ≠ 0

/-- What no instruction writes, on completion or on an error: the curve bank, IMEM, CTRL, HOSTERR, START_PC, the parameters and
the ports. -/
def hostSideKept (s t : State) : Prop :=
  t.params = s.params ∧ t.curve = s.curve ∧ (∀ a, readByte t.imem a = readByte s.imem a) ∧ t.ie = s.ie ∧
    t.curveLock = s.curveLock ∧ t.hosterr = s.hosterr ∧ t.startPc = s.startPc ∧ t.rstN = s.rstN ∧ t.ports = s.ports ∧
    t.response = s.response ∧ t.freeCount = s.freeCount

/-- The run state and the error record, which only HALT and an error write. -/
def runKept (s t : State) : Prop :=
  t.busy = s.busy ∧ t.done = s.done ∧ t.err = s.err ∧ t.ecode = s.ecode ∧ t.epc = s.epc ∧ t.einsn = s.einsn

/-- The instructions that write FLAGS (10_state.md R31). -/
def writesFlags (i : Instr) : Prop :=
  (∃ rs rt, i = .cmp rs rt) ∨ (∃ rs rt, i = .cmpm rs rt) ∨ (∃ ps, i = .pisid ps) ∨ ∃ ps pt, i = .pcmp ps pt

/-- Every register outside `ds` holds the same stored form. -/
def regsKeptBut (ds : List RegIx) (s t : State) : Prop := ∀ r, r ∉ ds → t.bigReg r = s.bigReg r

/-- Every byte of DMEM reads as before. -/
def dmemKept (s t : State) : Prop := ∀ a, readByte t.dmem a = readByte s.dmem a

/-- Every byte of DMEM outside the `n` bytes from `lo` up reads as before. -/
def dmemKeptBut (lo n : Nat) (s t : State) : Prop :=
  ∀ a, a < lo ∨ lo + n ≤ a → readByte t.dmem a = readByte s.dmem a

/-- The frame of an instruction that writes the registers `ds` and the next PC, and nothing else. -/
def wroteOnly (ds : List RegIx) (s t : State) : Prop :=
  regsKeptBut ds s t ∧ (∀ r ∈ ds, (t.bigReg r).canonical) ∧ t.flags = s.flags ∧ dmemKept s t ∧ runKept s t ∧
    hostSideKept s t ∧ t.pc = s.pc + 1

/-- The frame of an instruction that writes FLAGS and the next PC, and nothing else. -/
def wroteFlagsOnly (s t : State) : Prop :=
  regsKeptBut [] s t ∧ dmemKept s t ∧ runKept s t ∧ hostSideKept s t ∧ t.pc = s.pc + 1

/-- The frame of an instruction that writes the next PC and nothing else. -/
def wrotePcOnly (pc : PcWord) (s t : State) : Prop :=
  regsKeptBut [] s t ∧ t.flags = s.flags ∧ dmemKept s t ∧ runKept s t ∧ hostSideKept s t ∧ t.pc = pc

/-- The frame of an instruction that writes the `n` DMEM bytes from `lo` up and the next PC, and nothing else. -/
def wroteDmemOnly (lo n : Nat) (s t : State) : Prop :=
  regsKeptBut [] s t ∧ t.flags = s.flags ∧ dmemKeptBut lo n s t ∧ runKept s t ∧ hostSideKept s t ∧ t.pc = s.pc + 1

/-- `t` is `s` after the engine error `e` with the word `w` recorded (60_exceptions.md R173, R174). -/
def tookError (e : EngineError) (w : InsnWord) (s t : State) : Prop :=
  t.ecode = e.code ∧ t.epc = s.pc ∧ t.einsn = w ∧ t.err = true ∧ t.busy = false ∧ t.done = s.done ∧ t.pc = s.pc ∧
    t.flags = s.flags ∧ regsKeptBut [] s t ∧ dmemKept s t ∧ hostSideKept s t

/-! ### Good states -/

/-- The fields of STATUS, the error record and FLAGS agree with each other (10_state.md R31, R36, R38; 60_exceptions.md R171 to
R173). -/
abbrev State.recordOk (s : State) : Prop :=
  ¬(s.done = true ∧ s.err = true) ∧
    (s.busy = true → s.done = false ∧ s.err = false ∧ s.ecode = 0) ∧
    (s.err = true → s.epc = s.pc ∧ s.ecode ≠ 0) ∧
    s.ecode.toNat ≤ 9 ∧
    (s.ecode = 0 → s.epc = 0 ∧ s.einsn = 0) ∧
    (s.flags = 0 ∨ s.flags = 1 ∨ s.flags = 2 ∨ s.flags = 4)

/-- Both RAMs are in canonical form and list no address that does not exist (10_state.md R43). -/
abbrev State.ramsOk (s : State) : Prop :=
  Memory.wf s.imem ∧ Memory.below s.imem (4 * s.params.imemWords) ∧
    Memory.wf s.dmem ∧ Memory.below s.dmem (8 * s.params.dmemWords)

/-- The invariant of the block. -/
abbrev State.Inv (s : State) : Prop := s.recordOk ∧ s.ramsOk

/-- While rst_n = 0 every element has its reset value, the parameters and the model's own fields apart (70_reset_and_hazards.md
R200). -/
abbrev State.heldInReset (s : State) : Prop :=
  s = { State.reset with
    params := s.params, rstN := false, ports := s.ports, response := s.response, freeCount := s.freeCount }

/-- Every element but the two RAMs has its value of 10_state.md R45. -/
def State.hasResetValues (s : State) : Prop :=
  (∀ r : RegIx, (s.bigReg r).sign = false ∧ (s.bigReg r).mag = 0) ∧
    (∀ k : Fin 6, s.curve[k].sign = false ∧ s.curve[k].mag = 0) ∧
    s.flags = 0 ∧ s.pc = 0 ∧ (s.ie = false ∧ s.curveLock = false) ∧
    (s.busy = false ∧ s.done = false ∧ s.err = false ∧ s.hosterr = false ∧ s.ecode = 0) ∧
    (s.startPc = 0 ∧ s.epc = 0 ∧ s.einsn = 0) ∧ irq s = false

/-- The engine has the next step and is running: rst_n is 1, BUSY is 1 and nothing happens at the ports. -/
abbrev State.running (s : State) : Prop := s.rstN = true ∧ s.busy = true ∧ s.ports = []

/-! ### Words and accesses, as the spec's tables list them -/

/-- A row of the opcode map: the opcode, the must-be-zero bits of its format, and bit 0 of each point field (30_encoding.md R78,
R79, R82). -/
structure OpcodeRow where
  op : BitVec 8
  zeros : InsnWord
  odd : InsnWord
deriving DecidableEq, Repr

/-- The opcode map 30_encoding.md R82, in its order. -/
def opcodeRows : List OpcodeRow :=
  [⟨0x00, 0x00FFFFFF, 0⟩, ⟨0x01, 0x00FFFFFF, 0⟩, ⟨0x02, 0x0000FFFF, 0⟩, ⟨0x03, 0x000F0000, 0⟩, ⟨0x04, 0x0000FFFF, 0⟩,
   ⟨0x08, 0x000F0000, 0⟩, ⟨0x09, 0x000F0000, 0⟩] ++
  [⟨0x10, 0x0000FFFF, 0⟩, ⟨0x11, 0x0000FFFF, 0⟩, ⟨0x12, 0x00000FFF, 0⟩, ⟨0x13, 0x00000FFF, 0⟩, ⟨0x14, 0x00000FFF, 0⟩,
   ⟨0x15, 0x000000FF, 0⟩, ⟨0x16, 0x00000FFF, 0⟩, ⟨0x18, 0x000000FF, 0⟩, ⟨0x19, 0x000000FF, 0⟩, ⟨0x1A, 0x000000FF, 0⟩,
   ⟨0x1B, 0x00000FFF, 0⟩, ⟨0x1C, 0x0000FFFF, 0⟩, ⟨0x1D, 0x00000FFF, 0⟩] ++
  [⟨0x20, 0x000FFFFF, 0x00100000⟩, ⟨0x21, 0x0000FFFF, 0x00110000⟩, ⟨0x22, 0x00000FFF, 0x00111000⟩,
   ⟨0x23, 0x0000FFFF, 0x00110000⟩, ⟨0x24, 0x00000FFF, 0x00101000⟩, ⟨0x30, 0x00FF0000, 0⟩, ⟨0x31, 0x001F0000, 0⟩]

/-- The five cases of 30_encoding.md R84. -/
def illegalWord (w : InsnWord) : Prop :=
  (∀ r ∈ opcodeRows, w.extractLsb' 24 8 ≠ r.op) ∨
    (∃ r ∈ opcodeRows, w.extractLsb' 24 8 = r.op ∧ w &&& r.zeros ≠ 0) ∨
    (∃ r ∈ opcodeRows, w.extractLsb' 24 8 = r.op ∧ w &&& r.odd ≠ 0) ∨
    (w.extractLsb' 24 8 = 0x04 ∧ 5 < (w.extractLsb' 16 4).toNat) ∨
    (w.extractLsb' 24 8 = 0x15 ∧ w.extractLsb' 20 4 = w.extractLsb' 16 4)

/-- The host byte address of offset `o` of the window. -/
abbrev State.hostAddr (s : State) (o : Offset) : Nat := s.params.hostAddr o

/-- The accesses that 20_memory.md R54 lists: a bad width, a misaligned offset, a reserved range of R52, a RAM word that does
not exist. -/
def badAccess (p : Params) (width : Nat) (o : Offset) : Prop :=
  (width ≠ 32 ∧ width ≠ 64) ∨ (width = 32 ∧ o.toNat % 4 ≠ 0) ∨ (width = 64 ∧ o.toNat % 8 ≠ 0) ∨
    (0x00040 ≤ o.toNat ∧ o.toNat < 0x01000) ∨ (0x01800 ≤ o.toNat ∧ o.toNat < 0x02000) ∨
    (0x02300 ≤ o.toNat ∧ o.toNat < 0x40000) ∨
    (0x40000 + 4 * p.imemWords ≤ o.toNat ∧ o.toNat < 0x80000) ∨ 0x80000 + 8 * p.dmemWords ≤ o.toNat

/-! ### The point functions as relations -/

/-- A point operand the point unit accepts (42_curve.md R133). -/
def pointOk (p : Int) (q : Point) : Prop := q = identity ∨ ((0 ≤ q.x ∧ q.x < p) ∧ (0 ≤ q.y ∧ q.y < p))

/-- `r` is the double of `q` (42_curve.md R135): the identity where y = 0, else by the slope `l` with any inverse `d` of 2y. -/
def DoublesTo (p a : Int) (q r : Point) : Prop :=
  (q.y = 0 ∧ r = identity) ∨
    (q.y ≠ 0 ∧ ∃ d l : Int, 2 * q.y * d % p = 1 % p ∧ l = (3 * q.x * q.x + a) * d % p ∧
      r.x = (l * l - 2 * q.x) % p ∧ r.y = (l * (q.x - r.x) - q.y) % p)

/-- `t` is the sum of `q` and `r` (42_curve.md R134). -/
def AddsTo (p a : Int) (q r t : Point) : Prop :=
  (q = identity ∧ t = r) ∨
    (q ≠ identity ∧ r = identity ∧ t = q) ∨
    (q ≠ identity ∧ r ≠ identity ∧ q = r ∧ DoublesTo p a q t) ∨
    (q ≠ identity ∧ r ≠ identity ∧ q.x = r.x ∧ q.y ≠ r.y ∧ t = identity) ∨
    (q ≠ identity ∧ r ≠ identity ∧ q.x ≠ r.x ∧ ∃ d l : Int, (r.x - q.x) * d % p = 1 % p ∧ l = (r.y - q.y) * d % p ∧
      t.x = (l * l - q.x - r.x) % p ∧ t.y = (l * (q.x - t.x) - q.y) % p)

/-- The double of `q` needs no inverse, or it exists. -/
def canDouble (p : Int) (q : Point) : Prop := q.y = 0 ∨ Int.gcd (2 * q.y) p = 1

/-- The sum of `q` and `r` needs no inverse, or it exists. -/
def canAdd (p : Int) (q r : Point) : Prop :=
  q = identity ∨ r = identity ∨ (q = r ∧ canDouble p q) ∨ (q.x = r.x ∧ q.y ≠ r.y) ∨
    (q.x ≠ r.x ∧ Int.gcd (r.x - q.x) p = 1)

/-- `r` is `k` times `q` by doubling and adding from the most significant bit of `k` (42_curve.md R136). -/
inductive MulsTo (p a : Int) (q : Point) : Nat → Point → Prop
  /-- no bit is left -/
  | zero : MulsTo p a q 0 identity
  /-- a further bit that is 0 -/
  | double {k : Nat} {r r' : Point} : 0 < k → MulsTo p a q k r → DoublesTo p a r r' → MulsTo p a q (2 * k) r'
  /-- a further bit that is 1 -/
  | doubleAdd {k : Nat} {r r' r'' : Point} :
      MulsTo p a q k r → DoublesTo p a r r' → AddsTo p a r' q r'' → MulsTo p a q (2 * k + 1) r''

end Sys2Proof.Machine
end

