-- ==== Sys2Proof/Certificates/Slice0/Obligations.lean ====
section
/-! DEFINITION. The statements for the provers. Each says which rule of spec/ it formalises; where it rests on a choice of the
model's, it names the log entry. -/

open Sys2Proof Sys2Proof.Machine

/-! ### Encoding -/

/-- 30_encoding.md R77, R78, R82: the decoder reads back every well-formed instruction, every operand at every value. -/
def Obligations.DecodeInvertsEncode : Prop := ∀ i : Instr, i.wf = true → decode (encode i) = .ok i

/-- 30_encoding.md R84: a word the decoder accepts is the encoding of the well-formed instruction it gives; no bit is dropped. -/
def Obligations.EncodeInvertsDecode : Prop :=
  ∀ (w : InsnWord) (i : Instr), decode w = .ok i → i.wf = true ∧ encode i = w

/-- 30_encoding.md R84, both halves: a running engine that fetches an illegal word records E_ILLEGAL and writes nothing else; a
word that is not illegal is exactly one instruction. -/
def Obligations.IllegalWordsRaiseIllegal : Prop :=
  ∀ w : InsnWord,
    (illegalWord w → ∀ s : State, s.running → s.pc.toNat < s.params.imemWords → imemWord s.imem s.pc.toNat = some w →
      ∃ t, step s = .next t ∧ tookError .illegal w s t) ∧
    (¬illegalWord w → ∃ i : Instr, decode w = .ok i ∧ i.wf = true ∧ encode i = w ∧
      ∀ j : Instr, j.wf = true → encode j = w → j = i)

/-- 30_encoding.md R86: the opcode is checked first, then the must-be-zero bits, then the operand constraints. -/
def Obligations.DecodeRejectsInOrder : Prop :=
  ∀ w : InsnWord,
    ((∀ r ∈ opcodeRows, w.extractLsb' 24 8 ≠ r.op) → decode w = .error .unassignedOpcode) ∧
    ∀ r ∈ opcodeRows, w.extractLsb' 24 8 = r.op →
      (w &&& r.zeros ≠ 0 → decode w = .error .mustBeZero) ∧
      (w &&& r.zeros = 0 → w &&& r.odd ≠ 0 → decode w = .error .oddPoint) ∧
      (w &&& r.zeros = 0 → r.op = 0x04 → 5 < (w.extractLsb' 16 4).toNat → decode w = .error .curveIndex) ∧
      (w &&& r.zeros = 0 → r.op = 0x15 → w.extractLsb' 20 4 = w.extractLsb' 16 4 →
        decode w = .error .sameDestination)

/-- 30_encoding.md R89: the three words it writes out. -/
def Obligations.SampleWordsDecode : Prop :=
  decode 0x12312000 = .ok (.add 3 1 2) ∧ decode 0x31A00005 = .ok (.b 5 5) ∧ decode 0x24816000 = .ok (.pmul 8 1 6) ∧
    encode (.add 3 1 2) = 0x12312000 ∧ encode (.b 5 5) = 0x31A00005 ∧ encode (.pmul 8 1 6) = 0x24816000

/-! ### The step -/

/-- 60_exceptions.md R170: a running engine runs the instruction its fetched word decodes to. Where the port list holds a quiet
entry, the entry is taken off and the engine has the step (log 3). -/
def Obligations.StepRunsDecodedInstruction : Prop :=
  ∀ (s : State) (w : InsnWord) (i : Instr), s.rstN = true → s.busy = true → s.pc.toNat < s.params.imemWords →
    imemWord s.imem s.pc.toNat = some w → decode w = .ok i →
    (s.ports = [] → step s = exec i s) ∧
    (∀ rest, s.ports = .quiet :: rest → step s = exec i { s with ports := rest })

/-- 60_exceptions.md R170, R171, R172, R173: a fetch at or beyond IMEM_WORDS records E_FETCH with EINSN 0. -/
def Obligations.FetchBeyondImemRaisesFetch : Prop :=
  ∀ s : State, s.running → s.params.imemWords ≤ s.pc.toNat →
    ∃ t, step s = .next t ∧ tookError .fetch 0 s t

/-- 20_memory.md R75: a fetch of a word with an unwritten byte, and an LD of a record with one, are faults of the model. That
"written" is kept per byte is the model's reading (log 5). -/
def Obligations.UnwrittenWordsFault : Prop :=
  (∀ s : State, s.running → s.pc.toNat < s.params.imemWords →
    (∃ k < 4, readByte s.imem (4 * s.pc.toNat + k) = none) → step s = .fault .unwrittenImem) ∧
  (∀ (s : State) (rd : RegIx) (addr : Imm16), recordIndex addr + 10 ≤ s.params.dmemWords →
    (∃ k < 80, readByte s.dmem (8 * recordIndex addr + k) = none) → exec (.ld rd addr) s = .fault .unwrittenDmem)

/-- 60_exceptions.md R186, 70_reset_and_hazards.md R200: an engine that is idle or held in reset executes nothing. That a step
then leaves the state as it is, is the model's choice (log 13). -/
def Obligations.IdleEngineExecutesNothing : Prop :=
  ∀ s : State, (s.busy = false ∨ s.rstN = false) →
    (s.ports = [] → step s = .next s) ∧ (∀ rest, s.ports = .quiet :: rest → step s = .next { s with ports := rest })

/-- The host's placing of a word (log 4): the very next step runs exactly the instruction placed. -/
def Obligations.PlacedWordRuns : Prop :=
  ∀ (s : State) (w : Nat) (i : Instr), 0 < s.params.imemWords → decodeTableWord 32 w = some i →
    step (s.withFetchWord 32 w) = exec i (s.withFetchWord 32 w)

/-! ### Control -/

/-- 44_control.md R160, R162, R163: NOP, J and B; a target at or beyond IMEM_WORDS is found by the next fetch, with EPC the
target. -/
def Obligations.NopJumpAndBranch : Prop :=
  ∀ (s : State) (cond : FlagBits) (target : Imm16),
    (encode .nop = 0#32 ∧ ∃ t, exec .nop s = .next t ∧ wrotePcOnly (s.pc + 1) s t) ∧
    (encode (.j target) = 0x30#8 ++ 0#8 ++ target ∧ ∃ t, exec (.j target) s = .next t ∧ wrotePcOnly target s t ∧
      (s.running → s.params.imemWords ≤ target.toNat →
        ∃ u, step t = .next u ∧ tookError .fetch 0 t u ∧ u.epc = target)) ∧
    (encode (.b cond target) = 0x31#8 ++ cond ++ 0#5 ++ target ∧
      (s.flags &&& cond ≠ 0 → ∃ t, exec (.b cond target) s = .next t ∧ wrotePcOnly target s t ∧
        (s.running → s.params.imemWords ≤ target.toNat →
          ∃ u, step t = .next u ∧ tookError .fetch 0 t u ∧ u.epc = target)) ∧
      (s.flags &&& cond = 0 → ∃ t, exec (.b cond target) s = .next t ∧ wrotePcOnly (s.pc + 1) s t))

/-- 44_control.md R161, 10_state.md R41: HALT ends the run, PC stays at it, `irq` is IE, nothing else changes. -/
def Obligations.HaltEndsTheRun : Prop :=
  encode .halt = 0x01000000#32 ∧
  ∀ s : State, ∃ t, exec .halt s = .next t ∧ t.busy = false ∧ t.done = true ∧ t.pc = s.pc ∧ t.flags = s.flags ∧
    t.err = s.err ∧ t.ecode = s.ecode ∧ t.epc = s.epc ∧ t.einsn = s.einsn ∧ regsKeptBut [] s t ∧ dmemKept s t ∧
    hostSideKept s t ∧ irq t = s.ie

/-! ### Data movement -/

/-- 43_move_memory.md R150, R151, R152: MOV, LDI and MOVC write the value, in canonical form; MOVC with k above 5 is illegal at
decode. -/
def Obligations.MovesWriteTheValue : Prop :=
  ∀ (rd rs : RegIx) (imm : Imm16) (k : BitVec 4) (s : State),
    (encode (.mov rd rs) = 0x02#8 ++ rd ++ rs ++ 0#16 ∧
      ∃ t, exec (.mov rd rs) s = .next t ∧ t.val rd = s.val rs ∧ wroteOnly [rd] s t) ∧
    (encode (.ldi rd imm) = 0x03#8 ++ rd ++ 0#4 ++ imm ∧
      ∃ t, exec (.ldi rd imm) s = .next t ∧
        t.val rd = (if imm.toNat < 0x8000 then (imm.toNat : Int) else (imm.toNat : Int) - 0x10000) ∧
        wroteOnly [rd] s t) ∧
    (encode (.movc rd k) = 0x04#8 ++ rd ++ k ++ 0#16 ∧
      (∀ h : k.toNat < 6, ∃ t, exec (.movc rd k) s = .next t ∧ t.val rd = s.curve[k.toNat].value ∧
        wroteOnly [rd] s t) ∧
      (5 < k.toNat → decode (encode (.movc rd k)) = .error .curveIndex))

/-- 43_move_memory.md R153, R154: LD reads the record at A and writes its value; a record past the end of DMEM raises E_ADDR; one
with a word of which no byte was written is a fault of the model (20_memory.md R75). -/
def Obligations.LoadReadsTheRecord : Prop :=
  ∀ (rd : RegIx) (addr : Imm16) (s : State),
    encode (.ld rd addr) = 0x08#8 ++ rd ++ 0#4 ++ addr ∧ recordIndex addr = addr.toNat ∧
    (recordIndex addr + 10 ≤ s.params.dmemWords →
      ∀ ws : Nat → Digit, (∀ k < 10, dmemWord s.dmem (recordIndex addr + k) = some (ws k)) →
        ∃ t, exec (.ld rd addr) s = .next t ∧
          t.val rd = (if (ws 0).getLsbD 0 then -1 else 1) *
            (((List.range 9).map fun i => (ws (1 + i)).toNat * 2 ^ (64 * i)).sum : Nat) ∧
          wroteOnly [rd] s t) ∧
    (recordIndex addr + 10 ≤ s.params.dmemWords →
      (∃ k < 10, ∀ b < 8, readByte s.dmem (8 * (recordIndex addr + k) + b) = none) →
        exec (.ld rd addr) s = .fault .unwrittenDmem) ∧
    (s.params.dmemWords < recordIndex addr + 10 →
      ∃ t, exec (.ld rd addr) s = .next t ∧ tookError .addr (encode (.ld rd addr)) s t)

/-- 43_move_memory.md R155: ST writes header and digits of the record at A and no other byte, and a load at the same A, into any
register, then returns the value; a record past the end of DMEM raises E_ADDR. -/
def Obligations.StoreWritesTheRecord : Prop :=
  ∀ (rs : RegIx) (addr : Imm16) (s : State),
    encode (.st rs addr) = 0x09#8 ++ rs ++ 0#4 ++ addr ∧ recordIndex addr = addr.toNat ∧
    (recordIndex addr + 10 ≤ s.params.dmemWords →
      ∃ t, exec (.st rs addr) s = .next t ∧
        (∃ used : Nat, (1 ≤ used ∧ used ≤ 9) ∧ (s.val rs).natAbs < 2 ^ (64 * used) ∧
          (used = 1 ∨ 2 ^ (64 * (used - 1)) ≤ (s.val rs).natAbs) ∧
          ∃ h, dmemWord t.dmem (recordIndex addr) = some h ∧
            h.toNat = (if s.val rs < 0 then 1 else 0) + 256 * used) ∧
        (∀ i < 9, ∃ d, dmemWord t.dmem (recordIndex addr + 1 + i) = some d ∧
          d.toNat = (s.val rs).natAbs / 2 ^ (64 * i) % 2 ^ 64) ∧
        wroteDmemOnly (8 * recordIndex addr) 80 s t ∧
        ∀ rd : RegIx, ∃ u, exec (.ld rd addr) t = .next u ∧ u.val rd = s.val rs ∧ wroteOnly [rd] t u) ∧
    (s.params.dmemWords < recordIndex addr + 10 →
      ∃ t, exec (.st rs addr) s = .next t ∧ tookError .addr (encode (.st rs addr)) s t)

/-! ### The integer engine -/

/-- 40_bigint.md R100, R101: CMP and CMPM set exactly one flag. -/
def Obligations.ComparesSetOneFlag : Prop :=
  ∀ (rs rt : RegIx) (s : State),
    (encode (.cmp rs rt) = 0x10#8 ++ rs ++ rt ++ 0#16 ∧ ∃ t, exec (.cmp rs rt) s = .next t ∧ wroteFlagsOnly s t ∧
      (s.val rs < s.val rt → t.flags = 0b001#3) ∧ (s.val rs = s.val rt → t.flags = 0b010#3) ∧
      (s.val rt < s.val rs → t.flags = 0b100#3)) ∧
    (encode (.cmpm rs rt) = 0x11#8 ++ rs ++ rt ++ 0#16 ∧ ∃ t, exec (.cmpm rs rt) s = .next t ∧ wroteFlagsOnly s t ∧
      ((s.val rs).natAbs < (s.val rt).natAbs → t.flags = 0b001#3) ∧
      ((s.val rs).natAbs = (s.val rt).natAbs → t.flags = 0b010#3) ∧
      ((s.val rt).natAbs < (s.val rs).natAbs → t.flags = 0b100#3))

/-- 40_bigint.md R102, R103, R104: ADD, SUB and MUL write the exact result, or raise E_OVERFLOW where it does not fit; R104's
field-width products always fit. -/
def Obligations.AddSubMulAreExact : Prop :=
  ∀ (rd rs rt : RegIx) (s : State),
    (encode (.add rd rs rt) = 0x12#8 ++ rd ++ rs ++ rt ++ 0#12 ∧
      ((s.val rs + s.val rt).natAbs ≤ 2 ^ 576 - 1 →
        ∃ t, exec (.add rd rs rt) s = .next t ∧ t.val rd = s.val rs + s.val rt ∧ wroteOnly [rd] s t) ∧
      (2 ^ 576 - 1 < (s.val rs + s.val rt).natAbs →
        ∃ t, exec (.add rd rs rt) s = .next t ∧ tookError .overflow (encode (.add rd rs rt)) s t)) ∧
    (encode (.sub rd rs rt) = 0x13#8 ++ rd ++ rs ++ rt ++ 0#12 ∧
      ((s.val rs - s.val rt).natAbs ≤ 2 ^ 576 - 1 →
        ∃ t, exec (.sub rd rs rt) s = .next t ∧ t.val rd = s.val rs - s.val rt ∧ wroteOnly [rd] s t) ∧
      (2 ^ 576 - 1 < (s.val rs - s.val rt).natAbs →
        ∃ t, exec (.sub rd rs rt) s = .next t ∧ tookError .overflow (encode (.sub rd rs rt)) s t)) ∧
    (encode (.mul rd rs rt) = 0x14#8 ++ rd ++ rs ++ rt ++ 0#12 ∧
      ((s.val rs * s.val rt).natAbs ≤ 2 ^ 576 - 1 →
        ∃ t, exec (.mul rd rs rt) s = .next t ∧ t.val rd = s.val rs * s.val rt ∧ wroteOnly [rd] s t) ∧
      (2 ^ 576 - 1 < (s.val rs * s.val rt).natAbs →
        ∃ t, exec (.mul rd rs rt) s = .next t ∧ tookError .overflow (encode (.mul rd rs rt)) s t) ∧
      ((s.val rs).natAbs < 2 ^ 256 → (s.val rt).natAbs < 2 ^ 256 →
        (s.val rs * s.val rt).natAbs ≤ 2 ^ 576 - 1))

/-- 40_bigint.md R105, R106: DIVREM writes the floor quotient and remainder, MOD the remainder: the remainder is 0 or has the
divisor's sign and a smaller magnitude. A zero divisor raises E_DIVZERO; DIVREM with rq = rr is illegal at decode. -/
def Obligations.DivisionIsFloorDivision : Prop :=
  ∀ (rq rr rd rs rt : RegIx) (s : State),
    (encode (.divrem rq rr rs rt) = 0x15#8 ++ rq ++ rr ++ rs ++ rt ++ 0#8 ∧
      (rq ≠ rr → s.val rt ≠ 0 → ∃ t, exec (.divrem rq rr rs rt) s = .next t ∧
        s.val rs = t.val rq * s.val rt + t.val rr ∧ (t.val rr).natAbs < (s.val rt).natAbs ∧
        (t.val rr = 0 ∨ (t.val rr).sign = (s.val rt).sign) ∧ wroteOnly [rq, rr] s t) ∧
      (rq ≠ rr → s.val rt = 0 → ∃ t, exec (.divrem rq rr rs rt) s = .next t ∧
        tookError .divZero (encode (.divrem rq rr rs rt)) s t) ∧
      (rq = rr → decode (encode (.divrem rq rr rs rt)) = .error .sameDestination)) ∧
    (encode (.mod rd rs rt) = 0x16#8 ++ rd ++ rs ++ rt ++ 0#12 ∧
      (s.val rt ≠ 0 → ∃ t, exec (.mod rd rs rt) s = .next t ∧
        s.val rt ∣ s.val rs - t.val rd ∧ (t.val rd).natAbs < (s.val rt).natAbs ∧
        (t.val rd = 0 ∨ (t.val rd).sign = (s.val rt).sign) ∧ wroteOnly [rd] s t) ∧
      (s.val rt = 0 → ∃ t, exec (.mod rd rs rt) s = .next t ∧
        tookError .divZero (encode (.mod rd rs rt)) s t))

/-- 40_bigint.md R107, R108: BITLEN writes the least k with |v| < 2^k; GETBIT writes bit i of the magnitude, or raises E_OPERAND
for a negative index. -/
def Obligations.BitLengthAndBit : Prop :=
  ∀ (rd rs rt : RegIx) (s : State),
    (encode (.bitlen rd rs) = 0x1C#8 ++ rd ++ rs ++ 0#16 ∧
      ∃ t, exec (.bitlen rd rs) s = .next t ∧ wroteOnly [rd] s t ∧
        ∃ n : Nat, t.val rd = n ∧ n ≤ 576 ∧ (s.val rs).natAbs < 2 ^ n ∧ ∀ k < n, 2 ^ k ≤ (s.val rs).natAbs) ∧
    (encode (.getbit rd rs rt) = 0x1D#8 ++ rd ++ rs ++ rt ++ 0#12 ∧
      (∀ i : Nat, s.val rt = i → ∃ t, exec (.getbit rd rs rt) s = .next t ∧
        t.val rd = ((s.val rs).natAbs / 2 ^ i % 2 : Nat) ∧ wroteOnly [rd] s t) ∧
      (s.val rt < 0 → ∃ t, exec (.getbit rd rs rt) s = .next t ∧
        tookError .operand (encode (.getbit rd rs rt)) s t))

/-! ### Modular arithmetic -/

/-- 41_modular.md R120, R121, R122, R124: the sum, difference and product modulo m, in [0, m); the modulus is checked before the
unreduced result. -/
def Obligations.ModularResultsAreReduced : Prop :=
  ∀ (rd rs rt rm : RegIx) (s : State),
    encode (.modadd rd rs rt rm) = 0x18#8 ++ rd ++ rs ++ rt ++ rm ++ 0#8 ∧
    encode (.modsub rd rs rt rm) = 0x19#8 ++ rd ++ rs ++ rt ++ rm ++ 0#8 ∧
    encode (.modmul rd rs rt rm) = 0x1A#8 ++ rd ++ rs ++ rt ++ rm ++ 0#8 ∧
    ∀ (i : Instr) (v : Int),
      (i = .modadd rd rs rt rm ∧ v = s.val rs + s.val rt ∨ i = .modsub rd rs rt rm ∧ v = s.val rs - s.val rt ∨
        i = .modmul rd rs rt rm ∧ v = s.val rs * s.val rt) →
      (s.val rm = 0 → ∃ t, exec i s = .next t ∧ tookError .divZero (encode i) s t) ∧
      (s.val rm < 0 → ∃ t, exec i s = .next t ∧ tookError .modulus (encode i) s t) ∧
      (0 < s.val rm → 2 ^ 576 - 1 < v.natAbs → ∃ t, exec i s = .next t ∧ tookError .overflow (encode i) s t) ∧
      (0 < s.val rm → v.natAbs ≤ 2 ^ 576 - 1 → ∃ t, exec i s = .next t ∧
        (0 ≤ t.val rd ∧ t.val rd < s.val rm) ∧ s.val rm ∣ v - t.val rd ∧ wroteOnly [rd] s t)

/-- 41_modular.md R123, R124: MODINV writes the one inverse in [0, m), and raises E_NOINV exactly where there is none. -/
def Obligations.ModinvIsTheInverse : Prop :=
  ∀ (rd rs rm : RegIx) (s : State),
    encode (.modinv rd rs rm) = 0x1B#8 ++ rd ++ rs ++ rm ++ 0#12 ∧
    (s.val rm = 0 → ∃ t, exec (.modinv rd rs rm) s = .next t ∧ tookError .divZero (encode (.modinv rd rs rm)) s t) ∧
    (s.val rm < 0 → ∃ t, exec (.modinv rd rs rm) s = .next t ∧ tookError .modulus (encode (.modinv rd rs rm)) s t) ∧
    (0 < s.val rm → Int.gcd (s.val rs) (s.val rm) ≠ 1 →
      ∃ t, exec (.modinv rd rs rm) s = .next t ∧ tookError .noInv (encode (.modinv rd rs rm)) s t) ∧
    (0 < s.val rm → Int.gcd (s.val rs) (s.val rm) = 1 →
      ∃ t, exec (.modinv rd rs rm) s = .next t ∧ wroteOnly [rd] s t ∧
        (0 ≤ t.val rd ∧ t.val rd < s.val rm) ∧ s.val rs * t.val rd % s.val rm = 1 % s.val rm ∧
        ∀ y, 0 ≤ y → y < s.val rm → s.val rs * y % s.val rm = 1 % s.val rm → y = t.val rd)

/-! ### The curve group -/

/-- 42_curve.md R131, R132: PISID and PCMP set EQ where the test holds and GT where it does not; an odd field is illegal at
decode. -/
def Obligations.PointTestsSetEqOrGt : Prop :=
  ∀ (ps pt : RegIx) (s : State),
    (encode (.pisid ps) = 0x20#8 ++ ps ++ 0#20 ∧
      (evenField ps = true → ∃ t, exec (.pisid ps) s = .next t ∧ wroteFlagsOnly s t ∧
        (s.val ps = 0 ∧ s.val (ps + 1) = 0 → t.flags = 0b010#3) ∧
        (¬(s.val ps = 0 ∧ s.val (ps + 1) = 0) → t.flags = 0b100#3)) ∧
      (evenField ps = false → decode (encode (.pisid ps)) = .error .oddPoint)) ∧
    (encode (.pcmp ps pt) = 0x21#8 ++ ps ++ pt ++ 0#16 ∧
      (evenField ps = true → evenField pt = true → ∃ t, exec (.pcmp ps pt) s = .next t ∧ wroteFlagsOnly s t ∧
        (s.val ps = s.val pt ∧ s.val (ps + 1) = s.val (pt + 1) → t.flags = 0b010#3) ∧
        (¬(s.val ps = s.val pt ∧ s.val (ps + 1) = s.val (pt + 1)) → t.flags = 0b100#3)) ∧
      (evenField ps = false ∨ evenField pt = false → decode (encode (.pcmp ps pt)) = .error .oddPoint))

/-- 42_curve.md R133: the point-unit check of PADD, PDBL and PMUL, before any identity shortcut. -/
def Obligations.PointUnitChecksItsOperands : Prop :=
  ∀ (pd ps pt rk : RegIx) (s : State) (i : Instr) (qs : List Point),
    (i = .padd pd ps pt ∧ qs = [s.point ps, s.point pt] ∨ i = .pdbl pd ps ∧ qs = [s.point ps] ∨
      i = .pmul pd rk ps ∧ qs = [s.point ps]) → i.wf = true →
    (s.curve[0].value = 0 → ∃ t, exec i s = .next t ∧ tookError .noCurve (encode i) s t) ∧
    (s.curve[0].value < 0 → ∃ t, exec i s = .next t ∧ tookError .modulus (encode i) s t) ∧
    (0 < s.curve[0].value → (∃ q ∈ qs, ¬pointOk s.curve[0].value q) →
      ∃ t, exec i s = .next t ∧ tookError .operand (encode i) s t) ∧
    (0 < s.curve[0].value → (∀ q ∈ qs, pointOk s.curve[0].value q) →
      ∃ t, exec i s = .next t ∧ (tookError .noInv (encode i) s t ∨ wroteOnly [pd, pd + 1] s t))

/-- 42_curve.md R135: PDBL writes the double of P, or raises E_NOINV where 2y has no inverse. -/
def Obligations.PdblDoublesThePoint : Prop :=
  ∀ (pd ps : RegIx) (s : State),
    encode (.pdbl pd ps) = 0x23#8 ++ pd ++ ps ++ 0#16 ∧
    ((Instr.pdbl pd ps).wf = true → 0 < s.curve[0].value → pointOk s.curve[0].value (s.point ps) →
      (canDouble s.curve[0].value (s.point ps) → ∃ t, exec (.pdbl pd ps) s = .next t ∧
        DoublesTo s.curve[0].value s.curve[1].value (s.point ps) (t.point pd) ∧ wroteOnly [pd, pd + 1] s t) ∧
      (¬canDouble s.curve[0].value (s.point ps) → ∃ t, exec (.pdbl pd ps) s = .next t ∧
        tookError .noInv (encode (.pdbl pd ps)) s t))

/-- 42_curve.md R134: PADD writes the sum of P and Q, or raises E_NOINV where a needed inverse does not exist. -/
def Obligations.PaddAddsThePoints : Prop :=
  ∀ (pd ps pt : RegIx) (s : State),
    encode (.padd pd ps pt) = 0x22#8 ++ pd ++ ps ++ pt ++ 0#12 ∧
    ((Instr.padd pd ps pt).wf = true → 0 < s.curve[0].value → pointOk s.curve[0].value (s.point ps) →
      pointOk s.curve[0].value (s.point pt) →
      (canAdd s.curve[0].value (s.point ps) (s.point pt) → ∃ t, exec (.padd pd ps pt) s = .next t ∧
        AddsTo s.curve[0].value s.curve[1].value (s.point ps) (s.point pt) (t.point pd) ∧
        wroteOnly [pd, pd + 1] s t) ∧
      (¬canAdd s.curve[0].value (s.point ps) (s.point pt) → ∃ t, exec (.padd pd ps pt) s = .next t ∧
        tookError .noInv (encode (.padd pd ps pt)) s t))

/-- 42_curve.md R136: PMUL writes |k| times P by double-and-add from the most significant bit, and raises E_NOINV exactly where
a step of it has no inverse. -/
def Obligations.PmulIsDoubleAndAdd : Prop :=
  ∀ (pd rk ps : RegIx) (s : State),
    encode (.pmul pd rk ps) = 0x24#8 ++ pd ++ rk ++ ps ++ 0#12 ∧
    ((Instr.pmul pd rk ps).wf = true → 0 < s.curve[0].value → pointOk s.curve[0].value (s.point ps) →
      (∀ r, MulsTo s.curve[0].value s.curve[1].value (s.point ps) (s.val rk).natAbs r →
        ∃ t, exec (.pmul pd rk ps) s = .next t ∧ t.point pd = r ∧ wroteOnly [pd, pd + 1] s t) ∧
      ((¬∃ r, MulsTo s.curve[0].value s.curve[1].value (s.point ps) (s.val rk).natAbs r) →
        ∃ t, exec (.pmul pd rk ps) s = .next t ∧ tookError .noInv (encode (.pmul pd rk ps)) s t))

/-- 42_curve.md R134, R135: over an odd prime p no inverse fails, so the point instructions complete on every operand the unit
accepts, and the result is again one it accepts. -/
def Obligations.PointUnitCompletesOverOddPrimes : Prop :=
  ∀ (pd ps pt rk : RegIx) (s : State) (p : Nat) (i : Instr), p.Prime → p ≠ 2 → s.curve[0].value = p → i.wf = true →
    pointOk p (s.point ps) →
    (i = .padd pd ps pt ∧ pointOk p (s.point pt) ∨ i = .pdbl pd ps ∨ i = .pmul pd rk ps) →
    ∃ t, exec i s = .next t ∧ wroteOnly [pd, pd + 1] s t ∧ pointOk p (t.point pd)

/-- 42_curve.md R138, its last paragraph: the point adder is commutative on every pair of in-range operands, off the curve too;
one order has an inverse exactly where the other has. -/
def Obligations.PointAdditionCommutes : Prop :=
  ∀ (p a : Int) (q r : Point), 0 < p → pointOk p q → pointOk p r → ecadd p a q r = ecadd p a r q

/-! ### Registers in their stored form -/

/-- 10_state.md R25: the canonical write of an integer that fits; no instruction writes a negative zero. -/
def Obligations.CanonicalWrite : Prop :=
  (∀ (i : Instr) (s t : State) (r : RegIx), exec i s = .next t → t.bigReg r = s.bigReg r ∨ (t.bigReg r).canonical) ∧
  ∀ (s : State) (r : RegIx) (v : Int), v.natAbs ≤ 2 ^ 576 - 1 →
    ((s.setReg r v).bigReg r).sign = decide (v < 0) ∧
    (∀ j, (h : j < 9) → ((s.setReg r v).bigReg r).dig[j].toNat = v.natAbs / 2 ^ (64 * j) % 2 ^ 64) ∧
    ((s.setReg r v).bigReg r).canonical ∧
    (∀ j, (h : j < 9) → ((s.setReg r v).bigReg r).used ≤ j → ((s.setReg r v).bigReg r).dig[j] = 0) ∧
    (s.setReg r v).val r = v ∧ ∀ q, q ≠ r → (s.setReg r v).bigReg q = s.bigReg q

/-- 10_state.md R22, R23, R24, R26: a register's magnitude is the sum of its digits' weights and never above MAXMAG, its value
has the stored sign, a stored negative zero is 0, and `used` is 1 or the index above the highest non-zero digit. -/
def Obligations.StoredFormReads : Prop :=
  ∀ b : BigReg,
    b.mag = ((List.range 9).map fun i => (b.dig[i]?.getD 0).toNat * 2 ^ (64 * i)).sum ∧ b.mag ≤ 2 ^ 576 - 1 ∧
    b.value = (if b.sign then -(b.mag : Int) else (b.mag : Int)) ∧
    (b.mag = 0 → b.value = 0 ∧ b.used = 1) ∧
    (b.mag ≠ 0 → (1 ≤ b.used ∧ b.used ≤ 9) ∧ b.dig[b.used - 1]?.getD 0 ≠ 0 ∧
      ∀ j, (h : j < 9) → b.used ≤ j → b.dig[j] = 0)

/-! ### The whole machine -/

/-- 60_exceptions.md R170 to R174: an engine step that ends in an error has no effect but the record, which holds the PC and the
word fetched (0 where the fetch itself failed); the engine has stopped, and `irq` tells the host where IE is set. That a
stopped engine's next step is a next state with nothing changed is the model's choice (log 13). -/
def Obligations.ErrorsArePrecise : Prop :=
  ∀ s t : State, s.running → s.err = false → step s = .next t → t.err = true →
    ∃ (e : EngineError) (w : InsnWord), tookError e w s t ∧
      (s.params.imemWords ≤ s.pc.toNat → e = .fetch ∧ w = 0) ∧
      (s.pc.toNat < s.params.imemWords → e ≠ .fetch ∧ imemWord s.imem s.pc.toNat = some w) ∧
      step t = .next t ∧ irq t = t.ie

/-- 44_control.md R165, R161: a run ends by a HALT, by an engine error or by a reset, and DONE and ERR say by which; PC is left at
the HALT or at the error. -/
def Obligations.RunEndsForOneOfThreeReasons : Prop :=
  ∀ s t : State, s.recordOk → s.busy = true → step s = .next t → t.busy = false →
    (t.done = true ∧ t.err = false ∧ t.pc = s.pc ∧ imemWord s.imem s.pc.toNat = some (encode .halt)) ∨
    (t.done = false ∧ t.err = true ∧ t.pc = s.pc ∧ t.ecode ≠ 0) ∨
    (t.done = false ∧ t.err = false ∧
      ((∃ rest, s.ports = .resetAssert :: rest) ∨
        ∃ width data rest, data.getLsbD 3 = true ∧ s.ports = .write width (s.hostAddr 0x00010) data :: rest))

/-- 60_exceptions.md R170, 20_memory.md R75: every instruction has a next state in every state, but for an LD of an existing
record with an unwritten byte. -/
def Obligations.OnlyUnwrittenLoadsFault : Prop :=
  ∀ (i : Instr) (s : State),
    (∃ t, exec i s = .next t) ∨
    (exec i s = .fault .unwrittenDmem ∧ ∃ rd addr, i = .ld rd addr ∧ recordIndex addr + 10 ≤ s.params.dmemWords ∧
      ∃ k < 80, readByte s.dmem (8 * recordIndex addr + k) = none)

/-- 10_state.md R28, R43, R62: no instruction writes the curve bank, IMEM, CTRL, HOSTERR, START_PC or the ports. -/
def Obligations.InstructionsKeepTheHostSide : Prop :=
  ∀ (i : Instr) (s t : State), exec i s = .next t → hostSideKept s t

/-- 10_state.md R31: a legal CMP, CMPM, PISID or PCMP leaves exactly one flag set; every other instruction, and an illegal form of
these, leaves FLAGS as it was. -/
def Obligations.OnlyComparesWriteFlags : Prop :=
  ∀ (i : Instr) (s t : State), exec i s = .next t →
    (writesFlags i → i.wf = true → t.flags = 0b001#3 ∨ t.flags = 0b010#3 ∨ t.flags = 0b100#3) ∧
    (¬(writesFlags i ∧ i.wf = true) → t.flags = s.flags)

/-- 30_encoding.md R84 at the level of exec, the model's choice (log 8): an instruction that breaks an operand constraint takes
E_ILLEGAL with its own word, as the step does for that word. -/
def Obligations.IllFormedInstructionsRaiseIllegal : Prop :=
  ∀ (i : Instr) (s : State), i.wf = false → ∃ t, exec i s = .next t ∧ tookError .illegal (encode i) s t

/-- 10_state.md R29, R33, R37: the engine works the same whatever IE, CURVE_LOCK, HOSTERR and START_PC hold, and whatever is
waiting at the ports. -/
def Obligations.EngineIgnoresHostControl : Prop :=
  ∀ (i : Instr) (s t : State) (ie lock he : Bool) (start : PcWord) (ports : List PortEvent),
    exec i s = .next t →
    exec i { s with ie := ie, curveLock := lock, hosterr := he, startPc := start, ports := ports } =
      .next { t with ie := ie, curveLock := lock, hosterr := he, startPc := start, ports := ports }

/-- The invariant holds after reset. -/
def Obligations.InvHoldsAtReset : Prop := State.reset.Inv

/-- 10_state.md R31, R36, R38, R43: every step keeps the invariant: DONE and ERR are never both 1, BUSY implies neither and ECODE 0,
ERR implies EPC = PC, ECODE is a code of R171, FLAGS has at most one bit, both RAMs are in canonical form and inside their
sizes. -/
def Obligations.StepKeepsInv : Prop := ∀ s t : State, s.Inv → step s = .next t → t.Inv

/-- 70_reset_and_hazards.md R200: rst_n going to 0 gives every element its reset value, and a block held in reset keeps them,
whatever the host does, until rst_n goes back to 1: then the block is idle with that state. The level of rst_n and its two
events are the model's (log 3, 16). -/
def Obligations.ResetHoldsUntilReleased : Prop :=
  (∀ (s : State) (rest : List PortEvent), s.ports = .resetAssert :: rest → ∃ t, step s = .next t ∧ t.heldInReset) ∧
  (∀ s t : State, s.heldInReset → step s = .next t →
    t.heldInReset ∨
      ∃ rest, s.ports = .resetRelease :: rest ∧ t =
        { State.reset with params := s.params, ports := rest, response := s.response, freeCount := s.freeCount })

/-! ### Reset -/

/-- 10_state.md R45: the value of every piece of state after a hardware reset, at any time, and after a soft reset, which keeps
the contents of IMEM and DMEM. -/
def Obligations.ResetValues : Prop :=
  State.reset.hasResetValues ∧ (∀ a, readByte State.reset.imem a = none ∧ readByte State.reset.dmem a = none) ∧
  (∀ (s : State) (rest : List PortEvent), s.ports = .resetAssert :: rest →
    ∃ t, step s = .next t ∧ t.hasResetValues ∧ ∀ a, readByte t.imem a = none ∧ readByte t.dmem a = none) ∧
  (∀ (s : State) (rest : List PortEvent) (width : Nat) (data : BitVec 64), s.rstN = true → (width = 32 ∨ width = 64) →
    s.ports = .write width (s.hostAddr 0x00010) data :: rest → data.getLsbD 3 = true →
    ∃ t, step s = .next t ∧ t.hasResetValues ∧ t.imem = s.imem ∧ t.dmem = s.dmem)

/-- 70_reset_and_hazards.md R202: a write of CTRL.SRST = 1, at any time, gives every element but IMEM and DMEM its reset value,
and the rest of the write is ignored. -/
def Obligations.SoftResetKeepsTheRams : Prop :=
  ∀ (s : State) (rest : List PortEvent) (width : Nat) (data : BitVec 64), s.rstN = true → (width = 32 ∨ width = 64) →
    s.ports = .write width (s.hostAddr 0x00010) data :: rest → data.getLsbD 3 = true →
    step s = .next
      { State.reset with
        params := s.params, imem := s.imem, dmem := s.dmem, ports := rest, response := some .done,
        freeCount := s.freeCount }

/-! ### The host window -/

/-- 10_state.md R42, R33: a write of CTRL.START = 1 (and SRST = 0) starts a run of an idle engine, its IE and CURVE_LOCK bits acting
first; while running it is ignored and sets HOSTERR (what its other bits then do is log 9, and not said here). -/
def Obligations.StartBeginsARun : Prop :=
  ∀ (s : State) (rest : List PortEvent) (width : Nat) (data : BitVec 64), s.rstN = true → (width = 32 ∨ width = 64) →
    s.ports = .write width (s.hostAddr 0x00010) data :: rest → data.getLsbD 0 = true → data.getLsbD 3 = false →
    ∃ t, step s = .next t ∧ t.regs = s.regs ∧ t.curve = s.curve ∧ t.dmem = s.dmem ∧ t.imem = s.imem ∧
      t.startPc = s.startPc ∧
      (s.busy = false → t.pc = s.startPc ∧ t.flags = 0b000#3 ∧ t.done = false ∧ t.err = false ∧ t.ecode = 0 ∧
        t.epc = 0 ∧ t.einsn = 0 ∧ t.busy = true ∧ t.hosterr = s.hosterr ∧ t.ie = data.getLsbD 1 ∧
        t.curveLock = (s.curveLock || data.getLsbD 2)) ∧
      (s.busy = true → t.pc = s.pc ∧ t.flags = s.flags ∧ t.done = s.done ∧ t.err = s.err ∧ t.ecode = s.ecode ∧
        t.epc = s.epc ∧ t.einsn = s.einsn ∧ t.busy = true ∧ t.hosterr = true)

/-- 20_memory.md R59, its refusals of writes to storage and START_PC: while the engine runs they change nothing and set HOSTERR.
That the upper half of START_PC (log 14) and the reserved words of a slot (log 15) are refused too, and that a refused write
completes without a bus error (log 2), is the model's reading. -/
def Obligations.BusyWritesAreRefused : Prop :=
  ∀ (s : State) (rest : List PortEvent) (width : Nat) (o : Offset) (data : BitVec 64), s.rstN = true → s.busy = true →
    s.ports = .write width (s.hostAddr o) data :: rest → isBusError s.params width o = false →
    ((0x00020 ≤ o.toNat ∧ o.toNat < 0x00028) ∨ (0x01000 ≤ o.toNat ∧ o.toNat < 0x01800) ∨
      (0x02000 ≤ o.toNat ∧ o.toNat < 0x02300) ∨ 0x40000 ≤ o.toNat) →
    step s = .next { s with ports := rest, hosterr := true, response := some .done }

/-- 10_state.md R29: a set CURVE_LOCK stays set and the curve bank does not change, but for a reset or a soft reset. -/
def Obligations.LockedCurveBankIsImmutable : Prop :=
  ∀ s t : State, s.curveLock = true → step s = .next t →
    (∀ rest, s.ports ≠ .resetAssert :: rest) →
    (∀ width data rest, data.getLsbD 3 = true → s.ports ≠ .write width (s.hostAddr 0x00010) data :: rest) →
    t.curve = s.curve ∧ t.curveLock = true

/-- 20_memory.md R60, R55, R56: a write of SIGN or a digit of a locked curve slot is ignored and sets HOSTERR, busy or idle;
unlocked and idle a write is performed as in R55, whole or by halves, words 10 to 15 ignoring it. The offset is that of word `w` (0 the
header) of slot `k`. The model's own: an ignored write completes without a bus error (log 2), and while locked and idle the
upper half of the header and words 10 to 15 ignore a write without HOSTERR (log 10). -/
def Obligations.CurveSlotWrites : Prop :=
  ∀ (s : State) (rest : List PortEvent) (o : Offset) (k : Fin 6) (w : Nat) (data : BitVec 64), s.rstN = true → w < 16 →
    o.toNat = 0x02000 + 0x80 * k.val + 8 * w →
    (s.curveLock = true → w ≤ 9 →
      (s.ports = .write 64 (s.hostAddr o) data :: rest ∨ s.ports = .write 32 (s.hostAddr o) data :: rest ∨
        (w ≠ 0 ∧ s.ports = .write 32 (s.hostAddr (o + 4)) data :: rest)) →
      step s = .next { s with ports := rest, hosterr := true, response := some .done }) ∧
    (s.curveLock = true → s.busy = false →
      ((9 < w ∧ (s.ports = .write 64 (s.hostAddr o) data :: rest ∨ s.ports = .write 32 (s.hostAddr o) data :: rest)) ∨
        ((w = 0 ∨ 9 < w) ∧ s.ports = .write 32 (s.hostAddr (o + 4)) data :: rest)) →
      step s = .next { s with ports := rest, response := some .done }) ∧
    (s.curveLock = false → s.busy = false →
      (s.ports = .write 64 (s.hostAddr o) data :: rest → ∃ b, step s = .next
          { s with curve := s.curve.set k b, ports := rest, response := some .done } ∧
        b.sign = (if w = 0 then data.getLsbD 0 else s.curve[k].sign) ∧
        ∀ j, (h : j < 9) → b.dig[j] = if j + 1 = w then data else s.curve[k].dig[j]) ∧
      (s.ports = .write 32 (s.hostAddr o) data :: rest → ∃ b, step s = .next
          { s with curve := s.curve.set k b, ports := rest, response := some .done } ∧
        b.sign = (if w = 0 then data.getLsbD 0 else s.curve[k].sign) ∧
        ∀ j, (h : j < 9) → b.dig[j] =
          if j + 1 = w then s.curve[k].dig[j].extractLsb' 32 32 ++ data.extractLsb' 0 32 else s.curve[k].dig[j]) ∧
      (s.ports = .write 32 (s.hostAddr (o + 4)) data :: rest → ∃ b, step s = .next
          { s with curve := s.curve.set k b, ports := rest, response := some .done } ∧
        b.sign = s.curve[k].sign ∧
        ∀ j, (h : j < 9) → b.dig[j] =
          if j + 1 = w then data.extractLsb' 0 32 ++ s.curve[k].dig[j].extractLsb' 0 32 else s.curve[k].dig[j]))

/-- 20_memory.md R54: the accesses it lists complete with a bus error and change no state, HOSTERR included; how the host sees it is
HOST_BUS's. -/
def Obligations.BusErrorsChangeNothing : Prop :=
  ∀ (s : State) (rest : List PortEvent) (width : Nat) (o : Offset) (data : BitVec 64), s.rstN = true →
    badAccess s.params width o →
    (s.ports = .read width (s.hostAddr o) :: rest → step s = .next
      { s with ports := rest, response := some (.busError s.params.hostBus.readError) }) ∧
    (s.ports = .write width (s.hostAddr o) data :: rest → step s = .next
      { s with ports := rest, response := some (.busError s.params.hostBus.writeError) })

/-- 20_memory.md R51, 70_reset_and_hazards.md R200: the window is the 1 MiB from BASE up. An access outside it is not the block's and
does nothing to it (log 2); while rst_n = 0 an access inside it is not accepted, and the bus responds as HOST_BUS has it. -/
def Obligations.AccessesTheBlockDoesNotTake : Prop :=
  ∀ (s : State) (rest : List PortEvent) (width address : Nat) (data : BitVec 64),
    (s.ports = .read width address :: rest ∨ s.ports = .write width address data :: rest) →
    (address < s.params.base ∨ s.params.base + 0x100000 ≤ address → step s = .next { s with ports := rest }) ∧
    (s.params.base ≤ address → address < s.params.base + 0x100000 → s.rstN = false → step s = .next
      { s with ports := rest, response := some (.platform s.params.hostBus.inReset) })

/-- 20_memory.md R61, R66: a host read, anywhere and at any time, changes no state of the block. -/
def Obligations.HostReadsChangeNothing : Prop :=
  ∀ (s : State) (rest : List PortEvent) (width address : Nat), s.ports = .read width address :: rest →
    ∃ r n, step s = .next { s with ports := rest, response := r, freeCount := n }

/-- 20_memory.md R53, R55, R56: while idle, a digit of a register slot is written verbatim, whole or by halves, the header writes
SIGN, words 10 to 15 ignore writes; nothing else changes. The offset is that of word `w` of slot `r`. -/
def Obligations.RegisterSlotWrites : Prop :=
  ∀ (s : State) (rest : List PortEvent) (o : Offset) (r : RegIx) (w : Nat) (data : BitVec 64), s.rstN = true →
    s.busy = false → w < 16 → o.toNat = 0x01000 + 0x80 * r.toNat + 8 * w →
    (s.ports = .write 64 (s.hostAddr o) data :: rest → ∃ b, step s = .next
        { s.setBigReg r b with ports := rest, response := some .done } ∧
      b.sign = (if w = 0 then data.getLsbD 0 else (s.bigReg r).sign) ∧
      ∀ j, (h : j < 9) → b.dig[j] = if j + 1 = w then data else (s.bigReg r).dig[j]) ∧
    (s.ports = .write 32 (s.hostAddr o) data :: rest → ∃ b, step s = .next
        { s.setBigReg r b with ports := rest, response := some .done } ∧
      b.sign = (if w = 0 then data.getLsbD 0 else (s.bigReg r).sign) ∧
      ∀ j, (h : j < 9) → b.dig[j] =
        if j + 1 = w then (s.bigReg r).dig[j].extractLsb' 32 32 ++ data.extractLsb' 0 32 else (s.bigReg r).dig[j]) ∧
    (s.ports = .write 32 (s.hostAddr (o + 4)) data :: rest → ∃ b, step s = .next
        { s.setBigReg r b with ports := rest, response := some .done } ∧
      b.sign = (s.bigReg r).sign ∧
      ∀ j, (h : j < 9) → b.dig[j] =
        if j + 1 = w then data.extractLsb' 0 32 ++ (s.bigReg r).dig[j].extractLsb' 0 32 else (s.bigReg r).dig[j])

/-- 20_memory.md R53, R55, R56: while idle, a 64-bit read of the slot of R0..R15 or C0..C5 returns the header, with SIGN as stored and
`used`, or the digit, or 0 in words 10 to 15; a 32-bit read returns its half. `b` is the register, and the offset that of word
`w` of its slot. -/
def Obligations.RegisterSlotReads : Prop :=
  ∀ (s : State) (rest : List PortEvent) (o : Offset) (b : BigReg) (w : Nat), s.rstN = true → s.busy = false → w < 16 →
    ((∃ r : RegIx, b = s.bigReg r ∧ o.toNat = 0x01000 + 0x80 * r.toNat + 8 * w) ∨
      ∃ k : Fin 6, b = s.curve[k] ∧ o.toNat = 0x02000 + 0x80 * k.val + 8 * w) →
    ∃ x : BitVec 64,
      (w = 0 → x.getLsbD 0 = b.sign ∧ x.toNat / 256 = b.used ∧ x.toNat % 256 ≤ 1) ∧
      (∀ j, (h : j < 9) → w = j + 1 → x = b.dig[j]) ∧ (10 ≤ w → x = 0) ∧
      (s.ports = .read 64 (s.hostAddr o) :: rest → step s = .next { s with ports := rest, response := some (.data 64 x) }) ∧
      (s.ports = .read 32 (s.hostAddr o) :: rest → step s = .next
        { s with ports := rest, response := some (.data 32 ((x.extractLsb' 0 32).setWidth 64)) }) ∧
      (s.ports = .read 32 (s.hostAddr (o + 4)) :: rest → step s = .next
        { s with ports := rest, response := some (.data 32 ((x.extractLsb' 32 32).setWidth 64)) })

/-- 20_memory.md R57: the IMEM window while idle. A 32-bit access reads or writes word i; a 64-bit access covers words 2j and
2j+1, and is a bus error where the second does not exist. -/
def Obligations.ImemWindow : Prop :=
  ∀ (s : State) (rest : List PortEvent) (o : Offset) (n : Nat) (data : BitVec 64), s.rstN = true → s.busy = false →
    s.params.wf → o.toNat = 0x40000 + 4 * n → n < s.params.imemWords →
    (s.ports = .write 32 (s.hostAddr o) data :: rest →
      ∃ m, step s = .next { s with ports := rest, imem := m, response := some .done } ∧
      imemWord m n = some (data.extractLsb' 0 32) ∧ ∀ a, a < 4 * n ∨ 4 * n + 4 ≤ a → readByte m a = readByte s.imem a) ∧
    (∀ x, s.ports = .read 32 (s.hostAddr o) :: rest → imemWord s.imem n = some x →
      step s = .next { s with ports := rest, response := some (.data 32 (x.setWidth 64)) }) ∧
    (n % 2 = 0 → n + 1 < s.params.imemWords → s.ports = .write 64 (s.hostAddr o) data :: rest →
      ∃ m, step s = .next { s with ports := rest, imem := m, response := some .done } ∧
        imemWord m n = some (data.extractLsb' 0 32) ∧ imemWord m (n + 1) = some (data.extractLsb' 32 32) ∧
        ∀ a, a < 4 * n ∨ 4 * n + 8 ≤ a → readByte m a = readByte s.imem a) ∧
    (∀ x y, n % 2 = 0 → n + 1 < s.params.imemWords → s.ports = .read 64 (s.hostAddr o) :: rest →
      imemWord s.imem n = some x → imemWord s.imem (n + 1) = some y →
      step s = .next { s with ports := rest, response := some (.data 64 (y ++ x)) }) ∧
    (n % 2 = 0 → s.params.imemWords ≤ n + 1 →
      (s.ports = .read 64 (s.hostAddr o) :: rest → step s = .next
        { s with ports := rest, response := some (.busError s.params.hostBus.readError) }) ∧
      (s.ports = .write 64 (s.hostAddr o) data :: rest → step s = .next
        { s with ports := rest, response := some (.busError s.params.hostBus.writeError) }))

/-- 20_memory.md R58: the DMEM window while idle. A 64-bit access reads or writes word j; a 32-bit access one half of it, and a
32-bit write changes only the four bytes of its half, written or not. -/
def Obligations.DmemWindow : Prop :=
  ∀ (s : State) (rest : List PortEvent) (o : Offset) (n : Nat) (data : BitVec 64), s.rstN = true → s.busy = false →
    o.toNat = 0x80000 + 8 * n → n < s.params.dmemWords →
    (s.ports = .write 64 (s.hostAddr o) data :: rest →
      ∃ m, step s = .next { s with ports := rest, dmem := m, response := some .done } ∧
      dmemWord m n = some data ∧ ∀ a, a < 8 * n ∨ 8 * n + 8 ≤ a → readByte m a = readByte s.dmem a) ∧
    (s.ports = .write 32 (s.hostAddr o) data :: rest →
      ∃ m, step s = .next { s with ports := rest, dmem := m, response := some .done } ∧
      (∀ b < 4, readByte m (8 * n + b) = some (data.extractLsb' (8 * b) 8)) ∧
      ∀ a, a < 8 * n ∨ 8 * n + 4 ≤ a → readByte m a = readByte s.dmem a) ∧
    (s.ports = .write 32 (s.hostAddr (o + 4)) data :: rest →
      ∃ m, step s = .next { s with ports := rest, dmem := m, response := some .done } ∧
      (∀ b < 4, readByte m (8 * n + 4 + b) = some (data.extractLsb' (8 * b) 8)) ∧
      ∀ a, a < 8 * n + 4 ∨ 8 * n + 8 ≤ a → readByte m a = readByte s.dmem a) ∧
    (∀ x, dmemWord s.dmem n = some x →
      (s.ports = .read 64 (s.hostAddr o) :: rest → step s = .next { s with ports := rest, response := some (.data 64 x) }) ∧
      (s.ports = .read 32 (s.hostAddr o) :: rest → step s = .next
        { s with ports := rest, response := some (.data 32 ((x.extractLsb' 0 32).setWidth 64)) }) ∧
      (s.ports = .read 32 (s.hostAddr (o + 4)) :: rest → step s = .next
        { s with ports := rest, response := some (.data 32 ((x.extractLsb' 32 32).setWidth 64)) }))

/-- 10_state.md R36: a write of STATUS clears DONE, ERR and HOSTERR where 1 is written and changes nothing else. -/
def Obligations.StatusWriteOneToClear : Prop :=
  ∀ (s : State) (rest : List PortEvent) (width : Nat) (data : BitVec 64), s.rstN = true → (width = 32 ∨ width = 64) →
    s.ports = .write width (s.hostAddr 0x00018) data :: rest →
    step s = .next
      { s with
        ports := rest, response := some .done, done := s.done && !data.getLsbD 1, err := s.err && !data.getLsbD 2,
        hosterr := s.hosterr && !data.getLsbD 3 }

/-- 10_state.md R34, R35, R36: what the host reads at ID, CONFIG (for parameters in their legal ranges) and STATUS, by fields. -/
def Obligations.StatusWordsRead : Prop :=
  ∀ (s : State) (rest : List PortEvent), s.rstN = true → s.params.wf →
    (s.ports = .read 64 (s.hostAddr 0x00000) :: rest → step s = .next
      { s with ports := rest, response := some (.data 64 0x0045524F43324D53) }) ∧
    (s.ports = .read 64 (s.hostAddr 0x00008) :: rest → ∃ x : BitVec 64,
      step s = .next { s with ports := rest, response := some (.data 64 x) } ∧ x.toNat % 2 ^ 8 = 9 ∧
      x.toNat / 2 ^ 8 % 2 ^ 8 = 4 ∧ x.toNat / 2 ^ 16 % 2 ^ 8 = 16 ∧ x.toNat / 2 ^ 24 % 2 ^ 8 = 6 ∧
      x.toNat / 2 ^ 32 % 2 ^ 16 = s.params.imemWords - 1 ∧ x.toNat / 2 ^ 48 = s.params.dmemWords - 1) ∧
    (s.ports = .read 64 (s.hostAddr 0x00018) :: rest → ∃ x : BitVec 64,
      step s = .next { s with ports := rest, response := some (.data 64 x) } ∧ x.getLsbD 0 = s.busy ∧
      x.getLsbD 1 = s.done ∧ x.getLsbD 2 = s.err ∧ x.getLsbD 3 = s.hosterr ∧ x.toNat / 2 ^ 4 % 2 ^ 4 = 0 ∧
      x.extractLsb' 8 4 = s.ecode ∧ x.toNat / 2 ^ 12 % 2 ^ 4 = 0 ∧ x.extractLsb' 16 3 = s.flags ∧
      x.toNat / 2 ^ 19 = 0)

/-- 10_state.md R32, R33, R37: a write of CTRL without START and SRST sets IE and can only set CURVE_LOCK, at any time; a write of
START_PC while idle stores 16 bits; a write to a read-only register is ignored, and that it completes without a bus error is the
model's choice (log 2). -/
def Obligations.ControlRegisterWrites : Prop :=
  ∀ (s : State) (rest : List PortEvent) (width : Nat) (o : Offset) (data : BitVec 64), s.rstN = true →
    (width = 32 ∨ width = 64) → s.ports = .write width (s.hostAddr o) data :: rest →
    (o = 0x00010 → data.getLsbD 0 = false → data.getLsbD 3 = false → step s = .next
      { s with
        ports := rest, response := some .done, ie := data.getLsbD 1, curveLock := s.curveLock || data.getLsbD 2 }) ∧
    (o = 0x00020 → s.busy = false → step s = .next
      { s with ports := rest, response := some .done, startPc := data.extractLsb' 0 16 }) ∧
    (o ∈ [0x00000, 0x00008, 0x00028, 0x00030, 0x00038] → step s = .next
      { s with ports := rest, response := some .done })

/-- 10_state.md R33, R37, R38, R39, R40: what the host reads at CTRL, START_PC, EPC and EINSN, at any time, and at PC while idle. -/
def Obligations.ControlRegisterReads : Prop :=
  ∀ (s : State) (rest : List PortEvent) (width : Nat) (o : Offset), s.rstN = true → (width = 32 ∨ width = 64) →
    s.ports = .read width (s.hostAddr o) :: rest → o ∈ [0x00010, 0x00020, 0x00028, 0x00030, 0x00038] →
    (o = 0x00028 → s.busy = false) →
    ∃ x : BitVec 64, step s = .next { s with ports := rest, response := some (.data width x) } ∧
      (o = 0x00010 → ∀ j, x.getLsbD j = (j == 1 && s.ie || j == 2 && s.curveLock)) ∧
      (o = 0x00020 → x.toNat = s.startPc.toNat) ∧ (o = 0x00028 → x.toNat = s.pc.toNat) ∧
      (o = 0x00030 → x.toNat = s.epc.toNat) ∧ (o = 0x00038 → x.toNat = s.einsn.toNat)

/-- 10_state.md R41: `irq` is CTRL.IE AND (STATUS.DONE OR STATUS.ERR) in every state, so HOSTERR does not drive it, and it is 0 after
reset. -/
def Obligations.InterruptOutput : Prop :=
  (∀ s : State, irq s = (s.ie && (s.done || s.err))) ∧ (∀ (s : State) (he : Bool), irq { s with hosterr := he } = irq s) ∧
    irq State.reset = false
end

