-- ==== Sys2Proof/Laws/Arith.lean ====
section
/-! SUPPORT. What the integer functions give: the bit length, a bit, the floor remainder, and the extended Euclidean algorithm,
which answers the inverse exactly where there is one. -/

namespace Sys2Proof.Laws

open Sys2Proof Sys2Proof.Machine

/-- The bit length is at most k exactly where the number is below 2^k: it is the least such k. -/
theorem bitlenOf_le {m k : Nat} : bitlenOf m ≤ k ↔ m < 2 ^ k := by
  unfold bitlenOf
  split
  · next h => simp [h]
  · next h => rw [← Nat.log2_lt h]; omega

theorem lt_two_pow_bitlenOf (m : Nat) : m < 2 ^ bitlenOf m := bitlenOf_le.1 le_rfl

/-- A bit is `floor(m / 2^i) mod 2`. -/
theorem bitOf_eq (m i : Nat) : bitOf m i = m / 2 ^ i % 2 := by
  unfold bitOf
  rw [Nat.testBit_eq_decide_div_mod_eq]
  have := Nat.mod_lt (m / 2 ^ i) (by omega : 0 < 2)
  simp only [decide_eq_true_eq]
  split <;> omega

/-- The floor remainder by a positive modulus lies in [0, m). -/
theorem fmod_range {m : Int} (a : Int) (h : 0 < m) : 0 ≤ Int.fmod a m ∧ Int.fmod a m < m :=
  ⟨Int.fmod_nonneg_of_pos a h, Int.fmod_lt_of_pos a h⟩

/-- For a positive modulus the floor remainder is Lean's `%`. -/
theorem fmod_eq_emod {m : Int} (a : Int) (h : 0 < m) : Int.fmod a m = a % m :=
  Int.fmod_eq_emod_of_nonneg a h.le

/-- Two steps of the loop at least halve: where the bound on the steps is large enough, the last remainder reached is the
greatest common divisor, and its coefficient times `a` is congruent to it. -/
theorem euclidLoop_spec (a m : Int) :
    ∀ (n : Nat) (r0 r1 t0 t1 : Int), 0 ≤ r0 → 0 ≤ r1 → r1 ≤ r0 → r0 * r1 < 2 ^ n →
      m ∣ t0 * a - r0 → m ∣ t1 * a - r1 →
      (euclidLoop (n + 1) r0 r1 t0 t1).1 = (Int.gcd r0 r1 : Int) ∧
        m ∣ (euclidLoop (n + 1) r0 r1 t0 t1).2 * a - (euclidLoop (n + 1) r0 r1 t0 t1).1 := by
  intro n
  induction n with
  | zero =>
    intro r0 r1 t0 t1 h0 h1 hle hlt d0 d1
    have hr1 : r1 = 0 := by
      by_contra hne
      have : 1 ≤ r1 := by omega
      have : 1 ≤ r0 * r1 := by nlinarith
      simp at hlt
      omega
    subst hr1
    simp [euclidLoop, abs_of_nonneg h0, d0]
  | succ n ih =>
    intro r0 r1 t0 t1 h0 h1 hle hlt d0 d1
    rw [euclidLoop]
    split
    · next h => subst h; simp [abs_of_nonneg h0, d0]
    · next h =>
      have hp : 0 < r1 := by omega
      obtain ⟨hm0, hm1⟩ := fmod_range r0 hp
      have hdiv : Int.fmod r0 r1 = r0 - r1 * Int.fdiv r0 r1 := by rw [Int.fmod_def]
      have hq : 1 ≤ Int.fdiv r0 r1 := by
        rw [Int.fdiv_eq_ediv_of_nonneg _ h1]
        exact (Int.le_ediv_iff_mul_le hp).2 (by omega)
      have hhalf : 2 * Int.fmod r0 r1 ≤ r0 := by
        have : r1 ≤ r1 * Int.fdiv r0 r1 := by nlinarith
        omega
      have key : r1 * Int.fmod r0 r1 < 2 ^ n := by
        have h2 : r0 * r1 < 2 * 2 ^ n := by rw [pow_succ] at hlt; linarith
        have : 2 * (r1 * Int.fmod r0 r1) ≤ r0 * r1 := by nlinarith
        linarith
      have d2 : m ∣ (t0 - Int.fdiv r0 r1 * t1) * a - Int.fmod r0 r1 := by
        have := Dvd.dvd.mul_left d1 (Int.fdiv r0 r1)
        have e : (t0 - Int.fdiv r0 r1 * t1) * a - Int.fmod r0 r1
            = (t0 * a - r0) - Int.fdiv r0 r1 * (t1 * a - r1) := by rw [hdiv]; ring
        rw [e]
        exact dvd_sub d0 this
      have := ih r1 (Int.fmod r0 r1) t1 _ h1 hm0 hm1.le key d1 d2
      refine ⟨?_, this.2⟩
      rw [this.1, hdiv]
      congr 1
      rw [Int.gcd_comm r0 r1, mul_comm r1]
      simp

/-- The steps allowed are enough for any value below the modulus. -/
theorem euclidFuel_enough {a m : Int} (hm : 0 < m) (ha : 0 ≤ a ∧ a < m) : m * a < 2 ^ (2 * bitlenOf m.natAbs + 1) := by
  have h := lt_two_pow_bitlenOf m.natAbs
  have h' : m < 2 ^ bitlenOf m.natAbs := by
    have : ((m.natAbs : Nat) : Int) < ((2 ^ bitlenOf m.natAbs : Nat) : Int) := by exact_mod_cast h
    rw [Int.natAbs_of_nonneg hm.le] at this
    simpa using this
  have h2 : m * a < 2 ^ bitlenOf m.natAbs * 2 ^ bitlenOf m.natAbs := by nlinarith
  have e : (2 : Int) ^ (2 * bitlenOf m.natAbs + 1) = 2 * (2 ^ bitlenOf m.natAbs * 2 ^ bitlenOf m.natAbs) := by ring
  rw [e]
  nlinarith [pow_pos (show (0 : Int) < 2 by norm_num) (bitlenOf m.natAbs)]

/-- The pair the loop ends with, for `a` reduced modulo `m > 0`. -/
theorem euclid_result {a m : Int} (hm : 0 < m) :
    (euclidLoop (euclidFuel m) m (Int.fmod a m) 0 1).1 = (Int.gcd a m : Int) ∧
      m ∣ (euclidLoop (euclidFuel m) m (Int.fmod a m) 0 1).2 * a - (Int.gcd a m : Int) := by
  have hr := fmod_range a hm
  have hd : m ∣ a - Int.fmod a m := ⟨Int.fdiv a m, by rw [Int.fmod_def]; ring⟩
  have h := euclidLoop_spec a m (2 * bitlenOf m.natAbs + 1) m (Int.fmod a m) 0 1 hm.le hr.1 hr.2.le
    (euclidFuel_enough hm hr) (by simp) (by simpa using hd)
  have hg : Int.gcd m (Int.fmod a m) = Int.gcd a m := by
    rw [Int.fmod_def, Int.gcd_comm a m]
    rw [show a - m * a.fdiv m = a + m * (-(a.fdiv m)) by ring]
    simp
  rw [show euclidFuel m = 2 * bitlenOf m.natAbs + 1 + 1 from rfl]
  rw [hg] at h
  exact ⟨h.1, by rw [← h.1]; exact h.2⟩

/-- Where the greatest common divisor is 1 there is an inverse, in [0, m), and the product with it is 1 modulo m. -/
theorem modInverse_spec {a m : Int} (hm : 0 < m) (hg : Int.gcd a m = 1) :
    ∃ x, modInverse a m = some x ∧ 0 ≤ x ∧ x < m ∧ a * x % m = 1 % m := by
  obtain ⟨h1, h2⟩ := euclid_result (a := a) hm
  rw [hg] at h1 h2
  have hr := fmod_range (euclidLoop (euclidFuel m) m (Int.fmod a m) 0 1).2 hm
  refine ⟨_, by simp [modInverse, h1], hr.1, hr.2, ?_⟩
  rw [fmod_eq_emod _ hm, Int.mul_emod, Int.emod_emod, ← Int.mul_emod, mul_comm]
  exact Int.emod_eq_emod_iff_emod_sub_eq_zero.2 (Int.emod_eq_zero_of_dvd (by simpa using h2))

/-- Where the greatest common divisor is not 1 there is none. -/
theorem modInverse_eq_none {a m : Int} (hm : 0 < m) : modInverse a m = none ↔ Int.gcd a m ≠ 1 := by
  obtain ⟨h1, -⟩ := euclid_result (a := a) hm
  unfold modInverse
  simp only [h1]
  split
  · next h => simp; exact_mod_cast h
  · next h => simp; exact_mod_cast h

end Sys2Proof.Laws
end

