-- ==== Sys2Proof/Laws/State.lean ====
section
/-! SUPPORT. The small lemmas of the state's updates: one per field per update, all true by rfl, so that no later proof unfolds
a record update. -/

namespace Sys2Proof.Laws

open Sys2Proof Sys2Proof.Machine

/-! ### State.setBigReg -/

@[simp] theorem setBigReg_params (s : State) (r : RegIx) (b : BigReg) : (s.setBigReg r b).params = s.params := rfl
@[simp] theorem setBigReg_regs (s : State) (r : RegIx) (b : BigReg) : (s.setBigReg r b).regs = s.regs.set r.toNat b r.isLt := rfl
@[simp] theorem setBigReg_curve (s : State) (r : RegIx) (b : BigReg) : (s.setBigReg r b).curve = s.curve := rfl
@[simp] theorem setBigReg_pc (s : State) (r : RegIx) (b : BigReg) : (s.setBigReg r b).pc = s.pc := rfl
@[simp] theorem setBigReg_flags (s : State) (r : RegIx) (b : BigReg) : (s.setBigReg r b).flags = s.flags := rfl
@[simp] theorem setBigReg_ie (s : State) (r : RegIx) (b : BigReg) : (s.setBigReg r b).ie = s.ie := rfl
@[simp] theorem setBigReg_curveLock (s : State) (r : RegIx) (b : BigReg) : (s.setBigReg r b).curveLock = s.curveLock := rfl
@[simp] theorem setBigReg_busy (s : State) (r : RegIx) (b : BigReg) : (s.setBigReg r b).busy = s.busy := rfl
@[simp] theorem setBigReg_done (s : State) (r : RegIx) (b : BigReg) : (s.setBigReg r b).done = s.done := rfl
@[simp] theorem setBigReg_err (s : State) (r : RegIx) (b : BigReg) : (s.setBigReg r b).err = s.err := rfl
@[simp] theorem setBigReg_hosterr (s : State) (r : RegIx) (b : BigReg) : (s.setBigReg r b).hosterr = s.hosterr := rfl
@[simp] theorem setBigReg_ecode (s : State) (r : RegIx) (b : BigReg) : (s.setBigReg r b).ecode = s.ecode := rfl
@[simp] theorem setBigReg_startPc (s : State) (r : RegIx) (b : BigReg) : (s.setBigReg r b).startPc = s.startPc := rfl
@[simp] theorem setBigReg_epc (s : State) (r : RegIx) (b : BigReg) : (s.setBigReg r b).epc = s.epc := rfl
@[simp] theorem setBigReg_einsn (s : State) (r : RegIx) (b : BigReg) : (s.setBigReg r b).einsn = s.einsn := rfl
@[simp] theorem setBigReg_imem (s : State) (r : RegIx) (b : BigReg) : (s.setBigReg r b).imem = s.imem := rfl
@[simp] theorem setBigReg_dmem (s : State) (r : RegIx) (b : BigReg) : (s.setBigReg r b).dmem = s.dmem := rfl
@[simp] theorem setBigReg_rstN (s : State) (r : RegIx) (b : BigReg) : (s.setBigReg r b).rstN = s.rstN := rfl
@[simp] theorem setBigReg_ports (s : State) (r : RegIx) (b : BigReg) : (s.setBigReg r b).ports = s.ports := rfl
@[simp] theorem setBigReg_response (s : State) (r : RegIx) (b : BigReg) : (s.setBigReg r b).response = s.response := rfl
@[simp] theorem setBigReg_freeCount (s : State) (r : RegIx) (b : BigReg) : (s.setBigReg r b).freeCount = s.freeCount := rfl

/-! ### State.setReg -/

@[simp] theorem setReg_params (s : State) (r : RegIx) (v : Int) : (s.setReg r v).params = s.params := rfl
@[simp] theorem setReg_regs (s : State) (r : RegIx) (v : Int) : (s.setReg r v).regs = s.regs.set r.toNat (BigReg.ofInt v) r.isLt := rfl
@[simp] theorem setReg_curve (s : State) (r : RegIx) (v : Int) : (s.setReg r v).curve = s.curve := rfl
@[simp] theorem setReg_pc (s : State) (r : RegIx) (v : Int) : (s.setReg r v).pc = s.pc := rfl
@[simp] theorem setReg_flags (s : State) (r : RegIx) (v : Int) : (s.setReg r v).flags = s.flags := rfl
@[simp] theorem setReg_ie (s : State) (r : RegIx) (v : Int) : (s.setReg r v).ie = s.ie := rfl
@[simp] theorem setReg_curveLock (s : State) (r : RegIx) (v : Int) : (s.setReg r v).curveLock = s.curveLock := rfl
@[simp] theorem setReg_busy (s : State) (r : RegIx) (v : Int) : (s.setReg r v).busy = s.busy := rfl
@[simp] theorem setReg_done (s : State) (r : RegIx) (v : Int) : (s.setReg r v).done = s.done := rfl
@[simp] theorem setReg_err (s : State) (r : RegIx) (v : Int) : (s.setReg r v).err = s.err := rfl
@[simp] theorem setReg_hosterr (s : State) (r : RegIx) (v : Int) : (s.setReg r v).hosterr = s.hosterr := rfl
@[simp] theorem setReg_ecode (s : State) (r : RegIx) (v : Int) : (s.setReg r v).ecode = s.ecode := rfl
@[simp] theorem setReg_startPc (s : State) (r : RegIx) (v : Int) : (s.setReg r v).startPc = s.startPc := rfl
@[simp] theorem setReg_epc (s : State) (r : RegIx) (v : Int) : (s.setReg r v).epc = s.epc := rfl
@[simp] theorem setReg_einsn (s : State) (r : RegIx) (v : Int) : (s.setReg r v).einsn = s.einsn := rfl
@[simp] theorem setReg_imem (s : State) (r : RegIx) (v : Int) : (s.setReg r v).imem = s.imem := rfl
@[simp] theorem setReg_dmem (s : State) (r : RegIx) (v : Int) : (s.setReg r v).dmem = s.dmem := rfl
@[simp] theorem setReg_rstN (s : State) (r : RegIx) (v : Int) : (s.setReg r v).rstN = s.rstN := rfl
@[simp] theorem setReg_ports (s : State) (r : RegIx) (v : Int) : (s.setReg r v).ports = s.ports := rfl
@[simp] theorem setReg_response (s : State) (r : RegIx) (v : Int) : (s.setReg r v).response = s.response := rfl
@[simp] theorem setReg_freeCount (s : State) (r : RegIx) (v : Int) : (s.setReg r v).freeCount = s.freeCount := rfl

/-! ### State.setFlags -/

@[simp] theorem setFlags_params (s : State) (f : FlagBits) : (s.setFlags f).params = s.params := rfl
@[simp] theorem setFlags_regs (s : State) (f : FlagBits) : (s.setFlags f).regs = s.regs := rfl
@[simp] theorem setFlags_curve (s : State) (f : FlagBits) : (s.setFlags f).curve = s.curve := rfl
@[simp] theorem setFlags_pc (s : State) (f : FlagBits) : (s.setFlags f).pc = s.pc := rfl
@[simp] theorem setFlags_flags (s : State) (f : FlagBits) : (s.setFlags f).flags = f := rfl
@[simp] theorem setFlags_ie (s : State) (f : FlagBits) : (s.setFlags f).ie = s.ie := rfl
@[simp] theorem setFlags_curveLock (s : State) (f : FlagBits) : (s.setFlags f).curveLock = s.curveLock := rfl
@[simp] theorem setFlags_busy (s : State) (f : FlagBits) : (s.setFlags f).busy = s.busy := rfl
@[simp] theorem setFlags_done (s : State) (f : FlagBits) : (s.setFlags f).done = s.done := rfl
@[simp] theorem setFlags_err (s : State) (f : FlagBits) : (s.setFlags f).err = s.err := rfl
@[simp] theorem setFlags_hosterr (s : State) (f : FlagBits) : (s.setFlags f).hosterr = s.hosterr := rfl
@[simp] theorem setFlags_ecode (s : State) (f : FlagBits) : (s.setFlags f).ecode = s.ecode := rfl
@[simp] theorem setFlags_startPc (s : State) (f : FlagBits) : (s.setFlags f).startPc = s.startPc := rfl
@[simp] theorem setFlags_epc (s : State) (f : FlagBits) : (s.setFlags f).epc = s.epc := rfl
@[simp] theorem setFlags_einsn (s : State) (f : FlagBits) : (s.setFlags f).einsn = s.einsn := rfl
@[simp] theorem setFlags_imem (s : State) (f : FlagBits) : (s.setFlags f).imem = s.imem := rfl
@[simp] theorem setFlags_dmem (s : State) (f : FlagBits) : (s.setFlags f).dmem = s.dmem := rfl
@[simp] theorem setFlags_rstN (s : State) (f : FlagBits) : (s.setFlags f).rstN = s.rstN := rfl
@[simp] theorem setFlags_ports (s : State) (f : FlagBits) : (s.setFlags f).ports = s.ports := rfl
@[simp] theorem setFlags_response (s : State) (f : FlagBits) : (s.setFlags f).response = s.response := rfl
@[simp] theorem setFlags_freeCount (s : State) (f : FlagBits) : (s.setFlags f).freeCount = s.freeCount := rfl

/-! ### State.setPc -/

@[simp] theorem setPc_params (s : State) (a : PcWord) : (s.setPc a).params = s.params := rfl
@[simp] theorem setPc_regs (s : State) (a : PcWord) : (s.setPc a).regs = s.regs := rfl
@[simp] theorem setPc_curve (s : State) (a : PcWord) : (s.setPc a).curve = s.curve := rfl
@[simp] theorem setPc_pc (s : State) (a : PcWord) : (s.setPc a).pc = a := rfl
@[simp] theorem setPc_flags (s : State) (a : PcWord) : (s.setPc a).flags = s.flags := rfl
@[simp] theorem setPc_ie (s : State) (a : PcWord) : (s.setPc a).ie = s.ie := rfl
@[simp] theorem setPc_curveLock (s : State) (a : PcWord) : (s.setPc a).curveLock = s.curveLock := rfl
@[simp] theorem setPc_busy (s : State) (a : PcWord) : (s.setPc a).busy = s.busy := rfl
@[simp] theorem setPc_done (s : State) (a : PcWord) : (s.setPc a).done = s.done := rfl
@[simp] theorem setPc_err (s : State) (a : PcWord) : (s.setPc a).err = s.err := rfl
@[simp] theorem setPc_hosterr (s : State) (a : PcWord) : (s.setPc a).hosterr = s.hosterr := rfl
@[simp] theorem setPc_ecode (s : State) (a : PcWord) : (s.setPc a).ecode = s.ecode := rfl
@[simp] theorem setPc_startPc (s : State) (a : PcWord) : (s.setPc a).startPc = s.startPc := rfl
@[simp] theorem setPc_epc (s : State) (a : PcWord) : (s.setPc a).epc = s.epc := rfl
@[simp] theorem setPc_einsn (s : State) (a : PcWord) : (s.setPc a).einsn = s.einsn := rfl
@[simp] theorem setPc_imem (s : State) (a : PcWord) : (s.setPc a).imem = s.imem := rfl
@[simp] theorem setPc_dmem (s : State) (a : PcWord) : (s.setPc a).dmem = s.dmem := rfl
@[simp] theorem setPc_rstN (s : State) (a : PcWord) : (s.setPc a).rstN = s.rstN := rfl
@[simp] theorem setPc_ports (s : State) (a : PcWord) : (s.setPc a).ports = s.ports := rfl
@[simp] theorem setPc_response (s : State) (a : PcWord) : (s.setPc a).response = s.response := rfl
@[simp] theorem setPc_freeCount (s : State) (a : PcWord) : (s.setPc a).freeCount = s.freeCount := rfl

/-! ### State.advance -/

@[simp] theorem advance_params (s : State) : s.advance.params = s.params := rfl
@[simp] theorem advance_regs (s : State) : s.advance.regs = s.regs := rfl
@[simp] theorem advance_curve (s : State) : s.advance.curve = s.curve := rfl
@[simp] theorem advance_pc (s : State) : s.advance.pc = s.pc + 1 := rfl
@[simp] theorem advance_flags (s : State) : s.advance.flags = s.flags := rfl
@[simp] theorem advance_ie (s : State) : s.advance.ie = s.ie := rfl
@[simp] theorem advance_curveLock (s : State) : s.advance.curveLock = s.curveLock := rfl
@[simp] theorem advance_busy (s : State) : s.advance.busy = s.busy := rfl
@[simp] theorem advance_done (s : State) : s.advance.done = s.done := rfl
@[simp] theorem advance_err (s : State) : s.advance.err = s.err := rfl
@[simp] theorem advance_hosterr (s : State) : s.advance.hosterr = s.hosterr := rfl
@[simp] theorem advance_ecode (s : State) : s.advance.ecode = s.ecode := rfl
@[simp] theorem advance_startPc (s : State) : s.advance.startPc = s.startPc := rfl
@[simp] theorem advance_epc (s : State) : s.advance.epc = s.epc := rfl
@[simp] theorem advance_einsn (s : State) : s.advance.einsn = s.einsn := rfl
@[simp] theorem advance_imem (s : State) : s.advance.imem = s.imem := rfl
@[simp] theorem advance_dmem (s : State) : s.advance.dmem = s.dmem := rfl
@[simp] theorem advance_rstN (s : State) : s.advance.rstN = s.rstN := rfl
@[simp] theorem advance_ports (s : State) : s.advance.ports = s.ports := rfl
@[simp] theorem advance_response (s : State) : s.advance.response = s.response := rfl
@[simp] theorem advance_freeCount (s : State) : s.advance.freeCount = s.freeCount := rfl

/-! ### raiseError -/

@[simp] theorem raiseError_params (e : EngineError) (w : InsnWord) (s : State) : (raiseError e w s).params = s.params := rfl
@[simp] theorem raiseError_regs (e : EngineError) (w : InsnWord) (s : State) : (raiseError e w s).regs = s.regs := rfl
@[simp] theorem raiseError_curve (e : EngineError) (w : InsnWord) (s : State) : (raiseError e w s).curve = s.curve := rfl
@[simp] theorem raiseError_pc (e : EngineError) (w : InsnWord) (s : State) : (raiseError e w s).pc = s.pc := rfl
@[simp] theorem raiseError_flags (e : EngineError) (w : InsnWord) (s : State) : (raiseError e w s).flags = s.flags := rfl
@[simp] theorem raiseError_ie (e : EngineError) (w : InsnWord) (s : State) : (raiseError e w s).ie = s.ie := rfl
@[simp] theorem raiseError_curveLock (e : EngineError) (w : InsnWord) (s : State) : (raiseError e w s).curveLock = s.curveLock := rfl
@[simp] theorem raiseError_busy (e : EngineError) (w : InsnWord) (s : State) : (raiseError e w s).busy = false := rfl
@[simp] theorem raiseError_done (e : EngineError) (w : InsnWord) (s : State) : (raiseError e w s).done = s.done := rfl
@[simp] theorem raiseError_err (e : EngineError) (w : InsnWord) (s : State) : (raiseError e w s).err = true := rfl
@[simp] theorem raiseError_hosterr (e : EngineError) (w : InsnWord) (s : State) : (raiseError e w s).hosterr = s.hosterr := rfl
@[simp] theorem raiseError_ecode (e : EngineError) (w : InsnWord) (s : State) : (raiseError e w s).ecode = e.code := rfl
@[simp] theorem raiseError_startPc (e : EngineError) (w : InsnWord) (s : State) : (raiseError e w s).startPc = s.startPc := rfl
@[simp] theorem raiseError_epc (e : EngineError) (w : InsnWord) (s : State) : (raiseError e w s).epc = s.pc := rfl
@[simp] theorem raiseError_einsn (e : EngineError) (w : InsnWord) (s : State) : (raiseError e w s).einsn = w := rfl
@[simp] theorem raiseError_imem (e : EngineError) (w : InsnWord) (s : State) : (raiseError e w s).imem = s.imem := rfl
@[simp] theorem raiseError_dmem (e : EngineError) (w : InsnWord) (s : State) : (raiseError e w s).dmem = s.dmem := rfl
@[simp] theorem raiseError_rstN (e : EngineError) (w : InsnWord) (s : State) : (raiseError e w s).rstN = s.rstN := rfl
@[simp] theorem raiseError_ports (e : EngineError) (w : InsnWord) (s : State) : (raiseError e w s).ports = s.ports := rfl
@[simp] theorem raiseError_response (e : EngineError) (w : InsnWord) (s : State) : (raiseError e w s).response = s.response := rfl
@[simp] theorem raiseError_freeCount (e : EngineError) (w : InsnWord) (s : State) : (raiseError e w s).freeCount = s.freeCount := rfl

/-! ### endRun -/

@[simp] theorem endRun_params (s : State) : (endRun s).params = s.params := rfl
@[simp] theorem endRun_regs (s : State) : (endRun s).regs = s.regs := rfl
@[simp] theorem endRun_curve (s : State) : (endRun s).curve = s.curve := rfl
@[simp] theorem endRun_pc (s : State) : (endRun s).pc = s.pc := rfl
@[simp] theorem endRun_flags (s : State) : (endRun s).flags = s.flags := rfl
@[simp] theorem endRun_ie (s : State) : (endRun s).ie = s.ie := rfl
@[simp] theorem endRun_curveLock (s : State) : (endRun s).curveLock = s.curveLock := rfl
@[simp] theorem endRun_busy (s : State) : (endRun s).busy = false := rfl
@[simp] theorem endRun_done (s : State) : (endRun s).done = true := rfl
@[simp] theorem endRun_err (s : State) : (endRun s).err = s.err := rfl
@[simp] theorem endRun_hosterr (s : State) : (endRun s).hosterr = s.hosterr := rfl
@[simp] theorem endRun_ecode (s : State) : (endRun s).ecode = s.ecode := rfl
@[simp] theorem endRun_startPc (s : State) : (endRun s).startPc = s.startPc := rfl
@[simp] theorem endRun_epc (s : State) : (endRun s).epc = s.epc := rfl
@[simp] theorem endRun_einsn (s : State) : (endRun s).einsn = s.einsn := rfl
@[simp] theorem endRun_imem (s : State) : (endRun s).imem = s.imem := rfl
@[simp] theorem endRun_dmem (s : State) : (endRun s).dmem = s.dmem := rfl
@[simp] theorem endRun_rstN (s : State) : (endRun s).rstN = s.rstN := rfl
@[simp] theorem endRun_ports (s : State) : (endRun s).ports = s.ports := rfl
@[simp] theorem endRun_response (s : State) : (endRun s).response = s.response := rfl
@[simp] theorem endRun_freeCount (s : State) : (endRun s).freeCount = s.freeCount := rfl

/-! ### startRun -/

@[simp] theorem startRun_params (s : State) : (startRun s).params = s.params := rfl
@[simp] theorem startRun_regs (s : State) : (startRun s).regs = s.regs := rfl
@[simp] theorem startRun_curve (s : State) : (startRun s).curve = s.curve := rfl
@[simp] theorem startRun_pc (s : State) : (startRun s).pc = s.startPc := rfl
@[simp] theorem startRun_flags (s : State) : (startRun s).flags = 0 := rfl
@[simp] theorem startRun_ie (s : State) : (startRun s).ie = s.ie := rfl
@[simp] theorem startRun_curveLock (s : State) : (startRun s).curveLock = s.curveLock := rfl
@[simp] theorem startRun_busy (s : State) : (startRun s).busy = true := rfl
@[simp] theorem startRun_done (s : State) : (startRun s).done = false := rfl
@[simp] theorem startRun_err (s : State) : (startRun s).err = false := rfl
@[simp] theorem startRun_hosterr (s : State) : (startRun s).hosterr = s.hosterr := rfl
@[simp] theorem startRun_ecode (s : State) : (startRun s).ecode = 0 := rfl
@[simp] theorem startRun_startPc (s : State) : (startRun s).startPc = s.startPc := rfl
@[simp] theorem startRun_epc (s : State) : (startRun s).epc = 0 := rfl
@[simp] theorem startRun_einsn (s : State) : (startRun s).einsn = 0 := rfl
@[simp] theorem startRun_imem (s : State) : (startRun s).imem = s.imem := rfl
@[simp] theorem startRun_dmem (s : State) : (startRun s).dmem = s.dmem := rfl
@[simp] theorem startRun_rstN (s : State) : (startRun s).rstN = s.rstN := rfl
@[simp] theorem startRun_ports (s : State) : (startRun s).ports = s.ports := rfl
@[simp] theorem startRun_response (s : State) : (startRun s).response = s.response := rfl
@[simp] theorem startRun_freeCount (s : State) : (startRun s).freeCount = s.freeCount := rfl

/-! ### State.respond -/

@[simp] theorem respond_params (s : State) (r : BusResponse) : (s.respond r).params = s.params := rfl
@[simp] theorem respond_regs (s : State) (r : BusResponse) : (s.respond r).regs = s.regs := rfl
@[simp] theorem respond_curve (s : State) (r : BusResponse) : (s.respond r).curve = s.curve := rfl
@[simp] theorem respond_pc (s : State) (r : BusResponse) : (s.respond r).pc = s.pc := rfl
@[simp] theorem respond_flags (s : State) (r : BusResponse) : (s.respond r).flags = s.flags := rfl
@[simp] theorem respond_ie (s : State) (r : BusResponse) : (s.respond r).ie = s.ie := rfl
@[simp] theorem respond_curveLock (s : State) (r : BusResponse) : (s.respond r).curveLock = s.curveLock := rfl
@[simp] theorem respond_busy (s : State) (r : BusResponse) : (s.respond r).busy = s.busy := rfl
@[simp] theorem respond_done (s : State) (r : BusResponse) : (s.respond r).done = s.done := rfl
@[simp] theorem respond_err (s : State) (r : BusResponse) : (s.respond r).err = s.err := rfl
@[simp] theorem respond_hosterr (s : State) (r : BusResponse) : (s.respond r).hosterr = s.hosterr := rfl
@[simp] theorem respond_ecode (s : State) (r : BusResponse) : (s.respond r).ecode = s.ecode := rfl
@[simp] theorem respond_startPc (s : State) (r : BusResponse) : (s.respond r).startPc = s.startPc := rfl
@[simp] theorem respond_epc (s : State) (r : BusResponse) : (s.respond r).epc = s.epc := rfl
@[simp] theorem respond_einsn (s : State) (r : BusResponse) : (s.respond r).einsn = s.einsn := rfl
@[simp] theorem respond_imem (s : State) (r : BusResponse) : (s.respond r).imem = s.imem := rfl
@[simp] theorem respond_dmem (s : State) (r : BusResponse) : (s.respond r).dmem = s.dmem := rfl
@[simp] theorem respond_rstN (s : State) (r : BusResponse) : (s.respond r).rstN = s.rstN := rfl
@[simp] theorem respond_ports (s : State) (r : BusResponse) : (s.respond r).ports = s.ports := rfl
@[simp] theorem respond_response (s : State) (r : BusResponse) : (s.respond r).response = some r := rfl
@[simp] theorem respond_freeCount (s : State) (r : BusResponse) : (s.respond r).freeCount = s.freeCount := rfl

/-! ### State.draw -/

@[simp] theorem draw_params (s : State) : s.draw.params = s.params := rfl
@[simp] theorem draw_regs (s : State) : s.draw.regs = s.regs := rfl
@[simp] theorem draw_curve (s : State) : s.draw.curve = s.curve := rfl
@[simp] theorem draw_pc (s : State) : s.draw.pc = s.pc := rfl
@[simp] theorem draw_flags (s : State) : s.draw.flags = s.flags := rfl
@[simp] theorem draw_ie (s : State) : s.draw.ie = s.ie := rfl
@[simp] theorem draw_curveLock (s : State) : s.draw.curveLock = s.curveLock := rfl
@[simp] theorem draw_busy (s : State) : s.draw.busy = s.busy := rfl
@[simp] theorem draw_done (s : State) : s.draw.done = s.done := rfl
@[simp] theorem draw_err (s : State) : s.draw.err = s.err := rfl
@[simp] theorem draw_hosterr (s : State) : s.draw.hosterr = s.hosterr := rfl
@[simp] theorem draw_ecode (s : State) : s.draw.ecode = s.ecode := rfl
@[simp] theorem draw_startPc (s : State) : s.draw.startPc = s.startPc := rfl
@[simp] theorem draw_epc (s : State) : s.draw.epc = s.epc := rfl
@[simp] theorem draw_einsn (s : State) : s.draw.einsn = s.einsn := rfl
@[simp] theorem draw_imem (s : State) : s.draw.imem = s.imem := rfl
@[simp] theorem draw_dmem (s : State) : s.draw.dmem = s.dmem := rfl
@[simp] theorem draw_rstN (s : State) : s.draw.rstN = s.rstN := rfl
@[simp] theorem draw_ports (s : State) : s.draw.ports = s.ports := rfl
@[simp] theorem draw_response (s : State) : s.draw.response = s.response := rfl
@[simp] theorem draw_freeCount (s : State) : s.draw.freeCount = s.freeCount + 1 := rfl

/-! ### hostRefuse -/

@[simp] theorem hostRefuse_params (s : State) : (hostRefuse s).params = s.params := rfl
@[simp] theorem hostRefuse_regs (s : State) : (hostRefuse s).regs = s.regs := rfl
@[simp] theorem hostRefuse_curve (s : State) : (hostRefuse s).curve = s.curve := rfl
@[simp] theorem hostRefuse_pc (s : State) : (hostRefuse s).pc = s.pc := rfl
@[simp] theorem hostRefuse_flags (s : State) : (hostRefuse s).flags = s.flags := rfl
@[simp] theorem hostRefuse_ie (s : State) : (hostRefuse s).ie = s.ie := rfl
@[simp] theorem hostRefuse_curveLock (s : State) : (hostRefuse s).curveLock = s.curveLock := rfl
@[simp] theorem hostRefuse_busy (s : State) : (hostRefuse s).busy = s.busy := rfl
@[simp] theorem hostRefuse_done (s : State) : (hostRefuse s).done = s.done := rfl
@[simp] theorem hostRefuse_err (s : State) : (hostRefuse s).err = s.err := rfl
@[simp] theorem hostRefuse_hosterr (s : State) : (hostRefuse s).hosterr = true := rfl
@[simp] theorem hostRefuse_ecode (s : State) : (hostRefuse s).ecode = s.ecode := rfl
@[simp] theorem hostRefuse_startPc (s : State) : (hostRefuse s).startPc = s.startPc := rfl
@[simp] theorem hostRefuse_epc (s : State) : (hostRefuse s).epc = s.epc := rfl
@[simp] theorem hostRefuse_einsn (s : State) : (hostRefuse s).einsn = s.einsn := rfl
@[simp] theorem hostRefuse_imem (s : State) : (hostRefuse s).imem = s.imem := rfl
@[simp] theorem hostRefuse_dmem (s : State) : (hostRefuse s).dmem = s.dmem := rfl
@[simp] theorem hostRefuse_rstN (s : State) : (hostRefuse s).rstN = s.rstN := rfl
@[simp] theorem hostRefuse_ports (s : State) : (hostRefuse s).ports = s.ports := rfl
@[simp] theorem hostRefuse_response (s : State) : (hostRefuse s).response = s.response := rfl
@[simp] theorem hostRefuse_freeCount (s : State) : (hostRefuse s).freeCount = s.freeCount := rfl

/-! ### softReset -/

@[simp] theorem softReset_params (s : State) : (softReset s).params = s.params := rfl
@[simp] theorem softReset_regs (s : State) : (softReset s).regs = State.reset.regs := rfl
@[simp] theorem softReset_curve (s : State) : (softReset s).curve = State.reset.curve := rfl
@[simp] theorem softReset_pc (s : State) : (softReset s).pc = State.reset.pc := rfl
@[simp] theorem softReset_flags (s : State) : (softReset s).flags = State.reset.flags := rfl
@[simp] theorem softReset_ie (s : State) : (softReset s).ie = State.reset.ie := rfl
@[simp] theorem softReset_curveLock (s : State) : (softReset s).curveLock = State.reset.curveLock := rfl
@[simp] theorem softReset_busy (s : State) : (softReset s).busy = State.reset.busy := rfl
@[simp] theorem softReset_done (s : State) : (softReset s).done = State.reset.done := rfl
@[simp] theorem softReset_err (s : State) : (softReset s).err = State.reset.err := rfl
@[simp] theorem softReset_hosterr (s : State) : (softReset s).hosterr = State.reset.hosterr := rfl
@[simp] theorem softReset_ecode (s : State) : (softReset s).ecode = State.reset.ecode := rfl
@[simp] theorem softReset_startPc (s : State) : (softReset s).startPc = State.reset.startPc := rfl
@[simp] theorem softReset_epc (s : State) : (softReset s).epc = State.reset.epc := rfl
@[simp] theorem softReset_einsn (s : State) : (softReset s).einsn = State.reset.einsn := rfl
@[simp] theorem softReset_imem (s : State) : (softReset s).imem = s.imem := rfl
@[simp] theorem softReset_dmem (s : State) : (softReset s).dmem = s.dmem := rfl
@[simp] theorem softReset_rstN (s : State) : (softReset s).rstN = s.rstN := rfl
@[simp] theorem softReset_ports (s : State) : (softReset s).ports = s.ports := rfl
@[simp] theorem softReset_response (s : State) : (softReset s).response = s.response := rfl
@[simp] theorem softReset_freeCount (s : State) : (softReset s).freeCount = s.freeCount := rfl

/-! ### hardReset -/

@[simp] theorem hardReset_params (s : State) : (hardReset s).params = s.params := rfl
@[simp] theorem hardReset_regs (s : State) : (hardReset s).regs = State.reset.regs := rfl
@[simp] theorem hardReset_curve (s : State) : (hardReset s).curve = State.reset.curve := rfl
@[simp] theorem hardReset_pc (s : State) : (hardReset s).pc = State.reset.pc := rfl
@[simp] theorem hardReset_flags (s : State) : (hardReset s).flags = State.reset.flags := rfl
@[simp] theorem hardReset_ie (s : State) : (hardReset s).ie = State.reset.ie := rfl
@[simp] theorem hardReset_curveLock (s : State) : (hardReset s).curveLock = State.reset.curveLock := rfl
@[simp] theorem hardReset_busy (s : State) : (hardReset s).busy = State.reset.busy := rfl
@[simp] theorem hardReset_done (s : State) : (hardReset s).done = State.reset.done := rfl
@[simp] theorem hardReset_err (s : State) : (hardReset s).err = State.reset.err := rfl
@[simp] theorem hardReset_hosterr (s : State) : (hardReset s).hosterr = State.reset.hosterr := rfl
@[simp] theorem hardReset_ecode (s : State) : (hardReset s).ecode = State.reset.ecode := rfl
@[simp] theorem hardReset_startPc (s : State) : (hardReset s).startPc = State.reset.startPc := rfl
@[simp] theorem hardReset_epc (s : State) : (hardReset s).epc = State.reset.epc := rfl
@[simp] theorem hardReset_einsn (s : State) : (hardReset s).einsn = State.reset.einsn := rfl
@[simp] theorem hardReset_imem (s : State) : (hardReset s).imem = State.reset.imem := rfl
@[simp] theorem hardReset_dmem (s : State) : (hardReset s).dmem = State.reset.dmem := rfl
@[simp] theorem hardReset_rstN (s : State) : (hardReset s).rstN = false := rfl
@[simp] theorem hardReset_ports (s : State) : (hardReset s).ports = s.ports := rfl
@[simp] theorem hardReset_response (s : State) : (hardReset s).response = State.reset.response := rfl
@[simp] theorem hardReset_freeCount (s : State) : (hardReset s).freeCount = s.freeCount := rfl

/-! ### Reading registers after an update -/

@[simp] theorem setFlags_bigReg (s : State) (f : FlagBits) (q : RegIx) : (s.setFlags f).bigReg q = s.bigReg q := rfl
@[simp] theorem setPc_bigReg (s : State) (a : PcWord) (q : RegIx) : (s.setPc a).bigReg q = s.bigReg q := rfl
@[simp] theorem advance_bigReg (s : State) (q : RegIx) : s.advance.bigReg q = s.bigReg q := rfl
@[simp] theorem raiseError_bigReg (e : EngineError) (w : InsnWord) (s : State) (q : RegIx) :
    (raiseError e w s).bigReg q = s.bigReg q := rfl
@[simp] theorem endRun_bigReg (s : State) (q : RegIx) : (endRun s).bigReg q = s.bigReg q := rfl

@[simp] theorem setBigReg_bigReg_same (s : State) (r : RegIx) (b : BigReg) : (s.setBigReg r b).bigReg r = b := by
  simp [State.bigReg]

theorem setBigReg_bigReg (s : State) (r q : RegIx) (b : BigReg) :
    (s.setBigReg r b).bigReg q = if q = r then b else s.bigReg q := by
  by_cases h : q = r
  · subst h; simp
  · have : r.toNat ≠ q.toNat := fun e => h (BitVec.eq_of_toNat_eq e.symm)
    simp [State.bigReg, h, this]

@[simp] theorem setBigReg_bigReg_ne (s : State) (r q : RegIx) (b : BigReg) (h : q ≠ r) :
    (s.setBigReg r b).bigReg q = s.bigReg q := by
  simp [setBigReg_bigReg, h]

@[simp] theorem setReg_bigReg_same (s : State) (r : RegIx) (v : Int) : (s.setReg r v).bigReg r = BigReg.ofInt v :=
  setBigReg_bigReg_same s r _

theorem setReg_bigReg (s : State) (r q : RegIx) (v : Int) :
    (s.setReg r v).bigReg q = if q = r then BigReg.ofInt v else s.bigReg q :=
  setBigReg_bigReg s r q _

@[simp] theorem setReg_bigReg_ne (s : State) (r q : RegIx) (v : Int) (h : q ≠ r) :
    (s.setReg r v).bigReg q = s.bigReg q :=
  setBigReg_bigReg_ne s r q _ h

/-- Two states are equal where every field is. -/
theorem state_ext {s t : State} (h1 : s.params = t.params) (h2 : s.regs = t.regs) (h3 : s.curve = t.curve) (h4 : s.pc = t.pc)
    (h5 : s.flags = t.flags) (h6 : s.ie = t.ie) (h7 : s.curveLock = t.curveLock) (h8 : s.busy = t.busy) (h9 : s.done = t.done)
    (h10 : s.err = t.err) (h11 : s.hosterr = t.hosterr) (h12 : s.ecode = t.ecode) (h13 : s.startPc = t.startPc)
    (h14 : s.epc = t.epc) (h15 : s.einsn = t.einsn) (h16 : s.imem = t.imem) (h17 : s.dmem = t.dmem) (h18 : s.rstN = t.rstN)
    (h19 : s.ports = t.ports) (h20 : s.response = t.response) (h21 : s.freeCount = t.freeCount) : s = t := by
  cases s; cases t; simp_all

end Sys2Proof.Laws
end

