-- ==== Sys2Proof/Laws/BigInt.lean ====
section
/-! SUPPORT. The stored form of a big integer: its magnitude is bounded, the canonical write stores the value it is given, and
`used` is the index above the highest non-zero digit. -/

namespace Sys2Proof.Laws

open Sys2Proof Sys2Proof.Machine

/-- Digits are below 2^64 each, so their magnitude is below 2^64 to their number. -/
theorem magOfDigits_lt (ds : List Digit) : magOfDigits ds < (2 ^ 64) ^ ds.length := by
  induction ds with
  | nil => simp [magOfDigits]
  | cons d ds ih =>
    have := d.isLt
    simp only [magOfDigits, List.length_cons, pow_succ']
    calc d.toNat + 2 ^ 64 * magOfDigits ds < 2 ^ 64 + 2 ^ 64 * magOfDigits ds := by omega
      _ = 2 ^ 64 * (magOfDigits ds + 1) := by ring
      _ ≤ 2 ^ 64 * (2 ^ 64) ^ ds.length := Nat.mul_le_mul_left _ ih

/-- MAXMAG as 00_scope.md R9 writes it. -/
theorem maxMag_eq : Config.maxMag = 2 ^ 576 - 1 := by decide +kernel

theorem fits_iff {v : Int} : fits v ↔ v.natAbs ≤ 2 ^ 576 - 1 := by rw [fits, maxMag_eq]

theorem maxMag_succ : Config.maxMag + 1 = (2 ^ 64) ^ 9 := by decide +kernel

/-- No register holds a magnitude above MAXMAG. -/
theorem mag_le_maxMag (b : BigReg) : b.mag ≤ Config.maxMag := by
  have h := magOfDigits_lt b.dig.toList
  have := maxMag_succ
  simp only [Vector.length_toList] at h
  unfold BigReg.mag
  omega

theorem natAbs_value (b : BigReg) : b.value.natAbs = b.mag := by
  unfold BigReg.value
  split <;> simp

/-- The value of a register fits a register. -/
theorem fits_value (b : BigReg) : fits b.value := by
  have := mag_le_maxMag b
  simpa [fits, natAbs_value] using this

theorem fits_val (s : State) (r : RegIx) : fits (s.val r) := fits_value _

/-- The digits of `m` from digit `j` on. -/
theorem magOfDigits_digits (m : Nat) :
    ∀ n j, magOfDigits ((List.range' j n).map (digitOf m)) = m / (2 ^ 64) ^ j % (2 ^ 64) ^ n := by
  intro n
  induction n with
  | zero => intro j; simp [magOfDigits, Nat.mod_one]
  | succ n ih =>
    intro j
    rw [List.range'_succ, List.map_cons, magOfDigits, ih (j + 1), digitOf, BitVec.toNat_ofNat, pow_mul,
      pow_succ' (2 ^ 64) n, Nat.mod_mul, pow_succ (2 ^ 64) j, Nat.div_div_eq_div_mul]

theorem digitsOf_toList (m : Nat) : (digitsOf m).toList = (List.range' 0 9).map (digitOf m) := rfl

/-- The nine digits of a magnitude that fits make that magnitude. -/
theorem magOfDigits_digitsOf {m : Nat} (h : m ≤ Config.maxMag) : magOfDigits (digitsOf m).toList = m := by
  have := maxMag_succ
  rw [digitsOf_toList, magOfDigits_digits, pow_zero, Nat.div_one]
  exact Nat.mod_eq_of_lt (by omega)

theorem mag_ofInt {v : Int} (h : fits v) : (BigReg.ofInt v).mag = v.natAbs := magOfDigits_digitsOf h

/-- The canonical write stores the value. -/
theorem value_ofInt {v : Int} (h : fits v) : (BigReg.ofInt v).value = v := by
  unfold BigReg.value
  rw [mag_ofInt h]
  simp only [BigReg.ofInt, decide_eq_true_eq]
  split <;> omega

/-- The canonical write stores no negative zero. -/
theorem ofInt_canonical {v : Int} (h : fits v) : (BigReg.ofInt v).sign = true → (BigReg.ofInt v).mag ≠ 0 := by
  rw [mag_ofInt h]
  simp only [BigReg.ofInt, decide_eq_true_eq]
  omega

/-- `R[r]` after `R[r] <- v` is `v`. -/
theorem setReg_val_same {s : State} {r : RegIx} {v : Int} (h : fits v) : (s.setReg r v).val r = v := by
  simp [State.val, value_ofInt h]

theorem setReg_val_ne {s : State} {r q : RegIx} {v : Int} (h : q ≠ r) : (s.setReg r v).val q = s.val q := by
  simp [State.val, h]

/-- `used` of digits counts no digit exactly where all are zero. -/
theorem usedDigits_eq_zero {ds : List Digit} : usedDigits ds = 0 ↔ ∀ d ∈ ds, d = 0 := by
  induction ds with
  | nil => simp [usedDigits]
  | cons d ds ih =>
    unfold usedDigits
    split
    · next h =>
      have h' := ih.1 h
      split
      · next hd => exact iff_of_true rfl (List.forall_mem_cons.2 ⟨hd, h'⟩)
      · next hd => exact iff_of_false (by omega) fun e => hd (List.forall_mem_cons.1 e).1
    · next h =>
      have h' := mt ih.2 h
      simp only [List.mem_cons, forall_eq_or_imp]
      constructor
      · intro e; omega
      · intro e; exact absurd e.2 h'

theorem usedDigits_le (ds : List Digit) : usedDigits ds ≤ ds.length := by
  induction ds with
  | nil => simp [usedDigits]
  | cons d ds ih => unfold usedDigits; simp only [List.length_cons]; split_ifs <;> omega

/-- Every digit at or above `used` is zero. -/
theorem digit_above_used {ds : List Digit} {j : Nat} (hj : j < ds.length) (h : usedDigits ds ≤ j) : ds[j] = 0 := by
  induction ds generalizing j with
  | nil => simp at hj
  | cons d ds ih =>
    unfold usedDigits at h
    cases j with
    | zero =>
      split_ifs at h with h1 h2
      · simpa using h2
      all_goals omega
    | succ j =>
      have : usedDigits ds ≤ j := by split_ifs at h <;> omega
      simpa using ih (by simpa using hj) this

/-- The digit below `used` is not zero. -/
theorem digit_below_used {ds : List Digit} {j : Nat} (hj : j < ds.length) (h : usedDigits ds = j + 1) : ds[j] ≠ 0 := by
  induction ds generalizing j with
  | nil => simp at hj
  | cons d ds ih =>
    unfold usedDigits at h
    cases j with
    | zero =>
      split_ifs at h with h1 h2
      · simpa using h2
      · omega
    | succ j =>
      have : usedDigits ds = j + 1 := by split_ifs at h <;> omega
      simpa using ih (by simpa using hj) this

theorem magOfDigits_eq_zero {ds : List Digit} : magOfDigits ds = 0 ↔ ∀ d ∈ ds, d = 0 := by
  induction ds with
  | nil => simp [magOfDigits]
  | cons d ds ih =>
    have e : d.toNat = 0 ↔ d = 0 := by
      constructor
      · intro h; exact BitVec.eq_of_toNat_eq (by simpa using h)
      · rintro rfl; rfl
    rw [magOfDigits, Nat.add_eq_zero_iff, e]
    simp [ih]

/-! ### DMEM records -/

/-- A magnitude is below the weight of the digit above its highest non-zero one. -/
theorem magOfDigits_lt_used (ds : List Digit) : magOfDigits ds < (2 ^ 64) ^ usedDigits ds := by
  induction ds with
  | nil => simp [magOfDigits, usedDigits]
  | cons d ds ih =>
    have hd := d.isLt
    unfold magOfDigits usedDigits
    split
    · next h =>
      rw [h, pow_zero] at ih
      have h0 : magOfDigits ds = 0 := by omega
      rw [h0]
      split
      · next hz => subst hz; simp
      · rw [pow_one]; omega
    · rw [pow_succ (2 ^ 64)]
      generalize (2 ^ 64) ^ usedDigits ds = x at ih
      omega

/-- A magnitude is at least the weight of its highest non-zero digit. -/
theorem le_magOfDigits_used {ds : List Digit} (h : usedDigits ds ≠ 0) : (2 ^ 64) ^ (usedDigits ds - 1) ≤ magOfDigits ds := by
  induction ds with
  | nil => exact absurd rfl h
  | cons d ds ih =>
    unfold magOfDigits
    unfold usedDigits at h ⊢
    split at h
    · next hu =>
      rw [if_pos hu]
      split at h
      · exact absurd rfl h
      · next hd =>
        have : 0 < d.toNat := Nat.pos_of_ne_zero fun e => hd (BitVec.eq_of_toNat_eq e)
        rw [if_neg hd, Nat.sub_self, pow_zero]
        omega
    · next hu =>
      rw [if_neg hu, Nat.add_sub_cancel]
      have := ih hu
      obtain ⟨k, hk⟩ := Nat.exists_eq_succ_of_ne_zero hu
      rw [hk, Nat.succ_sub_one] at this
      rw [hk, pow_succ (2 ^ 64)]
      generalize (2 ^ 64) ^ k = x at this
      omega

/-- What `used` says of a magnitude (10_state.md R23). -/
theorem used_bounds (b : BigReg) :
    (1 ≤ b.used ∧ b.used ≤ 9) ∧ b.mag < 2 ^ (64 * b.used) ∧ (b.used = 1 ∨ 2 ^ (64 * (b.used - 1)) ≤ b.mag) := by
  have hl : b.dig.toList.length = 9 := by simp
  have h1 := usedDigits_le b.dig.toList
  have h2 := magOfDigits_lt_used b.dig.toList
  have hu : b.used = max 1 (usedDigits b.dig.toList) := rfl
  refine ⟨by omega, ?_, ?_⟩
  · rw [pow_mul]
    exact h2.trans_le (Nat.pow_le_pow_right (by decide) (by omega))
  · rcases Nat.lt_or_ge 1 (usedDigits b.dig.toList) with h | h
    · right
      rw [pow_mul, hu, Nat.max_eq_right h.le]
      exact le_magOfDigits_used (by omega)
    · left; omega

@[simp] theorem recordOf_length (v : Int) : (recordOf v).length = recordWords := by
  simp [recordOf, recordWords, Config.capWords]

theorem recordHeader_sign (v : Int) : (recordHeader v).getLsbD 0 = decide (v < 0) := by
  simp only [recordHeader, BitVec.getLsbD_ofNat, Nat.testBit_zero]
  split <;> simp_all <;> omega

/-- A record ST writes has the value it was written for. -/
theorem recordValue_recordOf {v : Int} (h : fits v) : recordValue (recordOf v) = v := by
  simp only [recordOf, recordValue, recordHeader_sign, magOfDigits_digitsOf h, decide_eq_true_eq]
  split <;> omega

/-- The value LD reads from ten words fits a register. -/
theorem fits_recordValue {ws : List Digit} (h : ws.length = recordWords) : fits (recordValue ws) := by
  cases ws with
  | nil => simp [recordValue, fits]
  | cons w ws =>
    have hl : ws.length = 9 := by simpa [recordWords, Config.capWords] using h
    have hm := magOfDigits_lt ws
    have := maxMag_succ
    rw [hl] at hm
    simp only [recordValue, fits]
    split <;> omega

end Sys2Proof.Laws
end

