-- ==== Sys2Proof/Laws/Encoding.lean ====
section
/-! SUPPORT. The fields of a packed word, and a word as the packing of its fields: what proofs about the decoder and the encoder
cite instead of unfolding bit vectors. -/

namespace Sys2Proof.Laws

open Sys2Proof

/-- Concatenation, as numbers. -/
theorem toNat_append_add {m n : Nat} (x : BitVec m) (y : BitVec n) : (x ++ y).toNat = x.toNat * 2 ^ n + y.toNat := by
  rw [BitVec.toNat_append, ← Nat.shiftLeft_add_eq_or_of_lt y.isLt, Nat.shiftLeft_eq]

/-- A bit field, as a number. -/
theorem toNat_field {m : Nat} (w : BitVec m) (lo n : Nat) : (w.extractLsb' lo n).toNat = w.toNat / 2 ^ lo % 2 ^ n := by
  rw [BitVec.extractLsb'_toNat, Nat.shiftRight_eq_div_pow]

theorem toNat_packRegs (op : BitVec 8) (a b c d : BitVec 4) :
    (packRegs op a b c d).toNat
      = ((((op.toNat * 16 + a.toNat) * 16 + b.toNat) * 16 + c.toNat) * 16 + d.toNat) * 256 := by
  show (op ++ a ++ b ++ c ++ d ++ 0#8 : BitVec (8 + 4 + 4 + 4 + 4 + 8)).toNat = _
  simp only [toNat_append_add, BitVec.toNat_ofNat]
  omega

theorem toNat_packImm (op : BitVec 8) (a : BitVec 4) (imm : Imm16) :
    (packImm op a imm).toNat = (op.toNat * 16 + a.toNat) * 16 * 65536 + imm.toNat := by
  show (op ++ a ++ 0#4 ++ imm : BitVec (8 + 4 + 4 + 16)).toNat = _
  simp only [toNat_append_add, BitVec.toNat_ofNat]
  omega

theorem toNat_packCond (op : BitVec 8) (cond : FlagBits) (imm : Imm16) :
    (packCond op cond imm).toNat = (op.toNat * 8 + cond.toNat) * 32 * 65536 + imm.toNat := by
  show (op ++ cond ++ 0#5 ++ imm : BitVec (8 + 3 + 5 + 16)).toNat = _
  simp only [toNat_append_add, BitVec.toNat_ofNat]
  omega

theorem field_eq {m n lo : Nat} {w : BitVec m} {x : BitVec n} (h : w.toNat / 2 ^ lo % 2 ^ n = x.toNat) :
    w.extractLsb' lo n = x :=
  BitVec.eq_of_toNat_eq (by rw [toNat_field, h])

theorem toNat_zero4 : (0#4).toNat = 0 := rfl

/-! ### Fields of a packed word -/

@[simp] theorem opField_packRegs (op : BitVec 8) (a b c d : BitVec 4) : opField (packRegs op a b c d) = op :=
  field_eq (by rw [toNat_packRegs]; omega)
@[simp] theorem faField_packRegs (op : BitVec 8) (a b c d : BitVec 4) : faField (packRegs op a b c d) = a :=
  field_eq (by rw [toNat_packRegs]; omega)
@[simp] theorem fbField_packRegs (op : BitVec 8) (a b c d : BitVec 4) : fbField (packRegs op a b c d) = b :=
  field_eq (by rw [toNat_packRegs]; omega)
@[simp] theorem fcField_packRegs (op : BitVec 8) (a b c d : BitVec 4) : fcField (packRegs op a b c d) = c :=
  field_eq (by rw [toNat_packRegs]; omega)
@[simp] theorem fdField_packRegs (op : BitVec 8) (a b c d : BitVec 4) : fdField (packRegs op a b c d) = d :=
  field_eq (by rw [toNat_packRegs]; omega)
@[simp] theorem zeros8_packRegs (op : BitVec 8) (a b c d : BitVec 4) :
    (packRegs op a b c d).extractLsb' 0 8 = 0#8 := field_eq (by rw [toNat_packRegs]; simp)
@[simp] theorem zeros12_packRegs (op : BitVec 8) (a b c : BitVec 4) :
    (packRegs op a b c 0#4).extractLsb' 0 12 = 0#12 := field_eq (by rw [toNat_packRegs]; simp; omega)
@[simp] theorem zeros16_packRegs (op : BitVec 8) (a b : BitVec 4) :
    (packRegs op a b 0#4 0#4).extractLsb' 0 16 = 0#16 := field_eq (by rw [toNat_packRegs]; simp; omega)
@[simp] theorem zeros20_packRegs (op : BitVec 8) (a : BitVec 4) :
    (packRegs op a 0#4 0#4 0#4).extractLsb' 0 20 = 0#20 := field_eq (by rw [toNat_packRegs]; simp; omega)
@[simp] theorem zeros24_packRegs (op : BitVec 8) :
    (packRegs op 0#4 0#4 0#4 0#4).extractLsb' 0 24 = 0#24 := field_eq (by rw [toNat_packRegs]; simp; omega)

@[simp] theorem opField_packImm (op : BitVec 8) (a : BitVec 4) (imm : Imm16) : opField (packImm op a imm) = op :=
  field_eq (by rw [toNat_packImm]; omega)
@[simp] theorem faField_packImm (op : BitVec 8) (a : BitVec 4) (imm : Imm16) : faField (packImm op a imm) = a :=
  field_eq (by rw [toNat_packImm]; omega)
@[simp] theorem immField_packImm (op : BitVec 8) (a : BitVec 4) (imm : Imm16) : immField (packImm op a imm) = imm :=
  field_eq (by rw [toNat_packImm]; omega)
@[simp] theorem zeros4_packImm (op : BitVec 8) (a : BitVec 4) (imm : Imm16) :
    (packImm op a imm).extractLsb' 16 4 = 0#4 := field_eq (by rw [toNat_packImm]; simp; omega)
@[simp] theorem zeros8_packImm (op : BitVec 8) (imm : Imm16) :
    (packImm op 0#4 imm).extractLsb' 16 8 = 0#8 := field_eq (by rw [toNat_packImm]; simp; omega)

@[simp] theorem opField_packCond (op : BitVec 8) (cond : FlagBits) (imm : Imm16) : opField (packCond op cond imm) = op :=
  field_eq (by rw [toNat_packCond]; omega)
@[simp] theorem condField_packCond (op : BitVec 8) (cond : FlagBits) (imm : Imm16) :
    condField (packCond op cond imm) = cond := field_eq (by rw [toNat_packCond]; omega)
@[simp] theorem immField_packCond (op : BitVec 8) (cond : FlagBits) (imm : Imm16) :
    immField (packCond op cond imm) = imm := field_eq (by rw [toNat_packCond]; omega)
@[simp] theorem zeros5_packCond (op : BitVec 8) (cond : FlagBits) (imm : Imm16) :
    (packCond op cond imm).extractLsb' 16 5 = 0#5 := field_eq (by rw [toNat_packCond]; simp; omega)

/-! ### A word as the packing of its fields -/

theorem toNat_zero_field {m n lo : Nat} {w : BitVec m} (h : w.extractLsb' lo n = 0#n) : w.toNat / 2 ^ lo % 2 ^ n = 0 := by
  rw [← toNat_field, h]; rfl

theorem pack_fields4 {w : InsnWord} (h : w.extractLsb' 0 8 = 0#8) :
    packRegs (opField w) (faField w) (fbField w) (fcField w) (fdField w) = w := by
  have := toNat_zero_field h
  have hw := w.isLt
  apply BitVec.eq_of_toNat_eq
  simp only [toNat_packRegs, opField, faField, fbField, fcField, fdField, toNat_field]
  omega

theorem pack_fields3 {w : InsnWord} (h : w.extractLsb' 0 12 = 0#12) :
    packRegs (opField w) (faField w) (fbField w) (fcField w) 0#4 = w := by
  have := toNat_zero_field h
  have hw := w.isLt
  apply BitVec.eq_of_toNat_eq
  simp only [toNat_packRegs, opField, faField, fbField, fcField, toNat_field, toNat_zero4]
  omega

theorem pack_fields2 {w : InsnWord} (h : w.extractLsb' 0 16 = 0#16) :
    packRegs (opField w) (faField w) (fbField w) 0#4 0#4 = w := by
  have := toNat_zero_field h
  have hw := w.isLt
  apply BitVec.eq_of_toNat_eq
  simp only [toNat_packRegs, opField, faField, fbField, toNat_field, toNat_zero4]
  omega

theorem pack_fields1 {w : InsnWord} (h : w.extractLsb' 0 20 = 0#20) : packRegs (opField w) (faField w) 0#4 0#4 0#4 = w := by
  have := toNat_zero_field h
  have hw := w.isLt
  apply BitVec.eq_of_toNat_eq
  simp only [toNat_packRegs, opField, faField, toNat_field, toNat_zero4]
  omega

theorem pack_fields0 {w : InsnWord} (h : w.extractLsb' 0 24 = 0#24) : packRegs (opField w) 0#4 0#4 0#4 0#4 = w := by
  have := toNat_zero_field h
  have hw := w.isLt
  apply BitVec.eq_of_toNat_eq
  simp only [toNat_packRegs, opField, toNat_field, toNat_zero4]
  omega

theorem pack_fieldsI {w : InsnWord} (h : w.extractLsb' 16 4 = 0#4) : packImm (opField w) (faField w) (immField w) = w := by
  have := toNat_zero_field h
  have hw := w.isLt
  apply BitVec.eq_of_toNat_eq
  simp only [toNat_packImm, opField, faField, immField, toNat_field]
  omega

theorem pack_fieldsJ {w : InsnWord} (h : w.extractLsb' 16 8 = 0#8) : packImm (opField w) 0#4 (immField w) = w := by
  have := toNat_zero_field h
  have hw := w.isLt
  apply BitVec.eq_of_toNat_eq
  simp only [toNat_packImm, opField, immField, toNat_field, toNat_zero4]
  omega

theorem pack_fieldsB {w : InsnWord} (h : w.extractLsb' 16 5 = 0#5) :
    packCond (opField w) (condField w) (immField w) = w := by
  have := toNat_zero_field h
  have hw := w.isLt
  apply BitVec.eq_of_toNat_eq
  simp only [toNat_packCond, opField, condField, immField, toNat_field]
  omega

/-! ### The must-be-zero check -/

theorem needZero_eq_ok {n : Nat} {z : BitVec n} {i j : Instr} : needZero z i = .ok j ↔ z = 0#n ∧ i = j := by
  unfold needZero
  split <;> simp_all

/-- The decoder accepts exactly what passes the shape and the operand constraints. -/
theorem decode_eq_ok {w : InsnWord} {i : Instr} : decode w = .ok i ↔ decodeShape w = .ok i ∧ i.wf = true := by
  unfold decode Instr.wf
  cases h : decodeShape w with
  | error e => simp
  | ok j =>
    simp only [Except.ok.injEq]
    cases h2 : j.operandIllegal with
    | none =>
      simp only [Except.ok.injEq]
      constructor
      · rintro rfl; simp [h2]
      · exact And.left
    | some e =>
      simp only [reduceCtorEq, false_iff, not_and]
      rintro rfl
      simp [h2]

end Sys2Proof.Laws
end

