-- ==== Sys2Proof/Laws/Memory.lean ====
section
/-! SUPPORT. The laws of the two RAMs: a byte written is read back and no other byte changes, every operation keeps the canonical
form, equal contents in canonical form are equal lists, and a record written is read back. -/

namespace Sys2Proof.Laws

open Sys2Proof Sys2Proof.Machine

/-! ### One byte -/

/-- What reading a byte gives after a write of one byte. -/
theorem readByte_writeByte (m : Memory) (a b : Nat) (v : Byte) :
    readByte (writeByte m a v) b = if b = a then some v else readByte m b := by
  induction m with
  | nil => simp [writeByte, readByte]
  | cons c m ih =>
    unfold writeByte
    split
    · simp [readByte]
    · split
      · next h =>
        subst h
        by_cases hb : b = c.1 <;> simp [readByte, hb]
      · next h1 h2 =>
        by_cases hb : b = c.1
        · have : b ≠ a := fun e => h2 (e ▸ hb)
          simp [readByte, hb, Ne.symm h2]
        · simp [readByte, hb, ih]

/-- Every address of a memory after a write is the address written or one it had. -/
theorem mem_writeByte {m : Memory} {a : Nat} {v : Byte} {c : Host.Cell} (h : c ∈ writeByte m a v) :
    c.1 = a ∨ c ∈ m := by
  induction m with
  | nil => simp [writeByte] at h; simp [h]
  | cons d m ih =>
    unfold writeByte at h
    split at h
    · rcases List.mem_cons.1 h with rfl | h
      · exact .inl rfl
      · exact .inr h
    · split at h
      · rcases List.mem_cons.1 h with rfl | h
        · exact .inl rfl
        · exact .inr (List.mem_cons_of_mem _ h)
      · rcases List.mem_cons.1 h with rfl | h
        · exact .inr List.mem_cons_self
        · exact (ih h).imp id (List.mem_cons_of_mem _)

/-- Writing a byte keeps the canonical form. -/
theorem writeByte_wf {m : Memory} (h : Memory.wf m) (a : Nat) (v : Byte) : Memory.wf (writeByte m a v) := by
  induction m with
  | nil => simp [writeByte, Memory.wf]
  | cons c m ih =>
    have ⟨hc, hm⟩ := List.pairwise_cons.1 h
    unfold writeByte
    split
    · next ha =>
      refine List.pairwise_cons.2 ⟨fun d hd => ?_, h⟩
      rcases List.mem_cons.1 hd with rfl | hd
      · exact ha
      · exact lt_trans ha (hc d hd)
    · split
      · next ha => exact List.pairwise_cons.2 ⟨fun d hd => by simpa [ha] using hc d hd, hm⟩
      · refine List.pairwise_cons.2 ⟨fun d hd => ?_, ih hm⟩
        rcases mem_writeByte hd with e | hd
        · omega
        · exact hc d hd

/-- Writing a byte below a bound keeps every address below it. -/
theorem writeByte_below {m : Memory} {n : Nat} (h : Memory.below m n) {a : Nat} (ha : a < n) (v : Byte) :
    Memory.below (writeByte m a v) n := by
  intro c hc
  rcases mem_writeByte hc with e | hc
  · omega
  · exact h c hc

/-! ### Runs of bytes -/

/-- Reading below a run of bytes that is written gives what was there. -/
theorem readByte_writeBytes_lt (bs : List Byte) (m : Memory) {a b : Nat} (h : b < a) :
    readByte (writeBytes m a bs) b = readByte m b := by
  induction bs generalizing m a with
  | nil => rfl
  | cons v bs ih =>
    simp only [writeBytes]
    rw [ih _ (by omega), readByte_writeByte, if_neg (by omega)]

/-- What reading a byte gives after a run of bytes is written. -/
theorem readByte_writeBytes (bs : List Byte) (m : Memory) (a b : Nat) :
    readByte (writeBytes m a bs) b = if a ≤ b ∧ b < a + bs.length then bs[b - a]? else readByte m b := by
  induction bs generalizing m a with
  | nil => simp [writeBytes]
  | cons v bs ih =>
    simp only [writeBytes, List.length_cons]
    rcases lt_trichotomy b a with h | h | h
    · have h1 : b ≠ a := by omega
      have h2 : ¬(a ≤ b ∧ b < a + (bs.length + 1)) := by omega
      rw [readByte_writeBytes_lt bs _ (by omega), readByte_writeByte, if_neg h1, if_neg h2]
    · subst h
      rw [readByte_writeBytes_lt bs _ (by omega), readByte_writeByte]
      simp
    · obtain ⟨k, rfl⟩ : ∃ k, b = a + 1 + k := ⟨b - (a + 1), by omega⟩
      have h1 : a + 1 + k ≠ a := by omega
      have e1 : a + 1 + k - a = k + 1 := by omega
      have e2 : a + 1 + k - (a + 1) = k := by omega
      rw [ih, readByte_writeByte, if_neg h1, e1, e2, List.getElem?_cons_succ]
      by_cases hk : k < bs.length
      · rw [if_pos (by omega), if_pos (by omega)]
      · rw [if_neg (by omega), if_neg (by omega)]

/-- Every byte outside a run that is written reads as before. -/
theorem readByte_writeBytes_outside {bs : List Byte} {a b : Nat} (m : Memory) (h : b < a ∨ a + bs.length ≤ b) :
    readByte (writeBytes m a bs) b = readByte m b := by
  rw [readByte_writeBytes, if_neg (by omega)]

/-- Writing a run of bytes keeps the canonical form. -/
theorem writeBytes_wf (bs : List Byte) {m : Memory} (h : Memory.wf m) (a : Nat) : Memory.wf (writeBytes m a bs) := by
  induction bs generalizing m a with
  | nil => exact h
  | cons v bs ih => exact ih (writeByte_wf h a v) (a + 1)

/-- Writing a run of bytes below a bound keeps every address below it. -/
theorem writeBytes_below (bs : List Byte) {m : Memory} {n : Nat} (h : Memory.below m n) {a : Nat}
    (ha : a + bs.length ≤ n) : Memory.below (writeBytes m a bs) n := by
  induction bs generalizing m a with
  | nil => exact h
  | cons v bs ih =>
    simp only [List.length_cons] at ha
    exact ih (writeByte_below h (by omega) v) (by omega)

/-- A run of bytes that is read has its length, and is the bytes at its addresses. -/
theorem readBytes_eq_some {m : Memory} {a n : Nat} {bs : List Byte} :
    readBytes m a n = some bs ↔ bs.length = n ∧ ∀ k < n, readByte m (a + k) = bs[k]? := by
  induction n generalizing a bs with
  | zero => cases bs <;> simp [readBytes]
  | succ n ih =>
    unfold readBytes
    constructor
    · intro h
      split at h
      · next b bs' h1 h2 =>
        obtain ⟨hl, hk⟩ := ih.1 h2
        obtain rfl : b :: bs' = bs := by simpa using h
        refine ⟨by simp [hl], fun k hk' => ?_⟩
        cases k with
        | zero => simpa using h1
        | succ k =>
          have := hk k (by omega)
          rw [show a + (k + 1) = a + 1 + k by omega]
          simpa using this
      · cases h
    · rintro ⟨hl, hk⟩
      cases bs with
      | nil => simp at hl
      | cons b bs' =>
        have h1 : readByte m a = some b := by simpa using hk 0 (by omega)
        have h2 : readBytes m (a + 1) n = some bs' := by
          refine ih.2 ⟨by simpa using hl, fun k hk' => ?_⟩
          have := hk (k + 1) (by omega)
          rw [show a + (k + 1) = a + 1 + k by omega] at this
          simpa using this
        simp [h1, h2]

/-- A run of bytes that is not read has an unwritten byte. -/
theorem readBytes_eq_none {m : Memory} {a n : Nat} :
    readBytes m a n = none ↔ ∃ k < n, readByte m (a + k) = none := by
  induction n generalizing a with
  | zero => simp [readBytes]
  | succ n ih =>
    unfold readBytes
    constructor
    · intro h
      cases h1 : readByte m a with
      | none => exact ⟨0, by omega, by simpa using h1⟩
      | some b =>
        cases h2 : readBytes m (a + 1) n with
        | none =>
          obtain ⟨k, hk, e⟩ := ih.1 h2
          exact ⟨k + 1, by omega, by rw [show a + (k + 1) = a + 1 + k by omega]; exact e⟩
        | some bs => simp [h1, h2] at h
    · rintro ⟨k, hk, e⟩
      cases k with
      | zero => simp [show readByte m a = none by simpa using e]
      | succ k =>
        have : readBytes m (a + 1) n = none := ih.2 ⟨k, by omega, by rw [show a + 1 + k = a + (k + 1) by omega]; exact e⟩
        cases h1 : readByte m a <;> simp [this]

/-- A run of bytes written is read back. -/
theorem readBytes_writeBytes (m : Memory) (a : Nat) (bs : List Byte) :
    readBytes (writeBytes m a bs) a bs.length = some bs :=
  readBytes_eq_some.2 ⟨rfl, fun k hk => by
    rw [readByte_writeBytes, if_pos (by omega), Nat.add_sub_cancel_left]⟩

/-- Reading depends only on the bytes read. -/
theorem readBytes_congr {m m' : Memory} {a n : Nat} (h : ∀ k < n, readByte m (a + k) = readByte m' (a + k)) :
    readBytes m a n = readBytes m' a n := by
  induction n generalizing a with
  | zero => rfl
  | succ n ih =>
    have h0 := h 0 (by omega)
    have ht := ih (a := a + 1) fun k hk => by
      rw [show a + 1 + k = a + (k + 1) by omega]; exact h (k + 1) (by omega)
    simp only [readBytes, ht]
    rw [show readByte m a = readByte m' a by simpa using h0]

/-! ### Equal contents are equal data -/

/-- A memory whose addresses all lie above `a` reads no value at `a`. -/
theorem readByte_of_lt {m : Memory} {a : Nat} (h : ∀ c ∈ m, a < c.1) : readByte m a = none := by
  induction m with
  | nil => rfl
  | cons c m ih =>
    have := h c List.mem_cons_self
    simp only [readByte]
    rw [if_neg (by omega), ih fun d hd => h d (List.mem_cons_of_mem _ hd)]

/-- Two memories in canonical form that read the same everywhere are the same list. -/
theorem memory_ext {m m' : Memory} (h : Memory.wf m) (h' : Memory.wf m') (e : ∀ a, readByte m a = readByte m' a) :
    m = m' := by
  induction m generalizing m' with
  | nil =>
    cases m' with
    | nil => rfl
    | cons c m' => have := e c.1; simp [readByte] at this
  | cons c m ih =>
    cases m' with
    | nil => have := e c.1; simp [readByte] at this
    | cons d m' =>
      have ⟨hc, hm⟩ := List.pairwise_cons.1 h
      have ⟨hd, hm'⟩ := List.pairwise_cons.1 h'
      have hcd : c.1 = d.1 := by
        rcases lt_trichotomy c.1 d.1 with hlt | heq | hlt
        · have := e c.1
          have hn : readByte (d :: m') c.1 = none := readByte_of_lt fun x hx => by
            rcases List.mem_cons.1 hx with rfl | hx
            · exact hlt
            · exact lt_trans hlt (hd x hx)
          rw [hn] at this; simp [readByte] at this
        · exact heq
        · have := e d.1
          have hn : readByte (c :: m) d.1 = none := readByte_of_lt fun x hx => by
            rcases List.mem_cons.1 hx with rfl | hx
            · exact hlt
            · exact lt_trans hlt (hc x hx)
          rw [hn] at this; simp [readByte] at this
      have h2 : c.2 = d.2 := by have := e c.1; simpa [readByte, hcd] using this
      have hmm : m = m' := by
        refine ih hm hm' fun a => ?_
        by_cases ha : a = c.1
        · rw [readByte_of_lt fun x hx => by rw [ha]; exact hc x hx,
            readByte_of_lt fun x hx => by rw [ha, hcd]; exact hd x hx]
        · have := e a
          simpa [readByte, ha, hcd ▸ ha] using this
      rw [hmm, Prod.ext hcd h2]

/-! ### Byte order -/

@[simp] theorem leBytes_length (n v : Nat) : (leBytes n v).length = n := by
  induction n generalizing v with
  | zero => rfl
  | succ n ih => simp [leBytes, ih]

/-- The bytes of a number, read back, give it modulo their number. -/
theorem leNat_leBytes (n v : Nat) : leNat (leBytes n v) = v % 256 ^ n := by
  induction n generalizing v with
  | zero => simp [leBytes, leNat, Nat.mod_one]
  | succ n ih =>
    simp only [leBytes, leNat, ih]
    rw [pow_succ', Nat.mod_mul, BitVec.toNat_ofNat]

/-- An instruction word laid out in bytes is read back. -/
theorem insnOfBytes_leBytes (w : Nat) : insnOfBytes (leBytes 4 w) = BitVec.ofNat 32 w := by
  apply BitVec.eq_of_toNat_eq
  simp [insnOfBytes, leNat_leBytes]

/-! ### DMEM words -/

@[simp] theorem wordBytes_length (ws : List Digit) : (wordBytes ws).length = 8 * ws.length := by
  induction ws with
  | nil => rfl
  | cons w ws ih => simp [wordBytes, ih]; omega

/-- Reading a word depends only on its bytes. -/
theorem dmemWord_congr {m m' : Memory} {j : Nat} (h : ∀ k < 8, readByte m (8 * j + k) = readByte m' (8 * j + k)) :
    dmemWord m j = dmemWord m' j := by
  simp only [dmemWord, readBytes_congr h]

/-- The first word of words written is read back. -/
theorem dmemWord_of_bytes {m : Memory} {j : Nat} {w : Digit}
    (h : readBytes m (8 * j) 8 = some (leBytes 8 w.toNat)) : dmemWord m j = some w := by
  simp only [dmemWord, h, Option.map_some, leNat_leBytes]
  congr 1
  apply BitVec.eq_of_toNat_eq
  have := w.isLt
  simp only [BitVec.toNat_ofNat]
  omega

/-- Words read as those whose bytes lie at their addresses. -/
theorem memRead_of_bytes {m : Memory} (ws : List Digit) {a : Nat}
    (h : readBytes m (8 * a) (8 * ws.length) = some (wordBytes ws)) : memRead m a ws.length = some ws := by
  induction ws generalizing a with
  | nil => rfl
  | cons w ws ih =>
    obtain ⟨-, hk⟩ := readBytes_eq_some.1 h
    have h1 : dmemWord m a = some w := by
      refine dmemWord_of_bytes (readBytes_eq_some.2 ⟨by simp, fun k hk' => ?_⟩)
      rw [hk k (by simp; omega), wordBytes, List.getElem?_append_left (by simp; omega)]
    have h2 : memRead m (a + 1) ws.length = some ws := by
      refine ih (readBytes_eq_some.2 ⟨by simp, fun k hk' => ?_⟩)
      have := hk (8 + k) (by simp; omega)
      rw [wordBytes, List.getElem?_append_right (by simp)] at this
      rw [show 8 * (a + 1) + k = 8 * a + (8 + k) by omega, this]
      simp
    simp [memRead, h1, h2]

/-- The words a store writes are the words a load of the same addresses reads. -/
theorem memRead_memWrite (m : Memory) (a : Nat) (ws : List Digit) :
    memRead (memWrite m a ws) a ws.length = some ws := by
  refine memRead_of_bytes ws ?_
  have := readBytes_writeBytes m (8 * a) (wordBytes ws)
  rwa [wordBytes_length] at this

/-- A load has no value exactly where one of its words has none. -/
theorem memRead_eq_none {m : Memory} {a n : Nat} : memRead m a n = none ↔ ∃ k < n, dmemWord m (a + k) = none := by
  induction n generalizing a with
  | zero => simp [memRead]
  | succ n ih =>
    unfold memRead
    constructor
    · intro h
      cases h1 : dmemWord m a with
      | none => exact ⟨0, by omega, by simpa using h1⟩
      | some w =>
        cases h2 : memRead m (a + 1) n with
        | none =>
          obtain ⟨k, hk, e⟩ := ih.1 h2
          exact ⟨k + 1, by omega, by rw [show a + (k + 1) = a + 1 + k by omega]; exact e⟩
        | some ws => simp [h1, h2] at h
    · rintro ⟨k, hk, e⟩
      cases k with
      | zero => simp [show dmemWord m a = none by simpa using e]
      | succ k =>
        have : memRead m (a + 1) n = none := ih.2 ⟨k, by omega, by rw [show a + 1 + k = a + (k + 1) by omega]; exact e⟩
        cases h1 : dmemWord m a <;> simp [this]

/-- Storing words keeps the canonical form. -/
theorem memWrite_wf {m : Memory} (h : Memory.wf m) (a : Nat) (ws : List Digit) : Memory.wf (memWrite m a ws) :=
  writeBytes_wf _ h _

/-- Storing words inside DMEM keeps every address inside. -/
theorem memWrite_below {m : Memory} {n a : Nat} {ws : List Digit} (h : Memory.below m (8 * n))
    (ha : a + ws.length ≤ n) : Memory.below (memWrite m a ws) (8 * n) :=
  writeBytes_below _ h (by rw [wordBytes_length]; omega)

/-- Every byte outside the words stored reads as before. -/
theorem readByte_memWrite_outside (m : Memory) {a b : Nat} {ws : List Digit}
    (h : b < 8 * a ∨ 8 * a + 8 * ws.length ≤ b) : readByte (memWrite m a ws) b = readByte m b :=
  readByte_writeBytes_outside m (by rw [wordBytes_length]; exact h)

end Sys2Proof.Laws
end

