-- ==== Sys2Proof/Laws/Ops.lean ====
section
/-! SUPPORT. What each shared operation can do, said once: the checks, the commits and the error entry. Proofs about an
instruction cite these and unfold none of the operations. -/

namespace Sys2Proof.Laws

open Sys2Proof Sys2Proof.Machine

/-! ### Registers after a write -/

@[simp] theorem advance_val (s : State) (r : RegIx) : s.advance.val r = s.val r := rfl

/-- The two registers of a pair are two registers. -/
theorem pairHigh_ne (i : RegIx) : pairHigh i ≠ i := by
  revert i; decide

/-! ### Frames that hold of the updates -/

theorem hostSideKept_refl (s : State) : hostSideKept s s := ⟨rfl, rfl, fun _ => rfl, rfl, rfl, rfl, rfl, rfl, rfl, rfl, rfl⟩

theorem runKept_refl (s : State) : runKept s s := ⟨rfl, rfl, rfl, rfl, rfl, rfl⟩

/-! ### The error entry -/

theorem raiseError_tookError (e : EngineError) (w : InsnWord) (s : State) : tookError e w s (raiseError e w s) :=
  ⟨rfl, rfl, rfl, rfl, rfl, rfl, rfl, rfl, fun _ _ => rfl, fun _ => rfl, hostSideKept_refl s⟩

/-- `raise` always takes the error. -/
theorem raise_next (e : EngineError) (i : Instr) (s : State) :
    ∃ t, raise e i s = .next t ∧ tookError e (encode i) s t :=
  ⟨_, rfl, raiseError_tookError _ _ _⟩

/-! ### Checks -/

theorem check_pos {c : Prop} [Decidable c] (h : c) (e : EngineError) (i : Instr) (s : State) (k : Res) :
    check c e i s k = k := if_pos h

theorem check_neg {c : Prop} [Decidable c] (h : ¬c) (e : EngineError) (i : Instr) (s : State) (k : Res) :
    check c e i s k = raise e i s := if_neg h

/-- A check whose condition fails takes the error. -/
theorem check_raises {c : Prop} [Decidable c] (h : ¬c) (e : EngineError) (i : Instr) (s : State) (k : Res) :
    ∃ t, check c e i s k = .next t ∧ tookError e (encode i) s t := by
  rw [check_neg h]; exact raise_next e i s

theorem checkLegal_pos {i : Instr} (h : i.wf = true) (s : State) (k : Res) : checkLegal i s k = k := check_pos h _ _ _ _

theorem checkLegal_raises {i : Instr} (h : i.wf = false) (s : State) (k : Res) :
    ∃ t, checkLegal i s k = .next t ∧ tookError .illegal (encode i) s t := check_raises (by simp [h]) _ _ _ _

theorem recordCheck_pos {a : Nat} {s : State} (h : a + 10 ≤ s.params.dmemWords) (i : Instr) (k : Res) :
    recordCheck a i s k = k := check_pos h _ _ _ _

theorem recordCheck_raises {a : Nat} {s : State} (h : s.params.dmemWords < a + 10) (i : Instr) (k : Res) :
    ∃ t, recordCheck a i s k = .next t ∧ tookError .addr (encode i) s t := check_raises (Nat.not_le.2 h) _ _ _ _

theorem modulusCheck_pos {m : Int} (h : 0 < m) (i : Instr) (s : State) (k : Res) : modulusCheck m i s k = k := by
  rw [modulusCheck, check_pos h.ne', check_pos h]

theorem modulusCheck_zero {m : Int} (h : m = 0) (i : Instr) (s : State) (k : Res) :
    ∃ t, modulusCheck m i s k = .next t ∧ tookError .divZero (encode i) s t := check_raises (by simp [h]) _ _ _ _

theorem modulusCheck_neg {m : Int} (h : m < 0) (i : Instr) (s : State) (k : Res) :
    ∃ t, modulusCheck m i s k = .next t ∧ tookError .modulus (encode i) s t := by
  rw [modulusCheck, check_pos h.ne]; exact check_raises (by omega) _ _ _ _

/-- The range test of a point operand, as the rule states it. -/
theorem inRange_iff {p : Int} {q : Point} : q.inRange p = true ↔ pointOk p q := by
  cases q
  simp [Point.inRange, Point.isId, pointOk, identity, and_assoc]

theorem pointCheck_pos {s : State} (qs : List Point) (hp : 0 < s.fieldP) (h : ∀ q ∈ qs, pointOk s.fieldP q) (i : Instr)
    (k : Res) : pointCheck qs i s k = k := by
  rw [pointCheck, check_pos hp.ne', check_pos hp, check_pos (List.all_eq_true.2 fun q hq => inRange_iff.2 (h q hq))]

theorem pointCheck_noCurve {s : State} (qs : List Point) (hp : s.fieldP = 0) (i : Instr) (k : Res) :
    ∃ t, pointCheck qs i s k = .next t ∧ tookError .noCurve (encode i) s t := check_raises (by simp [hp]) _ _ _ _

theorem pointCheck_modulus {s : State} (qs : List Point) (hp : s.fieldP < 0) (i : Instr) (k : Res) :
    ∃ t, pointCheck qs i s k = .next t ∧ tookError .modulus (encode i) s t := by
  rw [pointCheck, check_pos hp.ne]; exact check_raises (by omega) _ _ _ _

theorem pointCheck_operand {s : State} {qs : List Point} (hp : 0 < s.fieldP) (h : ∃ q ∈ qs, ¬pointOk s.fieldP q) (i : Instr)
    (k : Res) : ∃ t, pointCheck qs i s k = .next t ∧ tookError .operand (encode i) s t := by
  rw [pointCheck, check_pos hp.ne', check_pos hp]
  refine check_raises (fun ha => ?_) _ _ _ _
  obtain ⟨q, hq, hn⟩ := h
  exact hn (inRange_iff.1 (List.all_eq_true.1 ha q hq))

/-! ### Commits -/

/-- One register is written, in canonical form, and nothing else but the PC. -/
theorem commitReg_next {rd : RegIx} {v : Int} (h : fits v) (s : State) :
    ∃ t, commitReg rd v s = .next t ∧ t.val rd = v ∧ wroteOnly [rd] s t := by
  refine ⟨_, rfl, ?_, ?_, ?_, rfl, fun _ => rfl, runKept_refl s, hostSideKept_refl s, rfl⟩
  · simp [setReg_val_same h]
  · intro r hr
    exact setReg_bigReg_ne _ _ _ _ (by simpa using hr)
  · intro r hr
    obtain rfl : r = rd := by simpa using hr
    simpa [BigReg.canonical] using ofInt_canonical h

/-- Two registers are written, in canonical form, and nothing else but the PC. -/
theorem commitRegs_next {r1 r2 : RegIx} {v1 v2 : Int} (hne : r1 ≠ r2) (h1 : fits v1) (h2 : fits v2) (s : State) :
    ∃ t, commitRegs r1 v1 r2 v2 s = .next t ∧ t.val r1 = v1 ∧ t.val r2 = v2 ∧ wroteOnly [r1, r2] s t := by
  refine ⟨_, rfl, ?_, ?_, ?_, ?_, rfl, fun _ => rfl, runKept_refl s, hostSideKept_refl s, rfl⟩
  · simp [setReg_val_ne hne, setReg_val_same h1]
  · simp [setReg_val_same h2]
  · intro r hr
    obtain ⟨ha, hb⟩ : r ≠ r1 ∧ r ≠ r2 := by simpa using hr
    rw [advance_bigReg, setReg_bigReg_ne _ _ _ _ hb, setReg_bigReg_ne _ _ _ _ ha]
  · intro r hr
    obtain rfl | rfl : r = r1 ∨ r = r2 := by simpa using hr
    · rw [advance_bigReg, setReg_bigReg_ne _ _ _ _ hne, setReg_bigReg_same]; exact ofInt_canonical h1
    · rw [advance_bigReg, setReg_bigReg_same]; exact ofInt_canonical h2

/-- A point is written to a pair, and nothing else but the PC. -/
theorem commitPoint_next {i : RegIx} {q : Point} (hx : fits q.x) (hy : fits q.y) (s : State) :
    ∃ t, commitPoint i q s = .next t ∧ t.point i = q ∧ wroteOnly [i, pairHigh i] s t := by
  obtain ⟨t, ht, h1, h2, hw⟩ := commitRegs_next (pairHigh_ne i).symm hx hy s
  exact ⟨t, ht, by simp [State.point, h1, h2], hw⟩

/-- FLAGS are written, and nothing else but the PC. -/
theorem commitFlags_next (f : FlagBits) (s : State) :
    ∃ t, commitFlags f s = .next t ∧ t.flags = f ∧ wroteFlagsOnly s t :=
  ⟨_, rfl, rfl, fun _ _ => rfl, fun _ => rfl, runKept_refl s, hostSideKept_refl s, rfl⟩

/-- Ten words of DMEM are written, and nothing else but the PC. -/
theorem commitMem_next (a : Nat) (ws : List Digit) (s : State) :
    ∃ t, commitMem a ws s = .next t ∧ t.dmem = memWrite s.dmem a ws ∧ wroteDmemOnly (8 * a) (8 * ws.length) s t :=
  ⟨_, rfl, rfl, fun _ _ => rfl, rfl, fun _ hb => readByte_memWrite_outside _ hb, runKept_refl s, hostSideKept_refl s, rfl⟩

/-- The next PC is written and nothing else. -/
theorem setPc_wrotePcOnly (pc : PcWord) (s : State) : wrotePcOnly pc s (s.setPc pc) :=
  ⟨fun _ _ => rfl, rfl, fun _ => rfl, runKept_refl s, hostSideKept_refl s, rfl⟩

/-! ### Reset -/

/-- The memories of the machine right after reset are in canonical form. -/
theorem reset_ramsOk : State.reset.ramsOk := by
  refine ⟨?_, ?_, ?_, ?_⟩ <;> simp [State.reset, Memory.wf, Memory.below]

end Sys2Proof.Laws
end

