-- ==== Sys2Proof/Laws/Exec.lean ====
section
/-! SUPPORT. Everything an instruction can do to the state, said once: an invariant of every instruction is proved from these
shapes, without unfolding any meaning. -/

namespace Sys2Proof.Laws

open Sys2Proof Sys2Proof.Machine

/-- What `exec i s` leaves where it leaves a next state. -/
inductive ExecShape (i : Instr) (s : State) : State → Prop
  /-- an error: only the record is written -/
  | error (e : EngineError) : e ≠ .fetch → ExecShape i s (raiseError e (encode i) s)
  /-- the run ends -/
  | halt : i = .halt → ExecShape i s (endRun s)
  /-- only the PC is written -/
  | jump (pc : PcWord) : ExecShape i s (s.setPc pc)
  /-- one register and the PC are written -/
  | reg (r : RegIx) (v : Int) : ExecShape i s (s.setReg r v).advance
  /-- two registers and the PC are written -/
  | regs (r1 r2 : RegIx) (v1 v2 : Int) : ExecShape i s ((s.setReg r1 v1).setReg r2 v2).advance
  /-- FLAGS, with exactly one bit set, and the PC are written -/
  | flags (f : FlagBits) : writesFlags i → f = 0b001#3 ∨ f = 0b010#3 ∨ f = 0b100#3 → ExecShape i s (s.setFlags f).advance
  /-- one record inside DMEM and the PC are written -/
  | record (a : Nat) (v : Int) : a + 10 ≤ s.params.dmemWords →
      ExecShape i s { s with dmem := memWrite s.dmem a (recordOf v) }.advance

/-- A check takes the error or goes on. -/
theorem check_shape {c : Prop} [Decidable c] {e : EngineError} {i : Instr} {s : State} {k : Res}
    (he : e ≠ .fetch) (hk : c → ∀ t, k = .next t → ExecShape i s t) : ∀ t, check c e i s k = .next t → ExecShape i s t := by
  intro t h
  by_cases hc : c
  · rw [check_pos hc] at h; exact hk hc t h
  · rw [check_neg hc] at h; cases h; exact .error e he

theorem commitReg_shape {i : Instr} {s : State} (r : RegIx) (v : Int) : ∀ t, commitReg r v s = .next t → ExecShape i s t := by
  intro t h; cases h; exact .reg r v

theorem commitFlags_shape {i : Instr} {s : State} {f : FlagBits} (hi : writesFlags i)
    (hf : f = 0b001#3 ∨ f = 0b010#3 ∨ f = 0b100#3) : ∀ t, commitFlags f s = .next t → ExecShape i s t := by
  intro t h; cases h; exact .flags f hi hf

theorem commitPointOr_shape {i : Instr} {s : State} (pd : RegIx) (q : Option Point) :
    ∀ t, commitPointOr pd q i s = .next t → ExecShape i s t := by
  intro t h
  cases q with
  | none => cases h; exact .error _ (by decide)
  | some r => cases h; exact .regs _ _ _ _

theorem compareFlags_oneBit (a b : Int) :
    compareFlags a b = 0b001#3 ∨ compareFlags a b = 0b010#3 ∨ compareFlags a b = 0b100#3 := by
  unfold compareFlags; split_ifs <;> simp

theorem testFlags_oneBit (c : Bool) : testFlags c = 0b001#3 ∨ testFlags c = 0b010#3 ∨ testFlags c = 0b100#3 := by
  cases c <;> simp [testFlags]

/-- Every next state of every instruction has one of the shapes. -/
theorem exec_shape {i : Instr} {s : State} : ∀ {t}, exec i s = .next t → ExecShape i s t := by
  suffices h : ∀ t, exec i s = .next t → ExecShape i s t from fun {t} => h t
  have modulus : ∀ m k, (∀ t, k = .next t → ExecShape i s t) → ∀ t, modulusCheck m i s k = .next t → ExecShape i s t :=
    fun m k hk => check_shape (by decide) fun _ => check_shape (by decide) fun _ => hk
  have point : ∀ qs k, (∀ t, k = .next t → ExecShape i s t) → ∀ t, pointCheck qs i s k = .next t → ExecShape i s t :=
    fun qs k hk => check_shape (by decide) fun _ => check_shape (by decide) fun _ => check_shape (by decide) fun _ => hk
  cases i with
  | nop => intro t h; cases h; exact .jump _
  | halt => intro t h; cases h; exact .halt rfl
  | j target => intro t h; cases h; exact .jump _
  | b cond target =>
    intro t h; cases h
    split
    · exact .jump _
    · exact .jump _
  | mov rd rs => exact commitReg_shape _ _
  | ldi rd imm => exact commitReg_shape _ _
  | movc rd k =>
    show ∀ t, execMovc rd k s = .next t → _
    unfold execMovc
    split
    · exact commitReg_shape _ _
    · intro t h; cases h; exact .error _ (by decide)
  | ld rd addr =>
    refine check_shape (by decide) fun _ => ?_
    cases memRead s.dmem (recordIndex addr) recordWords with
    | none => intro t h; cases h
    | some ws => exact commitReg_shape _ _
  | st rs addr =>
    refine check_shape (by decide) fun hc => ?_
    intro t h; cases h; exact .record _ _ hc
  | cmp rs rt => exact commitFlags_shape (.inl ⟨_, _, rfl⟩) (compareFlags_oneBit _ _)
  | cmpm rs rt => exact commitFlags_shape (.inr (.inl ⟨_, _, rfl⟩)) (compareFlags_oneBit _ _)
  | add rd rs rt => exact check_shape (by decide) fun _ => commitReg_shape _ _
  | sub rd rs rt => exact check_shape (by decide) fun _ => commitReg_shape _ _
  | mul rd rs rt => exact check_shape (by decide) fun _ => commitReg_shape _ _
  | divrem rq rr rs rt =>
    refine check_shape (by decide) fun _ => check_shape (by decide) fun _ => ?_
    intro t h; cases h; exact .regs _ _ _ _
  | mod rd rs rt => exact check_shape (by decide) fun _ => commitReg_shape _ _
  | modadd rd rs rt rm => exact modulus _ _ (check_shape (by decide) fun _ => commitReg_shape _ _)
  | modsub rd rs rt rm => exact modulus _ _ (check_shape (by decide) fun _ => commitReg_shape _ _)
  | modmul rd rs rt rm => exact modulus _ _ (check_shape (by decide) fun _ => commitReg_shape _ _)
  | modinv rd rs rm =>
    refine modulus _ _ ?_
    cases modInverse (s.val rs) (s.val rm) with
    | none => intro t h; cases h; exact .error _ (by decide)
    | some x => exact commitReg_shape _ _
  | bitlen rd rs => exact commitReg_shape _ _
  | getbit rd rs rt => exact check_shape (by decide) fun _ => commitReg_shape _ _
  | pisid ps =>
    exact check_shape (by decide) fun _ => commitFlags_shape (.inr (.inr (.inl ⟨_, rfl⟩))) (testFlags_oneBit _)
  | pcmp ps pt =>
    exact check_shape (by decide) fun _ => commitFlags_shape (.inr (.inr (.inr ⟨_, _, rfl⟩))) (testFlags_oneBit _)
  | padd pd ps pt => exact check_shape (by decide) fun _ => point _ _ (commitPointOr_shape _ _)
  | pdbl pd ps => exact check_shape (by decide) fun _ => point _ _ (commitPointOr_shape _ _)
  | pmul pd rk ps => exact check_shape (by decide) fun _ => point _ _ (commitPointOr_shape _ _)

end Sys2Proof.Laws
end

