-- ==== Sys2Proof/Laws/Host.lean ====
section
/-! SUPPORT. Everything a host access can do to the state, said once. -/

namespace Sys2Proof.Laws

open Sys2Proof Sys2Proof.Machine

/-! ### The address map, range by range (20_memory.md R52) -/

theorem regionOf_control {o : Offset} (h : o.toNat < 0x40) : regionOf o = .csr (csrAt (o.toNat / 8)) := by
  simp only [regionOf, if_pos h]

theorem regionOf_regSlot {o : Offset} (h : 0x1000 ≤ o.toNat) (h' : o.toNat < 0x1800) :
    regionOf o = .regSlot (BitVec.ofNat 4 ((o.toNat - 0x1000) / 0x80)) (o.toNat % 0x80 / 8) := by
  simp only [regionOf]
  rw [if_neg (by omega), if_neg (by omega), if_pos h']

theorem regionOf_curveSlot {o : Offset} (h : 0x2000 ≤ o.toNat) (h' : o.toNat < 0x2300) :
    regionOf o = .curveSlot ⟨(o.toNat - 0x2000) / 0x80, by omega⟩ (o.toNat % 0x80 / 8) := by
  simp only [regionOf]
  rw [if_neg (by omega), if_neg (by omega), if_neg (by omega), if_neg (by omega), dif_pos h']

theorem regionOf_imem {o : Offset} (h : 0x40000 ≤ o.toNat) (h' : o.toNat < 0x80000) :
    regionOf o = .imem (o.toNat - 0x40000) := by
  simp only [regionOf]
  rw [if_neg (by omega), if_neg (by omega), if_neg (by omega), if_neg (by omega), dif_neg (by omega), if_neg (by omega),
    if_pos h']

theorem regionOf_dmem {o : Offset} (h : 0x80000 ≤ o.toNat) : regionOf o = .dmem (o.toNat - 0x80000) := by
  simp only [regionOf]
  rw [if_neg (by omega), if_neg (by omega), if_neg (by omega), if_neg (by omega), dif_neg (by omega), if_neg (by omega),
    if_neg (by omega)]

theorem regionOf_reserved {o : Offset}
    (h : (0x40 ≤ o.toNat ∧ o.toNat < 0x1000) ∨ (0x1800 ≤ o.toNat ∧ o.toNat < 0x2000) ∨
      (0x2300 ≤ o.toNat ∧ o.toNat < 0x40000)) : regionOf o = .reserved := by
  simp only [regionOf]
  split_ifs <;> first | rfl | omega

/-! ### BASE, and the accesses the block accepts (20_memory.md R51, 70_reset_and_hazards.md R200) -/

@[simp] theorem offsetOf_hostAddr (p : Params) (o : Offset) : p.offsetOf (p.hostAddr o) = some o := by
  have h := o.isLt
  rw [Params.offsetOf, Params.hostAddr, if_pos (by unfold Config.windowBytes; omega), Nat.add_sub_cancel_left]
  simp

theorem offsetOf_outside {p : Params} {a : Nat} (h : a < p.base ∨ p.base + 2 ^ 20 ≤ a) : p.offsetOf a = none :=
  if_neg (by unfold Config.windowBytes; omega)

/-- The high half of a 64-bit register is at the next multiple of 4. -/
theorem hostAddr_high {p : Params} {o : Offset} (h : o.toNat + 4 < 2 ^ 20) : p.hostAddr (o + 4) = p.hostAddr o + 4 := by
  have : (o + 4).toNat = o.toNat + 4 := by rw [BitVec.toNat_add]; exact Nat.mod_eq_of_lt h
  rw [Params.hostAddr, Params.hostAddr, this, Nat.add_assoc]

/-- An address inside the window names one offset. -/
theorem hostAddr_of_offsetOf {p : Params} {a : Nat} {o : Offset} (h : p.offsetOf a = some o) : a = p.hostAddr o := by
  unfold Params.offsetOf at h
  split at h
  · next hc =>
    cases h
    have hl : a - p.base < 2 ^ 20 := by unfold Config.windowBytes at hc; omega
    rw [Params.hostAddr, BitVec.toNat_ofNat, Nat.mod_eq_of_lt hl]; omega
  · cases h

theorem hostAccess_accepted {s : State} (o : Offset) (k : Offset → State → State) (h : s.rstN = true) :
    hostAccess (s.params.hostAddr o) k s = k o s := by
  simp only [hostAccess, offsetOf_hostAddr, h, if_true]

/-- Every access is nobody's, or is turned away in reset, or is the block's at one offset. -/
theorem hostAccess_cases (a : Nat) (k : Offset → State → State) (s : State) :
    hostAccess a k s = s ∨ (s.rstN = false ∧ hostAccess a k s = s.respond (.platform s.params.hostBus.inReset)) ∨
      ∃ o, a = s.params.hostAddr o ∧ s.rstN = true ∧ hostAccess a k s = k o s := by
  unfold hostAccess
  cases h : s.params.offsetOf a with
  | none => exact .inl rfl
  | some o =>
    cases hr : s.rstN with
    | false => exact .inr (.inl ⟨rfl, rfl⟩)
    | true => exact .inr (.inr ⟨o, hostAddr_of_offsetOf h, rfl, rfl⟩)

/-- The step of a host write that the block accepts. -/
theorem step_write {s : State} {rest : List PortEvent} {width : Nat} {o : Offset} {data : BitVec 64} (hr : s.rstN = true)
    (hp : s.ports = .write width (s.params.hostAddr o) data :: rest) :
    step s = .next (hostWrite width o data { s with ports := rest }) := by
  rw [step, turn, hp]
  exact congrArg _ (hostAccess_accepted (s := { s with ports := rest }) o _ hr)

/-- The step of a host read that the block accepts. -/
theorem step_read {s : State} {rest : List PortEvent} {width : Nat} {o : Offset} (hr : s.rstN = true)
    (hp : s.ports = .read width (s.params.hostAddr o) :: rest) :
    step s = .next (hostRead width o { s with ports := rest }) := by
  rw [step, turn, hp]
  exact congrArg _ (hostAccess_accepted (s := { s with ports := rest }) o _ hr)

/-! ### Reads -/

theorem ramRead_keeps (m : Memory) (width a : Nat) (s : State) :
    ∃ r n, ramRead m width a s = { s with response := some r, freeCount := n } := by
  unfold ramRead
  cases readBytes m a (width / 8) with
  | none => exact ⟨_, _, rfl⟩
  | some bs => exact ⟨_, _, rfl⟩

/-- A host read writes the model's own response and counter, and no other field. -/
theorem hostRead_keeps (width : Nat) (o : Offset) (s : State) :
    ∃ r n, hostRead width o s = { s with response := some r, freeCount := n } := by
  unfold hostRead
  split
  · exact ⟨_, _, rfl⟩
  · split
    · split <;> exact ⟨_, _, rfl⟩
    · exact ⟨_, _, rfl⟩
    · split <;> exact ⟨_, _, rfl⟩
    · split <;> exact ⟨_, _, rfl⟩
    · split
      · exact ⟨_, _, rfl⟩
      · exact ramRead_keeps _ _ _ _
    · split
      · exact ⟨_, _, rfl⟩
      · exact ramRead_keeps _ _ _ _
    · exact ⟨_, _, rfl⟩

/-! ### Writes -/

/-- What a host write leaves, the response apart. -/
inductive HostWriteShape (o : Offset) (data : BitVec 64) (s : State) : State → Prop
  /-- ignored, or a bus error -/
  | ignored : HostWriteShape o data s s
  /-- refused -/
  | refused : HostWriteShape o data s (hostRefuse s)
  /-- CTRL with SRST -/
  | soft : o.toNat = 0x10 → data.getLsbD 3 = true → HostWriteShape o data s (softReset s)
  /-- CTRL without START, or with a START that is refused -/
  | ctrl (ie lock he : Bool) : (s.curveLock = true → lock = true) →
      HostWriteShape o data s { s with ie := ie, curveLock := lock, hosterr := he }
  /-- CTRL with a START that begins a run -/
  | start (ie lock : Bool) : s.busy = false → (s.curveLock = true → lock = true) →
      HostWriteShape o data s (startRun { s with ie := ie, curveLock := lock })
  /-- STATUS, write-1-to-clear -/
  | status : HostWriteShape o data s (writeStatus data s)
  /-- START_PC -/
  | startPc (pc : PcWord) : s.busy = false → HostWriteShape o data s { s with startPc := pc }
  /-- a register slot -/
  | reg (r : RegIx) (b : BigReg) : s.busy = false → HostWriteShape o data s (s.setBigReg r b)
  /-- a curve slot -/
  | curve (k : Fin 6) (b : BigReg) : s.busy = false → s.curveLock = false →
      HostWriteShape o data s { s with curve := s.curve.set k b }
  /-- the IMEM window -/
  | imem (a : Nat) (bs : List Byte) : s.busy = false → a + bs.length ≤ 4 * s.params.imemWords →
      HostWriteShape o data s { s with imem := writeBytes s.imem a bs }
  /-- the DMEM window -/
  | dmem (a : Nat) (bs : List Byte) : s.busy = false → a + bs.length ≤ 8 * s.params.dmemWords →
      HostWriteShape o data s { s with dmem := writeBytes s.dmem a bs }

theorem unlessBusy_shape {o : Offset} {data : BitVec 64} {s t : State}
    (h : s.busy = false → HostWriteShape o data s t) : HostWriteShape o data s (unlessBusy s t) := by
  unfold unlessBusy
  split
  · exact .refused
  · next hb => exact h (by simpa using hb)

theorem writeCtrl_shape {o : Offset} {data : BitVec 64} {s : State} (ho : o.toNat = 0x10) :
    HostWriteShape o data s (writeCtrl data s) := by
  unfold writeCtrl
  split
  · next h => exact .soft ho h
  · split
    · simp only [unlessBusy]
      split
      · exact .ctrl _ _ _ (by simp +contextual)
      · next hb => exact .start _ _ (by simpa using hb) (by simp +contextual)
    · exact .ctrl _ _ _ (by simp +contextual)

/-- The offset of CTRL, from the address map. -/
theorem regionOf_csr {o : Offset} {r : Csr} (h : regionOf o = .csr r) : o.toNat < 0x40 ∧ csrAt (o.toNat / 8) = r := by
  unfold regionOf at h
  dsimp only at h
  split at h
  · next hn => exact ⟨hn, by simpa using h⟩
  · (repeat' split at h) <;> simp at h

theorem ctrl_offset {width : Nat} {o : Offset} {p : Params} (h : regionOf o = .csr .ctrl) (he : isBusError p width o = false)
    (hh : isHighHalf width o = false) : o.toNat = 0x10 := by
  obtain ⟨hn, hc⟩ := regionOf_csr h
  have h2 : o.toNat / 8 = 2 := by
    have hlt : o.toNat / 8 < 8 := by omega
    generalize o.toNat / 8 = k at hc hlt
    interval_cases k <;> simp_all [csrAt]
  simp only [isBusError, h, Bool.or_false, Bool.or_eq_false_iff, Bool.not_eq_false', Bool.or_eq_true, beq_iff_eq,
    bne_eq_false_iff_eq] at he
  simp only [isHighHalf, Bool.and_eq_false_imp, beq_iff_eq, beq_eq_false_iff_ne] at hh
  rcases he.1 with hw | hw <;> subst hw <;> simp_all <;> omega

theorem writeCsr_shape {width : Nat} {o : Offset} {data : BitVec 64} {s : State} {r : Csr} (h : regionOf o = .csr r)
    (he : isBusError s.params width o = false) : HostWriteShape o data s (writeCsr r width o data s) := by
  cases r with
  | ctrl =>
    show HostWriteShape o data s (if isHighHalf width o then s else writeCtrl data s)
    split
    · exact .ignored
    · next hh => exact writeCtrl_shape (ctrl_offset h he (by simpa using hh))
  | status =>
    show HostWriteShape o data s (if isHighHalf width o then s else writeStatus data s)
    split
    · exact .ignored
    · exact .status
  | startPc =>
    refine unlessBusy_shape fun hb => ?_
    split
    · exact .ignored
    · exact .startPc _ hb
  | _ => exact .ignored

/-- Every host write leaves one of the shapes, with a response. -/
theorem hostWrite_shape (width : Nat) (o : Offset) (data : BitVec 64) (s : State) :
    ∃ t r, hostWrite width o data s = { t with response := some r } ∧ HostWriteShape o data s t := by
  unfold hostWrite
  split
  · exact ⟨s, _, rfl, .ignored⟩
  · next he =>
    refine ⟨_, _, rfl, ?_⟩
    split
    · next r hr => exact writeCsr_shape hr (by simpa using he)
    · exact unlessBusy_shape fun hb => .reg _ _ hb
    · refine unlessBusy_shape fun hb => ?_
      split
      · split
        · exact .refused
        · exact .ignored
      · next hl => exact .curve _ _ hb (by simpa using hl)
    · next b hr =>
      refine unlessBusy_shape fun hb => .imem _ _ hb ?_
      simp only [isBusError, hr, Bool.or_eq_true, not_or, decide_eq_true_eq] at he
      simp only [leBytes_length]; omega
    · next b hr =>
      refine unlessBusy_shape fun hb => .dmem _ _ hb ?_
      simp only [isBusError, hr, Bool.or_eq_true, not_or, decide_eq_true_eq] at he
      simp only [leBytes_length]; omega
    · exact .ignored

/-! ### The events themselves, at any address and level of rst_n -/

/-- A host read, anywhere and at any time, writes the model's own response and counter, and no other field. -/
theorem portRead_keeps (width a : Nat) (s : State) :
    ∃ r n, portEvent (.read width a) s = { s with response := r, freeCount := n } := by
  obtain h | ⟨_, h⟩ | ⟨o, _, _, h⟩ := hostAccess_cases a (fun o t => hostRead width o t) s
  · exact ⟨_, _, h⟩
  · exact ⟨_, _, h⟩
  · obtain ⟨r, n, hk⟩ := hostRead_keeps width o s
    exact ⟨_, _, h.trans hk⟩

/-- A host write, anywhere and at any time, does nothing to the block, or leaves one of the shapes of the offset it names. -/
theorem portWrite_shape (width a : Nat) (data : BitVec 64) (s : State) :
    ∃ t r, portEvent (.write width a data) s = { t with response := r } ∧
      (t = s ∨ ∃ o, a = s.params.hostAddr o ∧ s.rstN = true ∧ HostWriteShape o data s t) := by
  obtain h | ⟨_, h⟩ | ⟨o, ha, hr, h⟩ := hostAccess_cases a (fun o t => hostWrite width o data t) s
  · exact ⟨s, _, h, .inl rfl⟩
  · exact ⟨s, _, h, .inl rfl⟩
  · obtain ⟨t, r, hk, hs⟩ := hostWrite_shape width o data s
    exact ⟨t, _, h.trans hk, .inr ⟨o, ha, hr, hs⟩⟩

end Sys2Proof.Laws
end

