-- ==== Sys2Proof/Laws/PerInstr.lean ====
section
/-! SUPPORT. The fixed bits of every instruction, as spec/opcode_table.json gives them: the encoder sets each of them, for every
operand of a well-formed instruction. -/

namespace Sys2Proof.Laws

open Sys2Proof

/-- The fixed bits of an instruction's row of spec/opcode_table.json, as (highest bit, lowest bit, value). -/
def fixedBits : Instr → List (Nat × Nat × Nat)
  | .nop => [(31, 0, 0x0)]
  | .halt => [(31, 0, 0x1000000)]
  | .mov _ _ => [(15, 0, 0x0), (31, 24, 0x2)]
  | .ldi _ _ => [(19, 16, 0x0), (31, 24, 0x3)]
  | .movc _ _ => [(15, 0, 0x0), (31, 24, 0x4)]
  | .ld _ _ => [(19, 16, 0x0), (31, 24, 0x8)]
  | .st _ _ => [(19, 16, 0x0), (31, 24, 0x9)]
  | .cmp _ _ => [(15, 0, 0x0), (31, 24, 0x10)]
  | .cmpm _ _ => [(15, 0, 0x0), (31, 24, 0x11)]
  | .add _ _ _ => [(11, 0, 0x0), (31, 24, 0x12)]
  | .sub _ _ _ => [(11, 0, 0x0), (31, 24, 0x13)]
  | .mul _ _ _ => [(11, 0, 0x0), (31, 24, 0x14)]
  | .divrem _ _ _ _ => [(7, 0, 0x0), (31, 24, 0x15)]
  | .mod _ _ _ => [(11, 0, 0x0), (31, 24, 0x16)]
  | .modadd _ _ _ _ => [(7, 0, 0x0), (31, 24, 0x18)]
  | .modsub _ _ _ _ => [(7, 0, 0x0), (31, 24, 0x19)]
  | .modmul _ _ _ _ => [(7, 0, 0x0), (31, 24, 0x1A)]
  | .modinv _ _ _ => [(11, 0, 0x0), (31, 24, 0x1B)]
  | .bitlen _ _ => [(15, 0, 0x0), (31, 24, 0x1C)]
  | .getbit _ _ _ => [(11, 0, 0x0), (31, 24, 0x1D)]
  | .pisid _ => [(20, 0, 0x0), (31, 24, 0x20)]
  | .pcmp _ _ => [(16, 0, 0x0), (20, 20, 0x0), (31, 24, 0x21)]
  | .padd _ _ _ => [(12, 0, 0x0), (16, 16, 0x0), (20, 20, 0x0), (31, 24, 0x22)]
  | .pdbl _ _ => [(16, 0, 0x0), (20, 20, 0x0), (31, 24, 0x23)]
  | .pmul _ _ _ => [(12, 0, 0x0), (20, 20, 0x0), (31, 24, 0x24)]
  | .j _ => [(31, 16, 0x3000)]
  | .b _ _ => [(20, 16, 0x0), (31, 24, 0x31)]

theorem evenField_mod {r : RegIx} (h : evenField r = true) : r.toNat % 2 = 0 := by
  simp only [evenField, BitVec.getLsbD, Nat.testBit_zero, Bool.not_eq_true', decide_eq_false_iff_not] at h
  omega

/-- The word of `i` has every fixed bit of `i`'s row. -/
def FixedBits.Statement (i : Instr) : Prop :=
  i.wf = true → ∀ f ∈ fixedBits i, (encode i).toNat / 2 ^ f.2.1 % 2 ^ (f.1 + 1 - f.2.1) = f.2.2

theorem FixedBits.nop : FixedBits.Statement .nop := by
  intro _
  simp only [fixedBits, List.forall_mem_cons, List.not_mem_nil, false_imp_iff, implies_true, and_true, encode, toNat_packRegs, BitVec.toNat_ofNat]
  omega

theorem FixedBits.halt : FixedBits.Statement .halt := by
  intro _
  simp only [fixedBits, List.forall_mem_cons, List.not_mem_nil, false_imp_iff, implies_true, and_true, encode, toNat_packRegs, BitVec.toNat_ofNat]
  omega

theorem FixedBits.mov (rd rs : RegIx) : FixedBits.Statement (.mov rd rs) := by
  intro _
  simp only [fixedBits, List.forall_mem_cons, List.not_mem_nil, false_imp_iff, implies_true, and_true, encode, toNat_packRegs, BitVec.toNat_ofNat]
  omega

theorem FixedBits.ldi (rd : RegIx) (imm : Imm16) : FixedBits.Statement (.ldi rd imm) := by
  intro _
  simp only [fixedBits, List.forall_mem_cons, List.not_mem_nil, false_imp_iff, implies_true, and_true, encode, toNat_packImm, BitVec.toNat_ofNat]
  omega

theorem FixedBits.movc (rd : RegIx) (k : BitVec 4) : FixedBits.Statement (.movc rd k) := by
  intro _
  simp only [fixedBits, List.forall_mem_cons, List.not_mem_nil, false_imp_iff, implies_true, and_true, encode, toNat_packRegs, BitVec.toNat_ofNat]
  omega

theorem FixedBits.ld (rd : RegIx) (addr : Imm16) : FixedBits.Statement (.ld rd addr) := by
  intro _
  simp only [fixedBits, List.forall_mem_cons, List.not_mem_nil, false_imp_iff, implies_true, and_true, encode, toNat_packImm, BitVec.toNat_ofNat]
  omega

theorem FixedBits.st (rs : RegIx) (addr : Imm16) : FixedBits.Statement (.st rs addr) := by
  intro _
  simp only [fixedBits, List.forall_mem_cons, List.not_mem_nil, false_imp_iff, implies_true, and_true, encode, toNat_packImm, BitVec.toNat_ofNat]
  omega

theorem FixedBits.cmp (rs rt : RegIx) : FixedBits.Statement (.cmp rs rt) := by
  intro _
  simp only [fixedBits, List.forall_mem_cons, List.not_mem_nil, false_imp_iff, implies_true, and_true, encode, toNat_packRegs, BitVec.toNat_ofNat]
  omega

theorem FixedBits.cmpm (rs rt : RegIx) : FixedBits.Statement (.cmpm rs rt) := by
  intro _
  simp only [fixedBits, List.forall_mem_cons, List.not_mem_nil, false_imp_iff, implies_true, and_true, encode, toNat_packRegs, BitVec.toNat_ofNat]
  omega

theorem FixedBits.add (rd rs rt : RegIx) : FixedBits.Statement (.add rd rs rt) := by
  intro _
  simp only [fixedBits, List.forall_mem_cons, List.not_mem_nil, false_imp_iff, implies_true, and_true, encode, toNat_packRegs, BitVec.toNat_ofNat]
  omega

theorem FixedBits.sub (rd rs rt : RegIx) : FixedBits.Statement (.sub rd rs rt) := by
  intro _
  simp only [fixedBits, List.forall_mem_cons, List.not_mem_nil, false_imp_iff, implies_true, and_true, encode, toNat_packRegs, BitVec.toNat_ofNat]
  omega

theorem FixedBits.mul (rd rs rt : RegIx) : FixedBits.Statement (.mul rd rs rt) := by
  intro _
  simp only [fixedBits, List.forall_mem_cons, List.not_mem_nil, false_imp_iff, implies_true, and_true, encode, toNat_packRegs, BitVec.toNat_ofNat]
  omega

theorem FixedBits.divrem (rq rr rs rt : RegIx) : FixedBits.Statement (.divrem rq rr rs rt) := by
  intro _
  simp only [fixedBits, List.forall_mem_cons, List.not_mem_nil, false_imp_iff, implies_true, and_true, encode, toNat_packRegs, BitVec.toNat_ofNat]
  omega

theorem FixedBits.mod (rd rs rt : RegIx) : FixedBits.Statement (.mod rd rs rt) := by
  intro _
  simp only [fixedBits, List.forall_mem_cons, List.not_mem_nil, false_imp_iff, implies_true, and_true, encode, toNat_packRegs, BitVec.toNat_ofNat]
  omega

theorem FixedBits.modadd (rd rs rt rm : RegIx) : FixedBits.Statement (.modadd rd rs rt rm) := by
  intro _
  simp only [fixedBits, List.forall_mem_cons, List.not_mem_nil, false_imp_iff, implies_true, and_true, encode, toNat_packRegs, BitVec.toNat_ofNat]
  omega

theorem FixedBits.modsub (rd rs rt rm : RegIx) : FixedBits.Statement (.modsub rd rs rt rm) := by
  intro _
  simp only [fixedBits, List.forall_mem_cons, List.not_mem_nil, false_imp_iff, implies_true, and_true, encode, toNat_packRegs, BitVec.toNat_ofNat]
  omega

theorem FixedBits.modmul (rd rs rt rm : RegIx) : FixedBits.Statement (.modmul rd rs rt rm) := by
  intro _
  simp only [fixedBits, List.forall_mem_cons, List.not_mem_nil, false_imp_iff, implies_true, and_true, encode, toNat_packRegs, BitVec.toNat_ofNat]
  omega

theorem FixedBits.modinv (rd rs rm : RegIx) : FixedBits.Statement (.modinv rd rs rm) := by
  intro _
  simp only [fixedBits, List.forall_mem_cons, List.not_mem_nil, false_imp_iff, implies_true, and_true, encode, toNat_packRegs, BitVec.toNat_ofNat]
  omega

theorem FixedBits.bitlen (rd rs : RegIx) : FixedBits.Statement (.bitlen rd rs) := by
  intro _
  simp only [fixedBits, List.forall_mem_cons, List.not_mem_nil, false_imp_iff, implies_true, and_true, encode, toNat_packRegs, BitVec.toNat_ofNat]
  omega

theorem FixedBits.getbit (rd rs rt : RegIx) : FixedBits.Statement (.getbit rd rs rt) := by
  intro _
  simp only [fixedBits, List.forall_mem_cons, List.not_mem_nil, false_imp_iff, implies_true, and_true, encode, toNat_packRegs, BitVec.toNat_ofNat]
  omega

theorem FixedBits.pisid (ps : RegIx) : FixedBits.Statement (.pisid ps) := by
  intro h
  have hs : evenField ps = true := by
    revert h; simp only [Instr.wf, Instr.operandIllegal]; split <;> simp_all
  have h1 := evenField_mod hs
  simp only [fixedBits, List.forall_mem_cons, List.not_mem_nil, false_imp_iff, implies_true, and_true, encode, toNat_packRegs, BitVec.toNat_ofNat]
  omega

theorem FixedBits.pcmp (ps pt : RegIx) : FixedBits.Statement (.pcmp ps pt) := by
  intro h
  have hs : evenField ps = true ∧ evenField pt = true := by
    revert h; simp only [Instr.wf, Instr.operandIllegal]; split <;> simp_all
  have h1 := evenField_mod hs.1
  have h2 := evenField_mod hs.2
  simp only [fixedBits, List.forall_mem_cons, List.not_mem_nil, false_imp_iff, implies_true, and_true, encode, toNat_packRegs, BitVec.toNat_ofNat]
  omega

theorem FixedBits.padd (pd ps pt : RegIx) : FixedBits.Statement (.padd pd ps pt) := by
  intro h
  have hs : evenField pd = true ∧ evenField ps = true ∧ evenField pt = true := by
    revert h; simp only [Instr.wf, Instr.operandIllegal]; split <;> simp_all
  have h1 := evenField_mod hs.1
  have h2 := evenField_mod hs.2.1
  have h3 := evenField_mod hs.2.2
  simp only [fixedBits, List.forall_mem_cons, List.not_mem_nil, false_imp_iff, implies_true, and_true, encode, toNat_packRegs, BitVec.toNat_ofNat]
  omega

theorem FixedBits.pdbl (pd ps : RegIx) : FixedBits.Statement (.pdbl pd ps) := by
  intro h
  have hs : evenField pd = true ∧ evenField ps = true := by
    revert h; simp only [Instr.wf, Instr.operandIllegal]; split <;> simp_all
  have h1 := evenField_mod hs.1
  have h2 := evenField_mod hs.2
  simp only [fixedBits, List.forall_mem_cons, List.not_mem_nil, false_imp_iff, implies_true, and_true, encode, toNat_packRegs, BitVec.toNat_ofNat]
  omega

theorem FixedBits.pmul (pd rk ps : RegIx) : FixedBits.Statement (.pmul pd rk ps) := by
  intro h
  have hs : evenField pd = true ∧ evenField ps = true := by
    revert h; simp only [Instr.wf, Instr.operandIllegal]; split <;> simp_all
  have h1 := evenField_mod hs.1
  have h2 := evenField_mod hs.2
  simp only [fixedBits, List.forall_mem_cons, List.not_mem_nil, false_imp_iff, implies_true, and_true, encode, toNat_packRegs, BitVec.toNat_ofNat]
  omega

theorem FixedBits.j (target : Imm16) : FixedBits.Statement (.j target) := by
  intro _
  simp only [fixedBits, List.forall_mem_cons, List.not_mem_nil, false_imp_iff, implies_true, and_true, encode, toNat_packImm, BitVec.toNat_ofNat]
  omega

theorem FixedBits.b (cond : FlagBits) (target : Imm16) : FixedBits.Statement (.b cond target) := by
  intro _
  simp only [fixedBits, List.forall_mem_cons, List.not_mem_nil, false_imp_iff, implies_true, and_true, encode, toNat_packCond, BitVec.toNat_ofNat]
  omega

end Sys2Proof.Laws
end

