-- ==== Sys2Proof/Laws/Point.lean ====
section
/-! SUPPORT. The point adder and the point doubler against the relations of Safety.lean: when they answer, what they answer,
and that the answer is the only one. -/

namespace Sys2Proof.Laws

open Sys2Proof Sys2Proof.Machine

/-! ### Points -/

theorem isId_iff {q : Point} : q.isId = true ↔ q = identity := by
  cases q; simp [Point.isId, identity]

theorem pointOk_identity (p : Int) : pointOk p identity := .inl rfl

/-- Reducing modulo `p` keeps the greatest common divisor with `p`. -/
theorem gcd_fmod (c p : Int) : Int.gcd (Int.fmod c p) p = Int.gcd c p := by
  rw [Int.fmod_def, show c - p * c.fdiv p = c + p * (-(c.fdiv p)) by ring]
  simp

/-- A multiple of `c` by an inverse of `d` does not depend on which inverse. -/
theorem mul_inverse_unique {p d x y c : Int} (hx : d * x % p = 1 % p) (hy : d * y % p = 1 % p) : c * x % p = c * y % p := by
  have h1 : p ∣ d * x - 1 := Int.ModEq.dvd (show 1 ≡ d * x [ZMOD p] from hx.symm)
  have h2 : p ∣ d * y - 1 := Int.ModEq.dvd (show 1 ≡ d * y [ZMOD p] from hy.symm)
  have h : p ∣ c * y - c * x := by
    have : c * y - c * x = c * x * (d * y - 1) - c * y * (d * x - 1) := by ring
    rw [this]
    exact dvd_sub (h2.mul_left _) (h1.mul_left _)
  exact ((Int.modEq_iff_dvd).2 h)

/-- The model's inverse is an inverse of the unreduced number too. -/
theorem modInverse_fmod {c p : Int} (hp : 0 < p) (h : Int.gcd c p = 1) :
    ∃ d, modInverse (Int.fmod c p) p = some d ∧ c * d % p = 1 % p := by
  obtain ⟨d, hd, -, -, he⟩ := modInverse_spec (a := Int.fmod c p) hp (by rwa [gcd_fmod c p])
  refine ⟨d, hd, ?_⟩
  rw [fmod_eq_emod c hp] at he
  rw [← he]
  exact ((Int.mod_modEq c p).mul_right d).symm

theorem modInverse_fmod_eq_none {c p : Int} (hp : 0 < p) (h : Int.gcd c p ≠ 1) : modInverse (Int.fmod c p) p = none :=
  (modInverse_eq_none hp).2 (by rwa [gcd_fmod c p])

/-- An inverse exists only where the greatest common divisor is 1. -/
theorem gcd_eq_one_of_inverse {c d p : Int} (h : c * d % p = 1 % p) : Int.gcd c p = 1 := by
  have h1 : p ∣ c * d - 1 := Int.ModEq.dvd (show 1 ≡ c * d [ZMOD p] from h.symm)
  obtain ⟨k, hk⟩ := h1
  exact Int.isCoprime_iff_gcd_eq_one.1 ⟨d, -k, by linarith [mul_comm c d, mul_comm p k]⟩

/-! ### Doubling -/

/-- The doubler answers where the inverse it needs exists, and its answer is the double. -/
theorem ecdbl_spec {p : Int} (hp : 0 < p) (a : Int) {q : Point} (h : canDouble p q) :
    ∃ r, ecdbl p a q = some r ∧ DoublesTo p a q r ∧ pointOk p r := by
  by_cases hy : q.y = 0
  · exact ⟨identity, by simp [ecdbl, hy], .inl ⟨hy, rfl⟩, pointOk_identity p⟩
  · obtain ⟨d, hd, he⟩ := modInverse_fmod hp (h.resolve_left hy)
    refine ⟨_, by simp [ecdbl, hy, Point.isId, hd]; rfl, .inr ⟨hy, d, _, he, (fmod_eq_emod _ hp), ?_, ?_⟩, .inr ⟨?_, ?_⟩⟩
    · simp only [slopePoint]
      rw [fmod_eq_emod _ hp]
      congr 1; ring
    · simp only [slopePoint]
      rw [fmod_eq_emod _ hp]
    · exact fmod_range _ hp
    · exact fmod_range _ hp

/-- The doubler answers none where the inverse it needs does not exist. -/
theorem ecdbl_eq_none {p : Int} (hp : 0 < p) (a : Int) {q : Point} (h : ¬canDouble p q) : ecdbl p a q = none := by
  obtain ⟨hy, hg⟩ := not_or.1 h
  simp [ecdbl, hy, Point.isId, modInverse_fmod_eq_none hp hg]

/-- What doubles has the inverse it needs. -/
theorem canDouble_of_doublesTo {p a : Int} {q r : Point} (h : DoublesTo p a q r) : canDouble p q := by
  rcases h with ⟨hy, -⟩ | ⟨-, d, l, hd, -⟩
  · exact .inl hy
  · exact .inr (gcd_eq_one_of_inverse hd)

/-- A point has one double. -/
theorem doublesTo_unique {p a : Int} {q r r' : Point} (h : DoublesTo p a q r) (h' : DoublesTo p a q r') : r = r' := by
  rcases h with ⟨hy, rfl⟩ | ⟨hy, d, l, hd, hl, hx, hyy⟩ <;> rcases h' with ⟨hy', rfl⟩ | ⟨hy', d', l', hd', hl', hx', hyy'⟩
  · rfl
  · exact absurd hy hy'
  · exact absurd hy' hy
  · obtain rfl : l = l' := by rw [hl, hl']; exact mul_inverse_unique hd hd'
    cases r; cases r'
    simp_all

/-! ### Adding -/

/-- The adder answers where the inverse it needs exists, and its answer is the sum. -/
theorem ecadd_spec {p : Int} (hp : 0 < p) (a : Int) {q r : Point} (hq : pointOk p q) (hr : pointOk p r) (h : canAdd p q r) :
    ∃ t, ecadd p a q r = some t ∧ AddsTo p a q r t ∧ pointOk p t := by
  by_cases h1 : q = identity
  · exact ⟨r, by simp [ecadd, isId_iff, h1], .inl ⟨h1, rfl⟩, hr⟩
  by_cases h2 : r = identity
  · exact ⟨q, by simp [ecadd, isId_iff, h1, h2], .inr (.inl ⟨h1, h2, rfl⟩), hq⟩
  by_cases h3 : q = r
  · subst h3
    have hc : canDouble p q := by
      rcases h with h | h | h | h | h
      · exact absurd h h1
      · exact absurd h h2
      · exact h.2
      · exact absurd rfl h.2
      · exact absurd rfl h.1
    obtain ⟨t, ht, hd, ho⟩ := ecdbl_spec hp a hc
    exact ⟨t, by simp [ecadd, isId_iff, h1, ht], .inr (.inr (.inl ⟨h1, h2, rfl, hd⟩)), ho⟩
  have hxy : ¬(q.x = r.x ∧ q.y = r.y) := fun e => h3 (by cases q; cases r; simp_all)
  by_cases h4 : q.x = r.x
  · have h5 : q.y ≠ r.y := fun e => hxy ⟨h4, e⟩
    exact ⟨identity, by simp [ecadd, isId_iff, h1, h2, h4, h5],
      .inr (.inr (.inr (.inl ⟨h1, h2, h4, h5, rfl⟩))), pointOk_identity p⟩
  · have hg : Int.gcd (r.x - q.x) p = 1 := by
      rcases h with h | h | h | h | h
      · exact absurd h h1
      · exact absurd h h2
      · exact absurd h.1 h3
      · exact absurd h.1 h4
      · exact h.2
    obtain ⟨d, hd, he⟩ := modInverse_fmod hp hg
    refine ⟨_, by simp [ecadd, isId_iff, h1, h2, h4, hd]; rfl,
      .inr (.inr (.inr (.inr ⟨h1, h2, h4, d, _, he, (fmod_eq_emod _ hp), ?_, ?_⟩))), .inr ⟨?_, ?_⟩⟩
    · simp only [slopePoint]
      rw [fmod_eq_emod _ hp]
    · simp only [slopePoint]
      rw [fmod_eq_emod _ hp]
    · exact fmod_range _ hp
    · exact fmod_range _ hp

/-- The adder answers none where the inverse it needs does not exist. -/
theorem ecadd_eq_none {p : Int} (hp : 0 < p) (a : Int) {q r : Point} (h : ¬canAdd p q r) : ecadd p a q r = none := by
  simp only [canAdd, not_or, not_and] at h
  obtain ⟨h1, h2, h3, h4, h5⟩ := h
  by_cases e : q = r
  · subst e
    simp [ecadd, isId_iff, h1, ecdbl_eq_none hp a (h3 rfl)]
  have hx : q.x ≠ r.x := fun hx => by
    have := h4 hx
    simp only [ne_eq, not_not] at this
    exact e (by cases q; cases r; simp_all)
  simp [ecadd, isId_iff, h1, h2, hx, modInverse_fmod_eq_none hp (h5 hx)]

/-- What adds has the inverse it needs. -/
theorem canAdd_of_addsTo {p a : Int} {q r t : Point} (h : AddsTo p a q r t) : canAdd p q r := by
  rcases h with ⟨h, -⟩ | ⟨-, h, -⟩ | ⟨-, -, h, hd⟩ | ⟨-, -, h, h', -⟩ | ⟨-, -, h, d, l, hd, -⟩
  · exact .inl h
  · exact .inr (.inl h)
  · exact .inr (.inr (.inl ⟨h, canDouble_of_doublesTo hd⟩))
  · exact .inr (.inr (.inr (.inl ⟨h, h'⟩)))
  · exact .inr (.inr (.inr (.inr ⟨h, gcd_eq_one_of_inverse hd⟩)))

/-- Two points have one sum. -/
theorem addsTo_unique {p a : Int} {q r t t' : Point} (h : AddsTo p a q r t) (h' : AddsTo p a q r t') : t = t' := by
  by_cases h1 : q = identity
  · simp only [AddsTo, h1, true_and, ne_eq, not_true, false_and, or_false] at h h'
    exact h.trans h'.symm
  by_cases h2 : r = identity
  · simp only [AddsTo, h1, h2, ne_eq, true_and, not_true, false_and, or_false, false_or, not_false_eq_true, and_false] at h h'
    exact h.trans h'.symm
  by_cases h3 : q = r
  · subst h3
    simp only [AddsTo, h1, ne_eq, true_and, not_true, false_and, or_false, false_or, not_false_eq_true, and_false] at h h'
    exact doublesTo_unique h h'
  by_cases h4 : q.x = r.x
  · simp only [AddsTo, h1, h2, h3, h4, ne_eq, true_and, not_true, false_and, or_false, false_or, not_false_eq_true] at h h'
    exact h.2.trans h'.2.symm
  · simp only [AddsTo, h1, h2, h3, h4, ne_eq, true_and, false_and, false_or, not_false_eq_true] at h h'
    obtain ⟨d, l, hd, hl, hx, hy⟩ := h
    obtain ⟨d', l', hd', hl', hx', hy'⟩ := h'
    obtain rfl : l = l' := by rw [hl, hl']; exact mul_inverse_unique hd hd'
    cases t; cases t'
    simp_all

end Sys2Proof.Laws
end

