-- ==== Sys2Proof/Tests/Slice0.lean ====
section
/-! SUPPORT. Tests of the model, and for each statement with hypotheses a witness that they can be met. Expected results are the
spec's: the vectors of 95_test_vectors.md (V and H numbers) and the examples of the rules; words are written out from
30_encoding.md R78 and R82. -/

namespace Sys2Proof.Tests
set_option Elab.async false

open Sys2Proof Sys2Proof.Machine

/-! ### Well-formedness: an ill-formed term for each check (30_encoding.md R84, cases 3 to 5) -/

theorem test_wf_pisid_odd : (Instr.pisid 5).wf = false := by decide
theorem test_wf_pcmp_odd : (Instr.pcmp 1 2).wf = false ∧ (Instr.pcmp 2 1).wf = false := by decide
theorem test_wf_padd_odd : (Instr.padd 1 2 4).wf = false ∧ (Instr.padd 2 1 4).wf = false ∧ (Instr.padd 2 4 1).wf = false := by
  decide
theorem test_wf_pdbl_odd : (Instr.pdbl 1 2).wf = false ∧ (Instr.pdbl 2 1).wf = false := by decide
theorem test_wf_pmul_odd : (Instr.pmul 1 2 4).wf = false ∧ (Instr.pmul 2 4 1).wf = false := by decide
theorem test_wf_pmul_scalar_may_be_odd : (Instr.pmul 8 3 6).wf = true := by decide
theorem test_wf_movc_index : (Instr.movc 1 6).wf = false ∧ (Instr.movc 1 5).wf = true := by decide
theorem test_wf_divrem_same : (Instr.divrem 3 3 1 2).wf = false ∧ (Instr.divrem 3 4 3 4).wf = true := by decide

/-! ### Decoding: opcode, fa, fb, fc, fd, zero bits -/

theorem test_decode_nop : decode 0b00000000_0000_0000_0000000000000000 = .ok .nop := by decide
theorem test_decode_halt : decode 0b00000001_0000_0000_0000000000000000 = .ok .halt := by decide
theorem test_decode_mov : decode 0b00000010_0001_0010_0000000000000000 = .ok (.mov 1 2) := by decide
theorem test_decode_ldi : decode 0b00000011_0011_0000_1111111111111110 = .ok (.ldi 3 0xFFFE) := by decide
theorem test_decode_movc : decode 0b00000100_1110_0011_0000000000000000 = .ok (.movc 14 3) := by decide
theorem test_decode_ld : decode 0b00001000_0001_0000_0000000000010000 = .ok (.ld 1 16) := by decide
theorem test_decode_st : decode 0b00001001_0010_0000_0000000011001000 = .ok (.st 2 200) := by decide
theorem test_decode_cmp : decode 0b00010000_0001_0010_0000000000000000 = .ok (.cmp 1 2) := by decide
theorem test_decode_cmpm : decode 0b00010001_0001_0010_0000000000000000 = .ok (.cmpm 1 2) := by decide
theorem test_decode_add : decode 0b00010010_0011_0001_0010_000000000000 = .ok (.add 3 1 2) := by decide
theorem test_decode_sub : decode 0b00010011_0011_0001_0010_000000000000 = .ok (.sub 3 1 2) := by decide
theorem test_decode_mul : decode 0b00010100_0011_0001_0010_000000000000 = .ok (.mul 3 1 2) := by decide
theorem test_decode_divrem : decode 0b00010101_0011_0100_0001_0010_00000000 = .ok (.divrem 3 4 1 2) := by decide
theorem test_decode_mod : decode 0b00010110_0011_0001_0010_000000000000 = .ok (.mod 3 1 2) := by decide
theorem test_decode_modadd : decode 0b00011000_0100_0001_0010_0011_00000000 = .ok (.modadd 4 1 2 3) := by decide
theorem test_decode_modsub : decode 0b00011001_0100_0001_0010_0011_00000000 = .ok (.modsub 4 1 2 3) := by decide
theorem test_decode_modmul : decode 0b00011010_0100_0001_0010_0011_00000000 = .ok (.modmul 4 1 2 3) := by decide
theorem test_decode_modinv : decode 0b00011011_0011_0001_0010_000000000000 = .ok (.modinv 3 1 2) := by decide
theorem test_decode_bitlen : decode 0b00011100_0010_0001_0000000000000000 = .ok (.bitlen 2 1) := by decide
theorem test_decode_getbit : decode 0b00011101_0011_0001_0010_000000000000 = .ok (.getbit 3 1 2) := by decide
theorem test_decode_pisid : decode 0b00100000_0100_00000000000000000000 = .ok (.pisid 4) := by decide
theorem test_decode_pcmp : decode 0b00100001_0100_0110_0000000000000000 = .ok (.pcmp 4 6) := by decide
theorem test_decode_padd : decode 0b00100010_1000_0100_0110_000000000000 = .ok (.padd 8 4 6) := by decide
theorem test_decode_pdbl : decode 0b00100011_1000_0100_0000000000000000 = .ok (.pdbl 8 4) := by decide
theorem test_decode_pmul : decode 0b00100100_1000_0011_0110_000000000000 = .ok (.pmul 8 3 6) := by decide
theorem test_decode_j : decode 0b00110000_00000000_0000000100101100 = .ok (.j 300) := by decide
theorem test_decode_b : decode 0b00110001_101_00000_0000000000000101 = .ok (.b 5 5) := by decide

/-- V170, V180 and the ends of the unassigned ranges of R83. -/
theorem test_decode_unassigned :
    [0x05000000#32, 0x07000000#32, 0x0A000000#32, 0x0F000000#32, 0x17000000#32, 0x1E000000#32, 0x1F000000#32].all
        (fun w => decode w == .error .unassignedOpcode) = true ∧
      [0x25000000#32, 0x2F000000#32, 0x32000000#32, 0xFF000000#32].all
        (fun w => decode w == .error .unassignedOpcode) = true := by decide
/-- V171, V172, V175, V176, V179, V181. -/
theorem test_decode_must_be_zero :
    [0x00000001#32, 0x01800000#32, 0x03110005#32, 0x31010005#32, 0x12312001#32, 0x1C120100#32].all
      (fun w => decode w == .error .mustBeZero) = true := by decide
/-- V173, V177. -/
theorem test_decode_odd_point :
    decode 0x22123000 = .error .oddPoint ∧ decode 0x20500000 = .error .oddPoint := by decide
/-- V147, V174. -/
theorem test_decode_operands :
    decode 0x04160000 = .error .curveIndex ∧ decode 0x15331200 = .error .sameDestination := by decide
/-- R86: a must-be-zero bit is reported before an odd point field. -/
theorem test_decode_order : decode 0x20500001 = .error .mustBeZero := by decide
/-- Four bytes, the least significant first (20_memory.md R63). -/
theorem test_decode_bytes : decodeBytes [0x00, 0x20, 0x31, 0x12] = some (.add 3 1 2) := by decide
theorem test_decode_table_word : decodeTableWord 32 0x31A00005 = some (.b 5 5) := by decide

/-! ### Small states -/

/-- A running engine with these curve values (C0 first, the rest 0) and these registers, the rest as after reset. -/
def at_ (cs : List Int) (rs : List (RegIx × Int)) : State :=
  rs.foldl (fun s r => s.setReg r.1 r.2)
    { State.reset with
      busy := true
      curve := #v[BigReg.ofInt (cs.getD 0 0), BigReg.ofInt (cs.getD 1 0), BigReg.ofInt (cs.getD 2 0),
        BigReg.ofInt (cs.getD 3 0), BigReg.ofInt (cs.getD 4 0), BigReg.ofInt (cs.getD 5 0)] }

/-- The toy curve of the vectors: p = 17, a = 2, b = 2, n = 19, G = (5, 1). -/
def toy : List Int := [17, 2, 2, 19, 5, 1]

/-- MAXMAG. -/
def maxV : Int := 2 ^ 576 - 1

/-- What one step of the word `w` leaves: the values asked for, or none where the engine stopped. -/
def vals (w : Nat) (s : State) (rs : List RegIx) : Option (List Int) :=
  match step (s.withFetchWord 32 w) with
  | .next t => if t.err then none else some (rs.map t.val)
  | _ => none

/-- FLAGS after one step of the word `w`. -/
def flagsOf (w : Nat) (s : State) : Option FlagBits :=
  match step (s.withFetchWord 32 w) with
  | .next t => if t.err then none else some t.flags
  | _ => none

/-- The error record after one step of the word `w`: ECODE, EPC, EINSN, and whether every register is as before. -/
def errOf (w : Nat) (s : State) : Option (BitVec 4 × PcWord × InsnWord × Bool) :=
  match step (s.withFetchWord 32 w) with
  | .next t => if t.err && !t.busy then some (t.ecode, t.epc, t.einsn, t.regs == s.regs) else none
  | _ => none

/-- PC, BUSY and DONE after one step of the word `w`. -/
def runOf (w : Nat) (s : State) : Option (PcWord × Bool × Bool) :=
  match step (s.withFetchWord 32 w) with
  | .next t => some (t.pc, t.busy, t.done)
  | _ => none

/-- DMEM with these words from index `a` up. -/
def dmemFrom (a : Nat) (ws : List Digit) (s : State) : State := { s with dmem := memWrite s.dmem a ws }

/-- The DMEM words after one step of the word `w`. -/
def wordsOf (w : Nat) (s : State) (a n : Nat) : Option (List Digit) :=
  match step (s.withFetchWord 32 w) with
  | .next t => memRead t.dmem a n
  | _ => none

/-! ### One step of each instruction -/

/-- R160. -/
theorem test_nop : runOf 0x00000000 { at_ [] [] with pc := 4 } = some (5, true, false) := by decide +kernel
/-- R161. -/
theorem test_halt : runOf 0x01000000 { at_ [] [] with pc := 12 } = some (12, false, true) := by decide +kernel
/-- V140. -/
theorem test_mov : vals 0x02120000 (at_ [] [(2, -9)]) [1] = some [-9] := by decide +kernel
/-- R150: a stored negative zero is copied as +0. -/
theorem test_mov_negative_zero :
    (match exec (.mov 1 2) ((at_ [] []).setBigReg 2 { BigReg.zero with sign := true }) with
     | .next t => (t.bigReg 1).sign
     | _ => true) = false := by decide +kernel
/-- V142, V143. -/
theorem test_ldi : vals 0x0330FFFE (at_ [] []) [3] = some [-2] ∧ vals 0x03308000 (at_ [] []) [3] = some [-32768] := by
  decide +kernel
/-- V145. -/
theorem test_movc : vals 0x04E30000 (at_ toy []) [14] = some [19] := by decide +kernel
/-- V147. -/
theorem test_movc_illegal : errOf 0x04160000 (at_ toy []) = some (1, 0, 0x04160000, true) := by decide +kernel
/-- V150. -/
theorem test_ld : vals 0x08100010 (dmemFrom 16 [1, 7, 0, 0, 0, 0, 0, 0, 0, 0] (at_ [] [])) [1] = some [-7] := by
  decide +kernel
/-- V155. -/
theorem test_ld_address : errOf 0x0810FFFF (at_ [] []) = some (3, 0, 0x0810FFFF, true) := by decide +kernel
/-- V151. -/
theorem test_st :
    wordsOf 0x09100000 (at_ [] [(1, 2 ^ 64 + 5)]) 0 10 = some [0x200, 5, 1, 0, 0, 0, 0, 0, 0, 0] := by decide +kernel
/-- V152. -/
theorem test_st_negative :
    wordsOf 0x09100064 (at_ [] [(1, -maxV)]) 100 3 = some [0x901, 0xFFFFFFFFFFFFFFFF, 0xFFFFFFFFFFFFFFFF] := by
  decide +kernel
/-- V3. -/
theorem test_cmp_negative_zero :
    flagsOf 0x10120000 ((at_ [] []).setBigReg 1 { BigReg.zero with sign := true }) = some 0b010 := by decide +kernel
/-- V5. -/
theorem test_cmp : flagsOf 0x10120000 (at_ [] [(1, -2 ^ 64), (2, -1)]) = some 0b001 := by decide +kernel
/-- V7. -/
theorem test_cmpm : flagsOf 0x11120000 (at_ [] [(1, -5), (2, 3)]) = some 0b100 := by decide +kernel
/-- V8. -/
theorem test_cmpm_equal : flagsOf 0x11120000 (at_ [] [(1, -7), (2, 7)]) = some 0b010 := by decide +kernel
/-- V9. -/
theorem test_add_carries : vals 0x12312000 (at_ [] [(1, 2 ^ 64 - 1), (2, 1)]) [3] = some [2 ^ 64] := by decide +kernel
/-- V11. -/
theorem test_add_overflows : errOf 0x12312000 (at_ [] [(1, maxV), (2, 1)]) = some (4, 0, 0x12312000, true) := by
  decide +kernel
/-- V20. -/
theorem test_sub_borrows : vals 0x13312000 (at_ [] [(1, 2 ^ 128), (2, 1)]) [3] = some [2 ^ 128 - 1] := by decide +kernel
/-- V22. -/
theorem test_sub_fits : vals 0x13312000 (at_ [] [(1, -maxV), (2, -1)]) [3] = some [-(2 ^ 576 - 2)] := by decide +kernel
/-- V23. -/
theorem test_mul : vals 0x14312000 (at_ [] [(1, 2 ^ 64 - 1), (2, 2 ^ 64 - 1)]) [3] =
    some [0xFFFFFFFFFFFFFFFE0000000000000001] := by decide +kernel
/-- V27. -/
theorem test_mul_overflows : errOf 0x14312000 (at_ [] [(1, 2 ^ 288), (2, 2 ^ 288)]) = some (4, 0, 0x14312000, true) := by
  decide +kernel
/-- V33. -/
theorem test_divrem : vals 0x15341200 (at_ [] [(1, 7), (2, -2)]) [3, 4] = some [-4, -1] := by decide +kernel
/-- V41: the destinations are the sources. -/
theorem test_divrem_aliased : vals 0x15121200 (at_ [] [(1, -100), (2, 7)]) [1, 2] = some [-15, 5] := by decide +kernel
/-- V44. -/
theorem test_mod_negative : vals 0x16312000 (at_ [] [(1, 7), (2, -5)]) [3] = some [-3] := by decide +kernel
/-- V182: E_ILLEGAL comes before E_DIVZERO. -/
theorem test_mod_illegal_first : errOf 0x16312001 (at_ [] [(1, 7)]) = some (1, 0, 0x16312001, true) := by decide +kernel
/-- V61. -/
theorem test_modadd : vals 0x18412300 (at_ [] [(1, -20), (2, 3), (3, 17)]) [4] = some [0] := by decide +kernel
/-- V66: E_MODULUS comes before E_OVERFLOW. -/
theorem test_modadd_order :
    errOf 0x18412300 (at_ [] [(1, maxV), (2, 1), (3, -17)]) = some (6, 0, 0x18412300, true) := by decide +kernel
/-- V68. -/
theorem test_modsub : vals 0x19412300 (at_ [] [(1, 3), (2, 5), (3, 17)]) [4] = some [15] := by decide +kernel
/-- V71. -/
theorem test_modsub_overflows :
    errOf 0x19412300 (at_ [] [(1, -maxV), (2, 1), (3, 17)]) = some (4, 0, 0x19412300, true) := by decide +kernel
/-- V73. -/
theorem test_modmul : vals 0x1A412300 (at_ [] [(1, -5), (2, 7), (3, 17)]) [4] = some [16] := by decide +kernel
/-- V76. -/
theorem test_modmul_zero_modulus : errOf 0x1A412300 (at_ [] [(2, 7)]) = some (5, 0, 0x1A412300, true) := by decide +kernel
/-- V78. -/
theorem test_modinv : vals 0x1B312000 (at_ [] [(1, -5), (2, 17)]) [3] = some [10] := by decide +kernel
/-- V81. -/
theorem test_modinv_one : vals 0x1B312000 (at_ [] [(1, 10), (2, 1)]) [3] = some [0] := by decide +kernel
/-- V50. -/
theorem test_bitlen : vals 0x1C210000 (at_ [] [(1, -2 ^ 64)]) [2] = some [65] := by decide +kernel
/-- V51. -/
theorem test_bitlen_full : vals 0x1C210000 (at_ [] [(1, maxV)]) [2] = some [576] := by decide +kernel
/-- V53. -/
theorem test_getbit : vals 0x1D312000 (at_ [] [(1, -5), (2, 0)]) [3] = some [1] := by decide +kernel
/-- V56. -/
theorem test_getbit_negative_index : errOf 0x1D312000 (at_ [] [(1, 5), (2, -1)]) = some (8, 0, 0x1D312000, true) := by
  decide +kernel
/-- V91. -/
theorem test_pisid : flagsOf 0x20400000 (at_ toy [(5, 5)]) = some 0b100 := by decide +kernel
/-- V92. -/
theorem test_pisid_without_curve : flagsOf 0x20400000 (at_ [] []) = some 0b010 := by decide +kernel
/-- V96: integers are compared, not residues. -/
theorem test_pcmp : flagsOf 0x21460000 (at_ toy [(4, 5), (5, 1), (6, 22), (7, 1)]) = some 0b100 := by decide +kernel
/-- V97. -/
theorem test_pcmp_equal : flagsOf 0x21440000 (at_ toy [(4, 5), (5, 1)]) = some 0b010 := by decide +kernel
/-- V98. -/
theorem test_padd : vals 0x22846000 (at_ toy [(4, 5), (5, 1), (6, 6), (7, 3)]) [8, 9] = some [10, 6] := by decide +kernel
/-- V108: the modulus check comes before the identity shortcut. -/
theorem test_padd_modulus : errOf 0x22846000 (at_ [-17] []) = some (6, 0, 0x22846000, true) := by decide +kernel
/-- V112. -/
theorem test_pdbl : vals 0x23440000 (at_ toy [(4, 5), (5, 1)]) [4, 5] = some [6, 3] := by decide +kernel
/-- V115. -/
theorem test_pdbl_no_inverse : errOf 0x23840000 (at_ [15, 2] [(4, 1), (5, 3)]) = some (7, 0, 0x23840000, true) := by
  decide +kernel
/-- V126: the scalar is inside the destination pair. -/
theorem test_pmul : vals 0x24012000 (at_ toy [(1, 7), (2, 5), (3, 1)]) [0, 1] = some [0, 6] := by decide +kernel
/-- V118, V121. -/
theorem test_pmul_order_and_sign :
    vals 0x24816000 (at_ toy [(1, 19), (6, 5), (7, 1)]) [8, 9] = some [0, 0] ∧
      vals 0x24816000 (at_ toy [(1, -7), (6, 5), (7, 1)]) [8, 9] = some [0, 6] := by decide +kernel
/-- V165, the jump itself. -/
theorem test_j : runOf 0x3000012C (at_ [] []) = some (300, true, false) := by decide +kernel
/-- R163's example. -/
theorem test_b :
    runOf 0x31200005 { at_ [] [] with pc := 10, flags := 0b001 } = some (5, true, false) ∧
      runOf 0x31C00005 { at_ [] [] with pc := 10, flags := 0b001 } = some (11, true, false) := by decide +kernel

/-! ### The host -/

/-- The state and the response after the host events `es`, from `s`. -/
def host (s : State) (es : List PortEvent) : Option (State × Option BusResponse) :=
  match sys2Run es.length { s with ports := es } with
  | .next t => some (t, t.response)
  | _ => none
where
  sys2Run : Nat → State → Res
    | 0, s => .next s
    | n + 1, s =>
      match step s with
      | .next t => sys2Run n t
      | r => r

/-- A platform with the window at 0xFE000000, which shows a bus error as code 2. -/
def platform : Params := { Params.default with base := 0xFE000000, hostBus := ⟨⟨2, 0⟩, ⟨2, 0⟩, some ⟨3, 0⟩⟩ }

/-- A host read and a host write at an offset of that window. -/
def rd (width : Nat) (o : Offset) : PortEvent := .read width (platform.hostAddr o)
def wr (width : Nat) (o : Offset) (data : BitVec 64) : PortEvent := .write width (platform.hostAddr o) data

/-- The block on that platform right after reset. -/
def fresh : State := { State.reset with params := platform }

/-- H3: a stored negative zero reads back as stored. -/
theorem test_header_negative_zero :
    (host fresh [wr 64 0x01180 1, rd 64 0x01180]).map (·.2) = some (some (.data 64 0x101)) := by decide +kernel
/-- H5: a locked curve slot refuses the write. -/
theorem test_curve_lock :
    (host fresh [wr 64 0x02008 17, wr 64 0x00010 4, wr 64 0x02008 19, rd 64 0x00018]).map (·.2) =
      some (some (.data 64 0x8)) := by decide +kernel
/-- 70_reset_and_hazards.md R204, steps 4 to 7: the host loads one HALT and starts it; the engine then ends the run. -/
theorem test_boot :
    (host fresh [wr 32 0x40030 0x01000000, wr 64 0x00020 12, wr 64 0x00010 3, .quiet, rd 64 0x00018]).map
      (fun t => (t.2, t.1.pc, irq t.1)) = some (some (.data 64 0x2), 12, true) := by decide +kernel
/-- R35. -/
theorem test_config : (host fresh [rd 64 0x00008]).map (·.2) = some (some (.data 64 0x03FF00FF06100409)) := by
  decide +kernel
/-- R51, R54: the last byte address below the window and the first above it are not the block's; a misaligned one is an error. -/
theorem test_base :
    (host fresh [.read 32 0xFDFFFFFC, .read 32 0xFE100000]).map (·.2) = some none ∧
      (host fresh [.read 64 0xFE000004]).map (·.2) = some (some (.busError ⟨2, 0⟩)) := by decide +kernel

/-! ### Witnesses: for each statement with hypotheses, states and operands that meet them, at the ends of each clause's range -/

theorem test_hyp_DecodeInvertsEncode :
    (Instr.pmul 14 15 0).wf = true ∧ (Instr.movc 15 5).wf = true ∧ (Instr.divrem 15 14 15 15).wf = true := by decide

theorem test_hyp_EncodeInvertsDecode :
    decode 0x31E0FFFF = .ok (.b 7 0xFFFF) ∧ decode 0x1AFFFF00 = .ok (.modmul 15 15 15 15) := by decide

/-- An engine running at `pc` with the word `w` there. -/
def fetching (w : InsnWord) (pc : PcWord) : State :=
  { at_ [] [] with pc := pc, imem := writeBytes [] (4 * pc.toNat) (leBytes 4 w.toNat) }

/-- One word for each case of R84, at the last word of IMEM. -/
theorem test_hyp_IllegalWords :
    [0x32000000#32, 0x0000_0001#32, 0x2010_0000#32, 0x0406_0000#32, 0x1533_0000#32].all (fun w =>
      decide ((∀ r ∈ opcodeRows, w.extractLsb' 24 8 ≠ r.op) ∨
        (∃ r ∈ opcodeRows, w.extractLsb' 24 8 = r.op ∧ w &&& r.zeros ≠ 0) ∨
        (∃ r ∈ opcodeRows, w.extractLsb' 24 8 = r.op ∧ w &&& r.odd ≠ 0) ∨
        (w.extractLsb' 24 8 = 0x04 ∧ 5 < (w.extractLsb' 16 4).toNat) ∨
        (w.extractLsb' 24 8 = 0x15 ∧ w.extractLsb' 20 4 = w.extractLsb' 16 4)) &&
      decide ((fetching w 255).running ∧ (fetching w 255).pc.toNat < (fetching w 255).params.imemWords ∧
        imemWord (fetching w 255).imem (fetching w 255).pc.toNat = some w)) = true := by decide +kernel
theorem test_hyp_IllegalWords_legal : ¬illegalWord 0x31E0FFFF := by unfold illegalWord; decide +kernel

/-- A word for each clause of DecodeRejectsInOrder. -/
theorem test_hyp_DecodeRejectsInOrder :
    (∀ r ∈ opcodeRows, (0xFF000000#32).extractLsb' 24 8 ≠ r.op) ∧
      (∃ r ∈ opcodeRows, (0x20500001#32).extractLsb' 24 8 = r.op ∧ 0x20500001#32 &&& r.zeros ≠ 0) ∧
      (∃ r ∈ opcodeRows, (0x22123000#32).extractLsb' 24 8 = r.op ∧ 0x22123000#32 &&& r.zeros = 0 ∧
        0x22123000#32 &&& r.odd ≠ 0) ∧
      (∃ r ∈ opcodeRows, (0x04160000#32).extractLsb' 24 8 = r.op ∧ 0x04160000#32 &&& r.zeros = 0 ∧ r.op = 0x04 ∧
        5 < ((0x04160000#32).extractLsb' 16 4).toNat) ∧
      (∃ r ∈ opcodeRows, (0x15331200#32).extractLsb' 24 8 = r.op ∧ 0x15331200#32 &&& r.zeros = 0 ∧ r.op = 0x15 ∧
        (0x15331200#32).extractLsb' 20 4 = (0x15331200#32).extractLsb' 16 4) := by decide +kernel

theorem test_hyp_StepRuns :
    let s := fetching 0x12312000 255
    (s.rstN = true ∧ s.busy = true ∧ s.pc.toNat < s.params.imemWords ∧ imemWord s.imem s.pc.toNat = some 0x12312000 ∧
      decode 0x12312000 = .ok (.add 3 1 2) ∧ s.ports = []) ∧
    { s with ports := [.quiet, .quiet] }.ports = .quiet :: [.quiet] := by decide +kernel

theorem test_hyp_FetchBeyond :
    [256#16, 0xFFFF#16].all (fun pc =>
      decide ((fetching 0 pc).running ∧ (fetching 0 pc).params.imemWords ≤ (fetching 0 pc).pc.toNat)) = true := by
  decide +kernel

/-- The last word of IMEM with three bytes written; the last record of DMEM with one byte unwritten. -/
theorem test_hyp_UnwrittenWordsFault :
    (let s := { at_ [] [] with pc := 255, imem := writeBytes [] 1020 [0, 0, 0] }
     s.running ∧ s.pc.toNat < s.params.imemWords ∧ ∃ k < 4, readByte s.imem (4 * s.pc.toNat + k) = none) ∧
    (let s := { at_ [] [] with dmem := writeBytes [] 8112 (List.replicate 79 0) }
     recordIndex 1014 + 10 ≤ s.params.dmemWords ∧ ∃ k < 80, readByte s.dmem (8 * recordIndex 1014 + k) = none) := by
  decide +kernel

theorem test_hyp_IdleEngine :
    State.reset.busy = false ∧ State.reset.ports = [] ∧ { at_ [] [] with rstN := false }.rstN = false ∧
      { State.reset with ports := [.quiet] }.ports = [.quiet] := by decide +kernel

theorem test_hyp_PlacedWordRuns :
    0 < State.reset.params.imemWords ∧ decodeTableWord 32 0x24816000 = some (.pmul 8 1 6) := by decide +kernel

/-- Taken, not taken, and a target just beyond IMEM. -/
theorem test_hyp_NopJumpAndBranch :
    let s := { at_ [] [] with flags := 0b001 }
    s.running ∧ s.params.imemWords ≤ (256 : Imm16).toNat ∧ s.flags &&& 0b001 ≠ 0 ∧ s.flags &&& 0b110 = 0 := by
  decide +kernel

theorem test_hyp_Halt : { at_ [] [] with ie := true }.ie = true := by decide +kernel

theorem test_hyp_Moves : (5 : BitVec 4).toNat < 6 ∧ 5 < (6 : BitVec 4).toNat := by decide

/-- The last record that exists, and the first that does not. -/
theorem test_hyp_Load :
    let s := dmemFrom 1014 (List.replicate 10 7) (at_ [] [])
    (recordIndex 1014 + 10 ≤ s.params.dmemWords ∧
      ∀ k < 10, dmemWord s.dmem (recordIndex 1014 + k) = some ((fun _ => 7 : Nat → Digit) k)) ∧
    s.params.dmemWords < recordIndex 1015 + 10 ∧
    ∃ k < 10, ∀ b < 8, readByte (at_ [] []).dmem (8 * (recordIndex 1014 + k) + b) = none := by decide +kernel

theorem test_hyp_Store :
    recordIndex 1014 + 10 ≤ State.reset.params.dmemWords ∧ State.reset.params.dmemWords < recordIndex 1015 + 10 := by
  decide +kernel

theorem test_hyp_Compares :
    let s := at_ [] [(1, -8), (2, 7), (3, 7)]
    s.val 1 < s.val 2 ∧ s.val 2 = s.val 3 ∧ s.val 1 < s.val 3 ∧ (s.val 2).natAbs < (s.val 1).natAbs ∧
      (s.val 2).natAbs = (s.val 3).natAbs := by decide +kernel

/-- Results at MAXMAG and one above it. -/
theorem test_hyp_AddSubMul :
    let s := at_ [] [(1, maxV), (2, 1), (3, -1), (4, 2 ^ 288), (5, 2 ^ 288 - 1), (6, 2 ^ 256 - 1)]
    (s.val 1 + s.val 0).natAbs ≤ 2 ^ 576 - 1 ∧ 2 ^ 576 - 1 < (s.val 1 + s.val 2).natAbs ∧
      (s.val 1 - s.val 2).natAbs ≤ 2 ^ 576 - 1 ∧ 2 ^ 576 - 1 < (s.val 1 - s.val 3).natAbs ∧
      (s.val 1 * s.val 3).natAbs ≤ 2 ^ 576 - 1 ∧ (s.val 4 * s.val 5).natAbs ≤ 2 ^ 576 - 1 ∧
      2 ^ 576 - 1 < (s.val 4 * s.val 4).natAbs ∧ (s.val 6).natAbs < 2 ^ 256 := by decide +kernel

theorem test_hyp_Division :
    let s := at_ [] [(2, -7)]
    (3 : RegIx) ≠ 4 ∧ s.val 2 ≠ 0 ∧ s.val 1 = 0 ∧ (3 : RegIx) = 3 := by decide +kernel

theorem test_hyp_BitLengthAndBit :
    let s := at_ [] [(1, -5), (2, 576), (3, -1)]
    s.val 0 = (0 : Nat) ∧ s.val 2 = (576 : Nat) ∧ s.val 3 < 0 := by decide +kernel

/-- Modulus 0, -1 and 1; an unreduced result at MAXMAG and one above. -/
theorem test_hyp_ModularResults :
    let s := at_ [] [(1, maxV), (2, 1), (3, -1), (4, 2 ^ 288)]
    s.val 0 = 0 ∧ s.val 3 < 0 ∧ 0 < s.val 2 ∧ 2 ^ 576 - 1 < (s.val 1 + s.val 2).natAbs ∧
      (s.val 1 + s.val 0).natAbs ≤ 2 ^ 576 - 1 ∧ 2 ^ 576 - 1 < (s.val 1 - s.val 3).natAbs ∧
      (s.val 1 - s.val 0).natAbs ≤ 2 ^ 576 - 1 ∧ 2 ^ 576 - 1 < (s.val 4 * s.val 4).natAbs ∧
      (s.val 1 * s.val 2).natAbs ≤ 2 ^ 576 - 1 := by decide +kernel

/-- Modulus 0, -1, 1 (every value has an inverse), 15 (3 has none, 2 has 8). -/
theorem test_hyp_Modinv :
    let s := at_ [] [(1, 1), (2, 2), (3, 3), (4, 15), (5, -1)]
    s.val 0 = 0 ∧ s.val 5 < 0 ∧ 0 < s.val 1 ∧ Int.gcd (s.val 0) (s.val 1) = 1 ∧ 0 < s.val 4 ∧
      Int.gcd (s.val 3) (s.val 4) ≠ 1 ∧ Int.gcd (s.val 2) (s.val 4) = 1 ∧ s.val 2 * 8 % s.val 4 = 1 % s.val 4 := by
  decide +kernel

theorem test_hyp_PointTests :
    let s := at_ [] [(4, 5), (5, 1), (6, 5), (7, 1), (8, 5)]
    evenField 14 = true ∧ evenField 15 = false ∧ (s.val 14 = 0 ∧ s.val (14 + 1) = 0) ∧
      ¬(s.val 4 = 0 ∧ s.val (4 + 1) = 0) ∧ (s.val 4 = s.val 6 ∧ s.val (4 + 1) = s.val (6 + 1)) ∧
      ¬(s.val 4 = s.val 8 ∧ s.val (4 + 1) = s.val (8 + 1)) := by decide +kernel

/-- p = 0, p = -1, and p = 17 with coordinates p and p - 1. -/
theorem test_hyp_PointUnitChecks :
    (Instr.padd 8 4 6).wf = true ∧ (Instr.pdbl 14 0).wf = true ∧ (Instr.pmul 8 15 6).wf = true ∧
      (at_ [] []).curve[0].value = 0 ∧ (at_ [-1] []).curve[0].value < 0 ∧ 0 < (at_ toy []).curve[0].value ∧
      (∃ q ∈ [(at_ toy [(4, 17)]).point 4], ¬pointOk 17 q) ∧
      (∃ q ∈ [(at_ toy [(5, -1)]).point 6, (at_ toy [(5, -1)]).point 4], ¬pointOk 17 q) ∧
      ∀ q ∈ [(at_ toy [(4, 16), (5, 16)]).point 4, (at_ toy []).point 6], pointOk 17 q := by
  unfold pointOk; decide +kernel

/-- Over p = 17 the double of (5, 1) exists; over p = 15 that of (1, 3) does not; p = 1 admits the identity only. -/
theorem test_hyp_Pdbl :
    (Instr.pdbl 8 4).wf = true ∧ 0 < (at_ toy []).curve[0].value ∧ pointOk 17 ((at_ toy [(4, 5), (5, 1)]).point 4) ∧
      canDouble 17 ((at_ toy [(4, 5), (5, 1)]).point 4) ∧ 0 < (at_ [15] []).curve[0].value ∧
      pointOk 15 ((at_ [15] [(4, 1), (5, 3)]).point 4) ∧ ¬canDouble 15 ((at_ [15] [(4, 1), (5, 3)]).point 4) ∧
      pointOk 1 ((at_ [1] []).point 4) ∧ canDouble 1 ((at_ [1] []).point 4) := by
  unfold pointOk canDouble; decide +kernel

/-- Over p = 17: two points, an identity, a point with itself, a point with its inverse. -/
theorem test_hyp_Padd :
    canAdd 17 ⟨5, 1⟩ ⟨6, 3⟩ ∧ canAdd 17 identity ⟨6, 3⟩ ∧ canAdd 17 ⟨5, 1⟩ identity ∧ canAdd 17 ⟨5, 1⟩ ⟨5, 1⟩ ∧
      canAdd 17 ⟨5, 1⟩ ⟨5, 16⟩ ∧ pointOk 17 ⟨5, 1⟩ ∧ pointOk 17 ⟨6, 3⟩ ∧ (Instr.padd 8 4 6).wf = true ∧
      (at_ toy [(4, 5), (5, 1)]).point 4 = ⟨5, 1⟩ ∧ 0 < (at_ toy []).curve[0].value := by
  refine ⟨?_, ?_, ?_, ?_, ?_, ?_, ?_, by decide, by decide +kernel, by decide +kernel⟩ <;>
    first | (unfold canAdd canDouble; decide) | (unfold pointOk; decide)
/-- Over p = 15 the difference 3 has no inverse. -/
theorem test_hyp_Padd_noInv :
    0 < (at_ [15] []).curve[0].value ∧ pointOk 15 ⟨1, 3⟩ ∧ pointOk 15 ⟨4, 3⟩ ∧ ¬canAdd 15 ⟨1, 3⟩ ⟨4, 3⟩ := by
  unfold pointOk canAdd canDouble; decide +kernel

/-- Two times (5, 1) over p = 17 is (6, 3), and 0 times it the identity. -/
theorem test_hyp_Pmul :
    (Instr.pmul 8 1 6).wf = true ∧ 0 < (at_ toy []).curve[0].value ∧ pointOk 17 ⟨5, 1⟩ ∧
      MulsTo 17 2 ⟨5, 1⟩ 0 identity ∧ MulsTo 17 2 ⟨5, 1⟩ 2 ⟨6, 3⟩ := by
  refine ⟨by decide, by decide +kernel, by unfold pointOk; decide, .zero, ?_⟩
  have one : MulsTo 17 2 ⟨5, 1⟩ (2 * 0 + 1) ⟨5, 1⟩ :=
    .doubleAdd (r := identity) (r' := identity) .zero (.inl ⟨rfl, rfl⟩) (.inl ⟨rfl, rfl⟩)
  exact MulsTo.double (by decide) one (.inr ⟨by decide, 9, 13, by decide, by decide, by decide, by decide⟩)

/-- Over p = 15, twice (1, 3) needs the inverse of 6, which does not exist. -/
theorem test_hyp_Pmul_noInv :
    0 < (at_ [15] []).curve[0].value ∧ pointOk 15 ⟨1, 3⟩ ∧ ¬∃ r, MulsTo 15 2 ⟨1, 3⟩ 2 r := by
  refine ⟨by decide +kernel, by unfold pointOk; decide, ?_⟩
  rintro ⟨r, h⟩
  generalize hk : 2 = k at h
  cases h with
  | zero => omega
  | doubleAdd _ _ _ => omega
  | @double k q _ _ h1 hd =>
    obtain rfl : k = 1 := by omega
    generalize hk1 : 1 = m at h1
    cases h1 with
    | zero => omega
    | @double k' _ _ hp _ _ => omega
    | @doubleAdd k' q0 q1 _ h0 hd0 ha =>
      obtain rfl : k' = 0 := by omega
      have hq0 : q0 = identity := by
        generalize hz : 0 = z at h0
        cases h0 with
        | zero => rfl
        | double _ _ _ => omega
        | doubleAdd _ _ _ => omega
      subst hq0
      have hq1 : q1 = identity := by
        rcases hd0 with ⟨_, h⟩ | ⟨h, _⟩
        · exact h
        · exact absurd rfl h
      subst hq1
      have hq : q = ⟨1, 3⟩ := by
        rcases ha with ⟨_, h⟩ | ⟨h, _⟩ | ⟨h, _⟩ | ⟨h, _⟩ | ⟨h, _⟩
        · exact h
        all_goals exact absurd rfl h
      subst hq
      rcases hd with ⟨h, _⟩ | ⟨_, d, l, h, _⟩
      · exact absurd h (by decide)
      · norm_num at h; omega

theorem test_hyp_OddPrimes :
    Nat.Prime 17 ∧ (17 : Nat) ≠ 2 ∧ (at_ toy []).curve[0].value = (17 : Nat) ∧ (Instr.padd 8 4 6).wf = true ∧
      (Instr.pdbl 8 4).wf = true ∧ (Instr.pmul 8 15 4).wf = true ∧ pointOk 17 ⟨5, 1⟩ ∧ pointOk 17 ⟨16, 16⟩ := by
  refine ⟨by norm_num, by decide, by decide +kernel, by decide, by decide, by decide, ?_⟩
  unfold pointOk; decide

theorem test_hyp_AdditionCommutes : (0 : Int) < 15 ∧ pointOk 15 identity ∧ pointOk 15 ⟨1, 3⟩ ∧ pointOk 15 ⟨14, 14⟩ := by
  unfold pointOk; decide

theorem test_hyp_CanonicalWrite : (-maxV).natAbs ≤ 2 ^ 576 - 1 ∧ (2 : RegIx) ≠ 1 := by decide +kernel

theorem test_hyp_StoredForm :
    { BigReg.zero with sign := true }.mag = 0 ∧ (BigReg.ofInt maxV).mag ≠ 0 ∧ (BigReg.ofInt (-1)).mag ≠ 0 := by
  decide +kernel

/-- An error of the fetch (PC = 256) and one of the instruction at the last word of IMEM. -/
theorem test_hyp_ErrorsArePrecise :
    [(fetching 0 256), (fetching 0x16312000 255)].all (fun s =>
      decide (s.running ∧ s.err = false) && (match step s with | .next t => t.err | _ => false)) = true ∧
      256 ≤ (fetching 0 256).pc.toNat ∧ (fetching 0x16312000 255).pc.toNat < 256 ∧
      (raiseError .fetch 0 (fetching 0 256)).err = true := by decide +kernel

/-- A HALT, an error, a soft reset and a hardware reset of a running engine. -/
theorem test_hyp_RunEnds :
    [fetching 0x01000000 255, fetching 0 256, { fetching 0 255 with params := platform, ports := [wr 32 0x00010 8] },
        { fetching 0 255 with ports := [.resetAssert] }].all (fun s =>
      decide (s.recordOk ∧ s.busy = true) && (match step s with | .next t => !t.busy | _ => false)) = true := by
  decide +kernel

/-- A legal compare, an illegal one and another instruction. -/
theorem test_hyp_OnlyCompares :
    writesFlags (.pcmp 14 0) ∧ (Instr.pcmp 14 0).wf = true ∧ ¬(writesFlags (.pcmp 1 0) ∧ (Instr.pcmp 1 0).wf = true) ∧
      ¬(writesFlags .nop ∧ Instr.nop.wf = true) := by
  refine ⟨.inr (.inr (.inr ⟨_, _, rfl⟩)), by decide, fun h => absurd h.2 (by decide), ?_⟩
  simp [writesFlags]

theorem test_hyp_instructions_answer :
    (∃ t, exec .nop State.reset = .next t) ∧ (∃ t, exec (.cmp 1 2) State.reset = .next t) ∧
      ∃ t, exec (.movc 1 6) State.reset = .next t := ⟨⟨_, rfl⟩, ⟨_, rfl⟩, ⟨_, rfl⟩⟩

theorem test_hyp_IllFormed : (Instr.movc 1 6).wf = false ∧ (Instr.pmul 15 0 0).wf = false := by decide

theorem test_hyp_StepKeepsInv :
    State.reset.Inv ∧ (fetching 0x01000000 255).Inv ∧ (∃ t, step State.reset = .next t) ∧
      (match step (fetching 0x01000000 255) with | .next t => t.done | _ => false) = true := by
  refine ⟨by decide, by decide +kernel, ⟨_, rfl⟩, by decide +kernel⟩

theorem test_hyp_ResetHolds :
    { at_ toy [] with ports := [.resetAssert] }.ports = .resetAssert :: [] ∧
      { fresh with rstN := false, ports := [.resetRelease, rd 64 0] }.heldInReset ∧
      { fresh with rstN := false, ports := [wr 64 0x01008 5] }.heldInReset := by decide +kernel

/-- The block with these events waiting, idle or running, unlocked or locked. -/
def waiting (busy lock : Bool) (es : List PortEvent) : State :=
  { fresh with busy := busy, curveLock := lock, ports := es }

theorem test_hyp_SoftReset_ResetValues :
    [32, 64].all (fun w => decide ((waiting true true [wr w 0x00010 0xF]).rstN = true ∧ (w = 32 ∨ w = 64) ∧
      (waiting true true [wr w 0x00010 0xF]).ports = [.write w (fresh.hostAddr 0x00010) 0xF] ∧
      (0xF : BitVec 64).getLsbD 3 = true)) = true := by decide +kernel

theorem test_hyp_Start :
    [false, true].all (fun b => decide ((waiting b false [wr 32 0x00010 7]).rstN = true ∧
      (waiting b false [wr 32 0x00010 7]).busy = b ∧
      (waiting b false [wr 32 0x00010 7]).ports = [.write 32 (fresh.hostAddr 0x00010) 7])) = true ∧
      (7 : BitVec 64).getLsbD 0 = true ∧ (7 : BitVec 64).getLsbD 3 = false := by decide +kernel

/-- The first and the last 64-bit word of each refused range. -/
theorem test_hyp_BusyWrites :
    [0x00020#20, 0x01000#20, 0x017F8#20, 0x02000#20, 0x022F8#20, 0x40000#20, 0x403F8#20, 0x80000#20, 0x81FF8#20].all
      (fun o => decide (isBusError Params.default 64 o = false ∧
        ((0x00020 ≤ o.toNat ∧ o.toNat < 0x00028) ∨ (0x01000 ≤ o.toNat ∧ o.toNat < 0x01800) ∨
          (0x02000 ≤ o.toNat ∧ o.toNat < 0x02300) ∨ 0x40000 ≤ o.toNat))) = true ∧
      (waiting true false [wr 64 0x80000 1]).rstN = true ∧ (waiting true false [wr 64 0x80000 1]).busy = true := by
  decide +kernel

theorem test_hyp_Locked :
    (waiting false true [wr 64 0x02008 1]).curveLock = true ∧
      (∃ t, step (waiting false true [wr 64 0x02008 1]) = .next t) ∧
      (∀ rest, (waiting false true [wr 64 0x02008 1]).ports ≠ .resetAssert :: rest) ∧
      ∀ width data rest, data.getLsbD 3 = true →
        (waiting false true [wr 64 0x02008 1]).ports ≠
          .write width (fresh.hostAddr 0x00010) data :: rest := by
  refine ⟨rfl, ⟨_, rfl⟩, ?_, ?_⟩ <;> simp [waiting, fresh, wr, Params.hostAddr]

/-- Header, last digit and last reserved word of C0 and C5, idle and locked. -/
theorem test_hyp_CurveSlots :
    [((0 : Fin 6), 0, 0x02000#20), (0, 9, 0x02048#20), (0, 15, 0x02078#20), (5, 0, 0x02280#20), (5, 10, 0x022D0#20),
        (5, 15, 0x022F8#20)].all (fun x => decide (x.2.1 < 16 ∧
        x.2.2.toNat = 0x02000 + 0x80 * x.1.val + 8 * x.2.1)) = true ∧
      (waiting false false [wr 64 0x02000 1]).busy = false ∧ (0 : Fin 6) ≠ 5 ∧
      (waiting true true [wr 64 0x02000 1]).curveLock = true ∧
      (waiting true true [wr 32 0x022CC 1]).ports = .write 32 (fresh.hostAddr (0x022C8 + 4)) 1 :: [] := by decide +kernel

/-- Every kind of R54 access, at both ends of its range. -/
theorem test_hyp_BusErrors :
    badAccess Params.default 16 0 ∧ badAccess Params.default 32 2 ∧ badAccess Params.default 64 4 ∧
      badAccess Params.default 64 0x00040 ∧ badAccess Params.default 32 0x00FFC ∧ badAccess Params.default 64 0x01800 ∧
      badAccess Params.default 64 0x01FF8 ∧ badAccess Params.default 64 0x02300 ∧ badAccess Params.default 32 0x3FFFC ∧
      badAccess Params.default 32 0x40400 ∧ badAccess Params.default 32 0x7FFFC ∧ badAccess Params.default 64 0x82000 ∧
      badAccess Params.default 32 0xFFFFC := by
  refine ⟨?_, ?_, ?_, ?_, ?_, ?_, ?_, ?_, ?_, ?_, ?_, ?_, ?_⟩ <;> unfold badAccess <;> decide

/-- The addresses on either side of both ends of the window, and a block held in reset. -/
theorem test_hyp_AccessesNotTaken :
    0xFDFFFFFF < fresh.params.base ∧ fresh.params.base + 0x100000 ≤ 0xFE100000 ∧ fresh.params.base ≤ 0xFE000000 ∧
      0xFE0FFFFF < fresh.params.base + 0x100000 ∧ { fresh with rstN := false }.rstN = false ∧
      { fresh with ports := [.read 32 0xFE100000] }.ports = .read 32 0xFE100000 :: [] := by decide +kernel

theorem test_hyp_HostReads : (waiting true false [rd 64 0x01000]).ports = .read 64 (fresh.hostAddr 0x01000) :: [] := rfl

/-- Header, last digit and last reserved word of R0 and R15. -/
theorem test_hyp_RegisterSlots :
    [((0 : RegIx), 0, 0x01000#20), (0, 9, 0x01048#20), (0, 15, 0x01078#20), (15, 0, 0x01780#20), (15, 15, 0x017F8#20)].all
      (fun x => decide (x.2.1 < 16 ∧ x.2.2.toNat = 0x01000 + 0x80 * x.1.toNat + 8 * x.2.1)) = true ∧
      (waiting false false [rd 32 0x01004]).rstN = true ∧ (waiting false false [rd 32 0x01004]).busy = false ∧
      (waiting false false [rd 32 0x01004]).ports = .read 32 (fresh.hostAddr (0x01000 + 4)) :: [] := by decide +kernel

/-- An idle block whose IMEM has `n` words, all written but those from `k` up, and these events waiting. -/
def imemOf (n k : Nat) (es : List PortEvent) : State :=
  { waiting false false es with params := { platform with imemWords := n }, imem := writeBytes [] 0 (List.replicate (4 * k) 9) }

/-- Words 0 and 3 of a four-word IMEM; word 2 of a three-word one has no second word. -/
theorem test_hyp_ImemWindow :
    (imemOf 4 4 [rd 64 0x40008]).params.wf ∧ (0x4000C#20).toNat = 0x40000 + 4 * 3 ∧ 3 < 4 ∧
      imemWord (imemOf 4 4 []).imem 3 = some 0x09090909 ∧ (0x40008#20).toNat = 0x40000 + 4 * 2 ∧ 2 % 2 = 0 ∧ 2 + 1 < 4 ∧
      imemWord (imemOf 4 4 []).imem 2 = some 0x09090909 ∧ (imemOf 3 3 [wr 64 0x40008 1]).params.wf ∧ 3 ≤ 2 + 1 := by
  decide +kernel

/-- The first and the last word of DMEM. -/
theorem test_hyp_DmemWindow :
    let s := dmemFrom 1023 [5] (dmemFrom 0 [5] (waiting false false [rd 32 0x81FFC]))
    s.rstN = true ∧ s.busy = false ∧ (0x80000#20).toNat = 0x80000 + 8 * 0 ∧ (0x81FF8#20).toNat = 0x80000 + 8 * 1023 ∧
      1023 < s.params.dmemWords ∧ dmemWord s.dmem 0 = some 5 ∧ dmemWord s.dmem 1023 = some 5 ∧
      s.ports = .read 32 (s.hostAddr (0x81FF8 + 4)) :: [] := by decide +kernel

theorem test_hyp_Status :
    (waiting false false [wr 32 0x00018 0xE]).rstN = true ∧ (waiting false false [rd 64 0x00018]).params.wf ∧
      (waiting false false [wr 32 0x00018 0xE]).ports = .write 32 (fresh.hostAddr 0x00018) 0xE :: [] ∧
      (waiting false false [rd 64 0x00008]).ports = .read 64 (fresh.hostAddr 0x00008) :: [] := by decide +kernel

theorem test_hyp_ControlRegisters :
    (waiting true false [wr 32 0x00010 6]).ports = .write 32 (fresh.hostAddr 0x00010) 6 :: [] ∧
      (6 : BitVec 64).getLsbD 0 = false ∧ (6 : BitVec 64).getLsbD 3 = false ∧ (waiting false false [wr 64 0x00020 5]).busy = false ∧
      (waiting false false [wr 64 0x00028 5]).rstN = true ∧
      (0x00028 : Offset) ∈ [0x00000, 0x00008, 0x00028, 0x00030, 0x00038] ∧
      (waiting true true [rd 32 0x00010]).ports = .read 32 (fresh.hostAddr 0x00010) :: [] ∧
      (waiting false false [rd 64 0x00028]).busy = false := by decide +kernel

end Sys2Proof.Tests
end

section
/-! Proofs of the statements about the state (10_state.md): the shapes of a step and what they keep, the stored form of a register,
and the control and status registers. -/

namespace Sys2Proof.Proofs

open Sys2Proof Sys2Proof.Machine Sys2Proof.Laws

/-! ## Everything one step of the block can do -/

/-- What `step s` leaves where it leaves a next state; `rest` is what is left of the port list. -/
inductive StepShape (s : State) : State → Prop
  /-- nothing but the port list changes: the engine is idle or held in reset -/
  | idle (rest : List PortEvent) : StepShape s { s with ports := rest }
  /-- the running engine takes an error of the fetch or the decoder -/
  | error (rest : List PortEvent) (e : EngineError) (w : InsnWord) : s.busy = true →
      StepShape s (raiseError e w { s with ports := rest })
  /-- the running engine executes an instruction -/
  | instr (rest : List PortEvent) {i : Instr} {t : State} : s.busy = true → ExecShape i { s with ports := rest } t →
      StepShape s t
  /-- a read, or an access the block does not take, is answered -/
  | answered (rest : List PortEvent) (r : Option BusResponse) (n : Nat) :
      StepShape s { s with ports := rest, response := r, freeCount := n }
  /-- the block takes a host write -/
  | write {width : Nat} {o : Offset} {data : BitVec 64} {rest : List PortEvent} {t : State} (r : Option BusResponse) :
      s.ports = .write width (s.hostAddr o) data :: rest → HostWriteShape o data { s with ports := rest } t →
      StepShape s { t with response := r }
  /-- rst_n goes to 0 -/
  | resetAssert {rest : List PortEvent} : s.ports = .resetAssert :: rest → StepShape s (hardReset { s with ports := rest })
  /-- rst_n goes to 1 -/
  | resetRelease (rest : List PortEvent) : StepShape s { s with ports := rest, rstN := true }

/-- The engine's turn does nothing, takes an error of the fetch or the decoder, or executes an instruction. -/
theorem engineTurn_shape {s t : State} (rest : List PortEvent) (h : engineTurn { s with ports := rest } = .next t) :
    StepShape s t := by
  unfold engineTurn at h
  split at h
  · next hrun =>
    have hb : s.busy = true := (Bool.and_eq_true_iff.1 hrun).2
    unfold engineStep at h
    split at h
    · cases h; exact .error rest _ _ hb
    · split at h
      · cases h
      · split at h
        · cases h; exact .error rest _ _ hb
        · exact .instr rest hb (exec_shape h)
  · cases h; exact .idle rest

/-- Every next state of a step has one of the shapes. -/
theorem step_shape {s t : State} (h : step s = .next t) : StepShape s t := by
  unfold step turn at h
  split at h
  · exact engineTurn_shape s.ports h
  · exact engineTurn_shape _ h
  · next e rest _ hp =>
    cases h
    cases e with
    | read width a =>
      obtain ⟨r, n, hk⟩ := portRead_keeps width a { s with ports := rest }
      rw [hk]; exact .answered rest r n
    | write width a data =>
      obtain ⟨t, r, hk, hs⟩ := portWrite_shape width a data { s with ports := rest }
      rw [hk]
      obtain rfl | ⟨o, rfl, -, hw⟩ := hs
      · exact .answered rest r _
      · exact .write r hp hw
    | resetAssert => exact .resetAssert hp
    | resetRelease => exact .resetRelease rest
    | quiet => exact .idle rest

/-! ## The invariant -/

/-- Every engine error has a code of 60_exceptions.md R171, and none of them is 0. -/
theorem code_range (e : EngineError) : e.code ≠ 0 ∧ e.code.toNat ≤ 9 := by
  cases e <;> decide

/-- What the invariant says of the status while the engine runs. -/
theorem status_of_running {s : State} (hi : s.Inv) (hb : s.busy = true) :
    s.done = false ∧ s.err = false ∧ s.ecode = 0 :=
  hi.1.2.1 hb

/-- An error of a running engine writes a record that agrees with the status. -/
theorem raiseError_inv {s : State} (hi : s.Inv) (hb : s.busy = true) (e : EngineError) (w : InsnWord) :
    (raiseError e w s).Inv := by
  obtain ⟨hdone, -, -⟩ := status_of_running hi hb
  obtain ⟨⟨-, -, -, -, -, hflags⟩, hrams⟩ := hi
  obtain ⟨hne, hle⟩ := code_range e
  exact ⟨⟨by simp [hdone], by simp, fun _ => ⟨rfl, hne⟩, hle, fun h => absurd h hne, hflags⟩, hrams⟩

/-- HALT of a running engine sets DONE, and ERR is 0. -/
theorem endRun_inv {s : State} (hi : s.Inv) (hb : s.busy = true) : (endRun s).Inv := by
  obtain ⟨-, herr, -⟩ := status_of_running hi hb
  obtain ⟨⟨-, -, hrec, hcode, hzero, hflags⟩, hrams⟩ := hi
  exact ⟨⟨by simp [herr], by simp, hrec, hcode, hzero, hflags⟩, hrams⟩

/-- The PC is free while the engine runs, since ERR is 0. -/
theorem setPc_inv {s : State} (hi : s.Inv) (hb : s.busy = true) (pc : PcWord) : (s.setPc pc).Inv := by
  obtain ⟨-, herr, -⟩ := status_of_running hi hb
  obtain ⟨⟨hboth, hbusy, -, hcode, hzero, hflags⟩, hrams⟩ := hi
  exact ⟨⟨hboth, hbusy, fun h => absurd (herr.symm.trans h) Bool.false_ne_true, hcode, hzero, hflags⟩, hrams⟩

/-- One flag is one of the values FLAGS may hold. -/
theorem setFlags_inv {s : State} (hi : s.Inv) {f : FlagBits} (hf : f = 0b001#3 ∨ f = 0b010#3 ∨ f = 0b100#3) :
    (s.setFlags f).Inv := by
  obtain ⟨⟨hboth, hbusy, hrec, hcode, hzero, -⟩, hrams⟩ := hi
  exact ⟨⟨hboth, hbusy, hrec, hcode, hzero, .inr hf⟩, hrams⟩

/-- A record stored inside DMEM keeps its form and its size. -/
theorem storeRecord_inv {s : State} (hi : s.Inv) {a : Nat} (v : Int) (ha : a + 10 ≤ s.params.dmemWords) :
    State.Inv { s with dmem := memWrite s.dmem a (recordOf v) } := by
  obtain ⟨hrec, himem, hisize, hdmem, hdsize⟩ := hi
  have hlen : a + (recordOf v).length ≤ s.params.dmemWords := by rw [recordOf_length]; exact ha
  have hsize := memWrite_below hdsize hlen
  generalize recordOf v = ws at hsize ⊢
  exact ⟨hrec, himem, hisize, memWrite_wf hdmem a ws, hsize⟩

/-- Every instruction of a running engine keeps the invariant. -/
theorem execShape_inv {i : Instr} {s t : State} (h : ExecShape i s t) (hi : s.Inv) (hb : s.busy = true) : t.Inv := by
  cases h with
  | error e _ => exact raiseError_inv hi hb e _
  | halt _ => exact endRun_inv hi hb
  | jump pc => exact setPc_inv hi hb pc
  | reg r v => exact setPc_inv (s := s.setReg r v) hi hb _
  | regs r1 r2 v1 v2 => exact setPc_inv (s := (s.setReg r1 v1).setReg r2 v2) hi hb _
  | flags f _ hf => exact setPc_inv (setFlags_inv hi hf) hb _
  | record a v ha => exact setPc_inv (storeRecord_inv hi v ha) hb _

/-- START clears everything that a running engine must have cleared. -/
theorem startRun_inv {s : State} (hi : s.Inv) : (startRun s).Inv := by
  obtain ⟨-, hrams⟩ := hi
  exact ⟨⟨by simp, by simp, by simp, by simp, by simp, .inl rfl⟩, hrams⟩

/-- Clearing DONE or ERR breaks no agreement: each clause has them as a premise or wants them 0. -/
theorem writeStatus_inv {s : State} (hi : s.Inv) (data : BitVec 64) : (writeStatus data s).Inv := by
  obtain ⟨⟨hboth, hbusy, hrec, hcode, hzero, hflags⟩, hrams⟩ := hi
  refine ⟨⟨?_, ?_, ?_, hcode, hzero, hflags⟩, hrams⟩
  · intro ⟨hd, he⟩
    exact hboth ⟨(Bool.and_eq_true_iff.1 hd).1, (Bool.and_eq_true_iff.1 he).1⟩
  · intro hb
    obtain ⟨hd, he, hc⟩ := hbusy hb
    exact ⟨by simp [writeStatus, hd], by simp [writeStatus, he], hc⟩
  · intro he
    exact hrec (Bool.and_eq_true_iff.1 he).1

theorem reset_recordOk : State.reset.recordOk := by decide

theorem softReset_inv {s : State} (hi : s.Inv) : (softReset s).Inv := ⟨reset_recordOk, hi.2⟩

theorem hardReset_inv (s : State) : (hardReset s).Inv :=
  ⟨reset_recordOk, .nil, List.forall_mem_nil _, .nil, List.forall_mem_nil _⟩

/-- Every host write keeps the invariant. -/
theorem hostWriteShape_inv {o : Offset} {data : BitVec 64} {s t : State} (h : HostWriteShape o data s t) (hi : s.Inv) :
    t.Inv := by
  cases h with
  | ignored => exact hi
  | refused => exact hi
  | soft _ _ => exact softReset_inv hi
  | ctrl ie lock he _ => exact hi
  | start ie lock _ _ => exact startRun_inv (s := { s with ie := ie, curveLock := lock }) hi
  | status => exact writeStatus_inv hi data
  | startPc pc _ => exact hi
  | reg r b _ => exact hi
  | curve k b _ _ => exact hi
  | imem a bs _ ha =>
    obtain ⟨hrec, himem, hisize, hdram⟩ := hi
    exact ⟨hrec, writeBytes_wf bs himem a, writeBytes_below bs hisize ha, hdram⟩
  | dmem a bs _ ha =>
    obtain ⟨hrec, himem, hisize, hdmem, hdsize⟩ := hi
    exact ⟨hrec, himem, hisize, writeBytes_wf bs hdmem a, writeBytes_below bs hdsize ha⟩

/-- Settles O38. -/
theorem invHoldsAtReset : Obligations.InvHoldsAtReset := ⟨reset_recordOk, reset_ramsOk⟩

/-- Settles O39, by the shapes of a step: the fields of the port list, the response and the free values stand in no clause of
the invariant, so `hi` is the invariant of the state with the port list shortened too. -/
theorem stepKeepsInv : Obligations.StepKeepsInv := by
  intro s t hi h
  cases step_shape h with
  | idle rest => exact hi
  | error rest e w hb => exact raiseError_inv (s := { s with ports := rest }) hi hb e w
  | instr rest hb he => exact execShape_inv he hi hb
  | answered rest r n => exact hi
  | write r _ hw => exact (hostWriteShape_inv hw hi :)
  | resetAssert _ => exact hardReset_inv _
  | resetRelease rest => exact hi

/-! ## The host side -/

/-- No shape of an instruction touches a field of the host side. -/
theorem execShape_hostSideKept {i : Instr} {s t : State} (h : ExecShape i s t) : hostSideKept s t := by
  cases h <;> exact hostSideKept_refl s

/-- Settles O34. -/
theorem instructionsKeepTheHostSide : Obligations.InstructionsKeepTheHostSide := fun _ _ _ h =>
  execShape_hostSideKept (exec_shape h)

/-! ## FLAGS -/

/-- A legal compare or point test commits FLAGS with exactly one bit set. -/
theorem compare_commits_oneBit {i : Instr} (s : State) (hi : writesFlags i) (hw : i.wf = true) :
    ∃ f, exec i s = commitFlags f s ∧ (f = 0b001#3 ∨ f = 0b010#3 ∨ f = 0b100#3) := by
  obtain ⟨rs, rt, rfl⟩ | ⟨rs, rt, rfl⟩ | ⟨ps, rfl⟩ | ⟨ps, pt, rfl⟩ := hi
  · exact ⟨_, rfl, compareFlags_oneBit _ _⟩
  · exact ⟨_, rfl, compareFlags_oneBit _ _⟩
  · exact ⟨_, checkLegal_pos hw s _, testFlags_oneBit _⟩
  · exact ⟨_, checkLegal_pos hw s _, testFlags_oneBit _⟩

/-- An illegal form of a compare or point test takes E_ILLEGAL. CMP and CMPM have none. -/
theorem illegal_compare_raises {i : Instr} (s : State) (hi : writesFlags i) (hw : i.wf = false) :
    ∃ t, exec i s = .next t ∧ tookError .illegal (encode i) s t := by
  obtain ⟨rs, rt, rfl⟩ | ⟨rs, rt, rfl⟩ | ⟨ps, rfl⟩ | ⟨ps, pt, rfl⟩ := hi
  · cases hw
  · cases hw
  · exact checkLegal_raises hw s _
  · exact checkLegal_raises hw s _

/-- No other instruction writes FLAGS. -/
theorem flags_kept_of_not_writesFlags {i : Instr} {s t : State} (hi : ¬writesFlags i) (h : ExecShape i s t) :
    t.flags = s.flags := by
  cases h with
  | flags f hf _ => exact absurd hf hi
  | _ => rfl

/-- Settles O35. -/
theorem onlyComparesWriteFlags : Obligations.OnlyComparesWriteFlags := by
  intro i s t h
  constructor
  · intro hi hw
    obtain ⟨f, he, hf⟩ := compare_commits_oneBit s hi hw
    cases he.symm.trans h
    exact hf
  · intro hn
    by_cases hi : writesFlags i
    · have hw : i.wf = false := Bool.eq_false_iff.2 fun hw => hn ⟨hi, hw⟩
      obtain ⟨u, he, hu⟩ := illegal_compare_raises s hi hw
      obtain ⟨-, -, -, -, -, -, -, hflags, -⟩ := hu
      cases he.symm.trans h
      exact hflags
    · exact flags_kept_of_not_writesFlags hi (exec_shape h)

/-! ## The engine and the host's control fields (10_state.md R29, R33, R37) -/

/-- The fields that the host controls and the engine does not read. -/
structure HostControl where
  ie : Bool
  lock : Bool
  hosterr : Bool
  start : PcWord
  ports : List PortEvent

/-- `s` with other values in the fields of the host. -/
def HostControl.into (c : HostControl) (s : State) : State :=
  { s with ie := c.ie, curveLock := c.lock, hosterr := c.hosterr, startPc := c.start, ports := c.ports }

/-- The outcome `k` with the fields of the host replaced in its next state, if it has one. -/
def HostControl.intoRes (c : HostControl) (k : Res) : Res :=
  match k with
  | .next s => .next (c.into s)
  | .fault r => .fault r
  | .refused r => .refused r

/-- A check goes the same way where what follows it does. -/
theorem check_into {c : HostControl} {p : Prop} [Decidable p] {e : EngineError} {i : Instr} {s : State} {k k' : Res}
    (hk : k' = c.intoRes k) : check p e i (c.into s) k' = c.intoRes (check p e i s k) := by
  subst hk
  by_cases hp : p
  · rw [check_pos hp, check_pos hp]
  · rw [check_neg hp, check_neg hp]; rfl

theorem modulusCheck_into {c : HostControl} {m : Int} {i : Instr} {s : State} {k k' : Res} (hk : k' = c.intoRes k) :
    modulusCheck m i (c.into s) k' = c.intoRes (modulusCheck m i s k) :=
  check_into (check_into hk)

theorem pointCheck_into {c : HostControl} {qs : List Point} {i : Instr} {s : State} {k k' : Res} (hk : k' = c.intoRes k) :
    pointCheck qs i (c.into s) k' = c.intoRes (pointCheck qs i s k) :=
  check_into (check_into (check_into hk))

theorem commitPointOr_into (c : HostControl) (pd : RegIx) (q : Option Point) (i : Instr) (s : State) :
    commitPointOr pd q i (c.into s) = c.intoRes (commitPointOr pd q i s) := by
  cases q <;> rfl

theorem commitMem_into (c : HostControl) (a : Nat) (ws : List Digit) (s : State) :
    commitMem a ws (c.into s) = c.intoRes (commitMem a ws s) := rfl

/-- Every instruction reads none of the host's fields and leaves them alone: each of its checks goes the same way, and what it
commits is built from the same values. -/
theorem exec_into (c : HostControl) (i : Instr) (s : State) : exec i (c.into s) = c.intoRes (exec i s) := by
  cases i with
  | nop | halt | mov _ _ | ldi _ _ | cmp _ _ | cmpm _ _ | bitlen _ _ | j _ => rfl
  | b cond target =>
    show execB cond target (c.into s) = c.intoRes (execB cond target s)
    simp only [execB, show (c.into s).flags = s.flags from rfl]
    split <;> rfl
  | movc rd k =>
    show execMovc rd k (c.into s) = c.intoRes (execMovc rd k s)
    unfold execMovc
    split <;> rfl
  | ld rd addr =>
    refine check_into ?_
    show (match memRead s.dmem _ _ with | none => _ | some ws => _) = _
    cases memRead s.dmem (recordIndex addr) recordWords <;> rfl
  | st rs addr => exact check_into (commitMem_into c _ _ s)
  | add _ _ _ | sub _ _ _ | mul _ _ _ | mod _ _ _ | getbit _ _ _ | pisid _ | pcmp _ _ => exact check_into rfl
  | divrem rq rr rs rt => exact check_into (check_into rfl)
  | modadd _ _ _ _ | modsub _ _ _ _ | modmul _ _ _ _ => exact modulusCheck_into (check_into rfl)
  | modinv rd rs rm =>
    refine modulusCheck_into ?_
    show (match modInverse (s.val rs) (s.val rm) with | none => _ | some x => _) = _
    cases modInverse (s.val rs) (s.val rm) <;> rfl
  | padd pd ps pt => exact check_into (pointCheck_into (commitPointOr_into c _ _ _ _))
  | pdbl pd ps => exact check_into (pointCheck_into (commitPointOr_into c _ _ _ _))
  | pmul pd rk ps => exact check_into (pointCheck_into (commitPointOr_into c _ _ _ _))

/-- Settles O37. -/
theorem engineIgnoresHostControl : Obligations.EngineIgnoresHostControl := by
  intro i s t ie lock he start ports h
  have hc := exec_into ⟨ie, lock, he, start, ports⟩ i s
  rw [h] at hc
  exact hc

/-! ## The lock of the curve bank (10_state.md R29) -/

/-- With CURVE_LOCK set, a host write that is no soft reset keeps the curve bank and the lock. -/
theorem locked_kept_by_hostWrite {o : Offset} {data : BitVec 64} {s t : State} (h : HostWriteShape o data s t)
    (hl : s.curveLock = true) (hsoft : ¬(o.toNat = 0x10 ∧ data.getLsbD 3 = true)) :
    t.curve = s.curve ∧ t.curveLock = true := by
  cases h with
  | soft ho h3 => exact absurd ⟨ho, h3⟩ hsoft
  | ctrl ie lock he hlock => exact ⟨rfl, hlock hl⟩
  | start ie lock _ hlock => exact ⟨rfl, hlock hl⟩
  | curve k b _ hunlocked => exact absurd (hunlocked.symm.trans hl) Bool.false_ne_true
  | _ => exact ⟨rfl, hl⟩

/-- Settles O45, by the shapes of a step. -/
theorem lockedCurveBankIsImmutable : Obligations.LockedCurveBankIsImmutable := by
  intro s t hl h hreset hsoft
  cases step_shape h with
  | instr rest _ he =>
    obtain ⟨-, hcurve, -, -, hlock, -⟩ := execShape_hostSideKept he
    exact ⟨hcurve, hlock.trans hl⟩
  | @write width o data rest _ r hp hw =>
    have hn : ¬(o.toNat = 0x10 ∧ data.getLsbD 3 = true) := by
      rintro ⟨ho, h3⟩
      obtain rfl : o = 0x00010 := BitVec.eq_of_toNat_eq ho
      exact hsoft width data rest h3 hp
    exact (locked_kept_by_hostWrite hw hl hn :)
  | resetAssert hp => exact absurd hp (hreset _)
  | _ => exact ⟨rfl, hl⟩

/-! ## What the instructions compute fits a register -/

/-- A magnitude no larger than one that fits, fits. -/
theorem fits_of_natAbs_le {v w : Int} (h : v.natAbs ≤ w.natAbs) (hw : fits w) : fits v := h.trans hw

/-- The floor quotient of what fits, fits. -/
theorem fits_fdiv {v : Int} (hv : fits v) (w : Int) : fits (Int.fdiv v w) :=
  fits_of_natAbs_le (Int.natAbs_fdiv_le_natAbs v w) hv

/-- The floor remainder by a divisor of either sign that fits, fits. -/
theorem fits_fmod {m : Int} (v : Int) (h0 : m ≠ 0) (hm : fits m) : fits (Int.fmod v m) := by
  refine fits_of_natAbs_le ?_ hm
  rcases lt_or_gt_of_ne h0 with hneg | hpos
  · have hr := fmod_range (-v) (neg_pos.2 hneg)
    rw [Int.neg_fmod_neg] at hr
    omega
  · have hr := fmod_range v hpos
    omega

theorem maxMag_bounds : 2 ^ 16 ≤ Config.maxMag ∧ Config.maxMag < 2 ^ 576 := by decide +kernel

/-- A bit length of what fits is at most 576. -/
theorem fits_bitlenOf {v : Int} (hv : fits v) : fits (bitlenOf v.natAbs : Int) := by
  obtain ⟨hlo, hhi⟩ := maxMag_bounds
  have hl : bitlenOf v.natAbs ≤ 576 := bitlenOf_le.2 (lt_of_le_of_lt hv hhi)
  show bitlenOf v.natAbs ≤ Config.maxMag
  omega

theorem fits_bitOf (m i : Nat) : fits (bitOf m i : Int) := by
  have hlo := maxMag_bounds.1
  have hb : bitOf m i ≤ 1 := by rw [bitOf_eq]; omega
  show bitOf m i ≤ Config.maxMag
  omega

theorem fits_immValue (imm : Imm16) : fits (immValue imm) := by
  have hlo := maxMag_bounds.1
  have hl := BitVec.le_two_mul_toInt (x := imm)
  have hu := BitVec.two_mul_toInt_lt (x := imm)
  show imm.toInt.natAbs ≤ Config.maxMag
  omega

/-- An inverse modulo `m` lies in [0, m). -/
theorem fits_modInverse {a m x : Int} (h0 : 0 < m) (hm : fits m) (h : modInverse a m = some x) : fits x := by
  have hg : Int.gcd a m = 1 := by
    by_contra hg
    rw [(modInverse_eq_none h0).2 hg] at h
    cases h
  obtain ⟨y, hy, hlo, hhi, -⟩ := modInverse_spec h0 hg
  obtain rfl : y = x := Option.some.inj (hy.symm.trans h)
  exact fits_of_natAbs_le (by omega) hm

/-- Words read from DMEM are as many as asked for. -/
theorem memRead_length {m : Memory} {a n : Nat} {ws : List Digit} (h : memRead m a n = some ws) : ws.length = n := by
  induction n generalizing a ws with
  | zero => cases h; rfl
  | succ n ih =>
    unfold memRead at h
    split at h
    · next w ws' _ hs => cases h; rw [List.length_cons, ih hs]
    · cases h

/-! ### Points -/

/-- The coordinates of a point the point unit accepts fit. -/
theorem fits_of_pointOk {p : Int} {q : Point} (hp : fits p) (h : pointOk p q) : fits q.x ∧ fits q.y := by
  obtain rfl | ⟨hx, hy⟩ := h
  · exact ⟨Nat.zero_le _, Nat.zero_le _⟩
  · exact ⟨fits_of_natAbs_le (by omega) hp, fits_of_natAbs_le (by omega) hp⟩

/-- Every answer of the doubler is a point the point unit accepts. -/
theorem ecdbl_pointOk {p a : Int} {q r : Point} (hp : 0 < p) (h : ecdbl p a q = some r) : pointOk p r := by
  by_cases hc : canDouble p q
  · obtain ⟨r', hr', -, hok⟩ := ecdbl_spec hp a hc
    obtain rfl : r' = r := Option.some.inj (hr'.symm.trans h)
    exact hok
  · rw [ecdbl_eq_none hp a hc] at h
    cases h

/-- Every answer of the adder on points the point unit accepts is another. -/
theorem ecadd_pointOk {p a : Int} {q r t : Point} (hp : 0 < p) (hq : pointOk p q) (hr : pointOk p r)
    (h : ecadd p a q r = some t) : pointOk p t := by
  by_cases hc : canAdd p q r
  · obtain ⟨t', ht', -, hok⟩ := ecadd_spec hp a hq hr hc
    obtain rfl : t' = t := Option.some.inj (ht'.symm.trans h)
    exact hok
  · rw [ecadd_eq_none hp a hc] at h
    cases h

/-- The loop of the multiplier goes from point to point by the doubler and the adder. -/
theorem ecmulLoop_pointOk {p a : Int} {k : Nat} {q r : Point} (hp : 0 < p) (hq : pointOk p q) (n : Nat) {acc : Point}
    (hacc : pointOk p acc) (h : ecmulLoop p a k q n acc = some r) : pointOk p r := by
  induction n generalizing acc with
  | zero => cases h; exact hacc
  | succ n ih =>
    unfold ecmulLoop at h
    split at h
    · cases h
    · next d hd =>
      have hdok := ecdbl_pointOk hp hd
      split at h
      · split at h
        · cases h
        · next e he => exact ih (ecadd_pointOk hp hdok hq he) h
      · exact ih hdok h

theorem ecmul_pointOk {p a : Int} {k : Nat} {q r : Point} (hp : 0 < p) (hq : pointOk p q) (h : ecmul p a k q = some r) :
    pointOk p r := by
  unfold ecmul at h
  split at h
  · cases h; exact pointOk_identity p
  · exact ecmulLoop_pointOk hp hq _ (pointOk_identity p) h

/-! ## No instruction writes a negative zero (10_state.md R25) -/

/-- Where `k` is a next state, each of its registers is as in `s` or in canonical form. -/
def writesCanonical (s : State) (k : Res) : Prop :=
  ∀ t, k = .next t → ∀ r, t.bigReg r = s.bigReg r ∨ (t.bigReg r).canonical

/-- A next state with the registers of `s`. -/
theorem writesCanonical_of_regs_eq {s t : State} (h : t.regs = s.regs) : writesCanonical s (.next t) := by
  intro u hu r
  cases hu
  exact .inl (by simp only [State.bigReg, h])

theorem check_writesCanonical {c : Prop} [Decidable c] {e : EngineError} {i : Instr} {s : State} {k : Res}
    (hk : c → writesCanonical s k) : writesCanonical s (check c e i s k) := by
  by_cases hc : c
  · rw [check_pos hc]; exact hk hc
  · rw [check_neg hc]; exact writesCanonical_of_regs_eq rfl

theorem modulusCheck_writesCanonical {m : Int} {i : Instr} {s : State} {k : Res} (hk : 0 < m → writesCanonical s k) :
    writesCanonical s (modulusCheck m i s k) :=
  check_writesCanonical fun _ => check_writesCanonical hk

theorem pointCheck_writesCanonical {qs : List Point} {i : Instr} {s : State} {k : Res}
    (hk : 0 < s.fieldP → (∀ q ∈ qs, pointOk s.fieldP q) → writesCanonical s k) : writesCanonical s (pointCheck qs i s k) :=
  check_writesCanonical fun _ => check_writesCanonical fun hp => check_writesCanonical fun hq =>
    hk hp fun q hm => inRange_iff.1 (List.all_eq_true.1 hq q hm)

/-- One register of a state after a canonical write to another or the same. -/
theorem setReg_canonical {s : State} {v : Int} (hv : fits v) (r q : RegIx) :
    (s.setReg r v).bigReg q = s.bigReg q ∨ ((s.setReg r v).bigReg q).canonical := by
  by_cases h : q = r
  · rw [h, setReg_bigReg_same]; exact .inr (ofInt_canonical hv)
  · exact .inl (setReg_bigReg_ne s r q v h)

theorem commitReg_writesCanonical {s : State} {v : Int} (hv : fits v) (r : RegIx) :
    writesCanonical s (commitReg r v s) := by
  intro t ht q
  cases ht
  exact setReg_canonical hv r q

theorem commitRegs_writesCanonical {s : State} {v1 v2 : Int} (h1 : fits v1) (h2 : fits v2) (r1 r2 : RegIx) :
    writesCanonical s (commitRegs r1 v1 r2 v2 s) := by
  intro t ht q
  cases ht
  obtain h | h := setReg_canonical (s := s.setReg r1 v1) h2 r2 q
  · rw [advance_bigReg, h]; exact setReg_canonical h1 r1 q
  · exact .inr h

/-- A point of the point unit is written canonically, since p, which bounds it, is the value of a register. -/
theorem commitPointOr_writesCanonical {s : State} {o : Option Point} (ho : ∀ q, o = some q → pointOk s.fieldP q)
    (pd : RegIx) (i : Instr) : writesCanonical s (commitPointOr pd o i s) := by
  cases o with
  | none => exact writesCanonical_of_regs_eq rfl
  | some q =>
    obtain ⟨hx, hy⟩ := fits_of_pointOk (fits_value s.curve[0]) (ho q rfl)
    exact commitRegs_writesCanonical hx hy _ _

/-- Every register an instruction writes is in canonical form, since every value it writes fits. -/
theorem exec_writesCanonical (i : Instr) (s : State) : writesCanonical s (exec i s) := by
  cases i with
  | nop | halt | j _ | cmp _ _ | cmpm _ _ => exact writesCanonical_of_regs_eq rfl
  | b cond target => exact writesCanonical_of_regs_eq (by split <;> rfl)
  | pisid _ | pcmp _ _ => exact check_writesCanonical fun _ => writesCanonical_of_regs_eq rfl
  | mov rd rs => exact commitReg_writesCanonical (fits_val s rs) rd
  | ldi rd imm => exact commitReg_writesCanonical (fits_immValue imm) rd
  | movc rd k =>
    show writesCanonical s (execMovc rd k s)
    unfold execMovc
    split
    · exact commitReg_writesCanonical (fits_value _) rd
    · exact writesCanonical_of_regs_eq rfl
  | ld rd addr =>
    refine check_writesCanonical fun _ => ?_
    cases hm : memRead s.dmem (recordIndex addr) recordWords with
    | none => intro t ht; cases ht
    | some ws => exact commitReg_writesCanonical (fits_recordValue (memRead_length hm)) rd
  | st rs addr => exact check_writesCanonical fun _ => writesCanonical_of_regs_eq rfl
  | add rd _ _ | sub rd _ _ | mul rd _ _ => exact check_writesCanonical fun hv => commitReg_writesCanonical hv rd
  | divrem rq rr rs rt =>
    exact check_writesCanonical fun _ => check_writesCanonical fun h0 =>
      commitRegs_writesCanonical (fits_fdiv (fits_val s rs) _) (fits_fmod _ h0 (fits_val s rt)) rq rr
  | mod rd rs rt =>
    exact check_writesCanonical fun h0 => commitReg_writesCanonical (fits_fmod _ h0 (fits_val s rt)) rd
  | modadd rd _ _ rm | modsub rd _ _ rm | modmul rd _ _ rm =>
    exact modulusCheck_writesCanonical fun h0 => check_writesCanonical fun _ =>
      commitReg_writesCanonical (fits_fmod _ h0.ne' (fits_val s rm)) rd
  | modinv rd rs rm =>
    refine modulusCheck_writesCanonical fun h0 => ?_
    cases hx : modInverse (s.val rs) (s.val rm) with
    | none => exact writesCanonical_of_regs_eq rfl
    | some x => exact commitReg_writesCanonical (fits_modInverse h0 (fits_val s rm) hx) rd
  | bitlen rd rs => exact commitReg_writesCanonical (fits_bitlenOf (fits_val s rs)) rd
  | getbit rd rs rt => exact check_writesCanonical fun _ => commitReg_writesCanonical (fits_bitOf _ _) rd
  | padd pd ps pt =>
    exact check_writesCanonical fun _ => pointCheck_writesCanonical fun hp hq =>
      commitPointOr_writesCanonical (fun _ => ecadd_pointOk hp (hq _ (by simp)) (hq _ (by simp))) pd _
  | pdbl pd ps =>
    exact check_writesCanonical fun _ => pointCheck_writesCanonical fun hp _ =>
      commitPointOr_writesCanonical (fun _ => ecdbl_pointOk hp) pd _
  | pmul pd rk ps =>
    exact check_writesCanonical fun _ => pointCheck_writesCanonical fun hp hq =>
      commitPointOr_writesCanonical (fun _ => ecmul_pointOk hp (hq _ (by simp))) pd _

/-! ## The stored form, digit by digit -/

/-- Digit `j` of the nine digits of a magnitude. -/
theorem digitsOf_getElem (m j : Nat) (h : j < 9) : (digitsOf m)[j] = digitOf m j := by
  interval_cases j <;> rfl

/-- Digits at or above `used` are 0 (10_state.md R23). -/
theorem dig_eq_zero_of_used_le {b : BigReg} {j : Nat} (h : j < 9) (hu : b.used ≤ j) : b.dig[j] = 0 := by
  have hd := digit_above_used (ds := b.dig.toList) (j := j) (by simpa using h) ((le_max_right 1 _).trans hu)
  simpa using hd

/-- Settles O29: the first half is `exec_writesCanonical`, the second what `BigReg.ofInt` stores. -/
theorem canonicalWrite : Obligations.CanonicalWrite := by
  refine ⟨fun i s t r h => exec_writesCanonical i s t h r, fun s r v hv => ?_⟩
  have hf : fits v := fits_iff.2 hv
  refine ⟨?_, ?_, ?_, fun j h hu => dig_eq_zero_of_used_le h hu, setReg_val_same hf,
    fun q hq => setReg_bigReg_ne s r q v hq⟩
  all_goals rw [setReg_bigReg_same]
  · rfl
  · intro j h
    show ((digitsOf v.natAbs)[j]).toNat = _
    rw [digitsOf_getElem _ _ h, digitOf, BitVec.toNat_ofNat]
  · exact ofInt_canonical hf

/-- The magnitude of digits is the sum of their weights (10_state.md R22). -/
theorem magOfDigits_eq_sum (ds : List Digit) :
    magOfDigits ds = ((List.range ds.length).map fun i => (ds[i]?.getD 0).toNat * 2 ^ (64 * i)).sum := by
  induction ds with
  | nil => rfl
  | cons d ds ih =>
    have hshift : ∀ i, ((d :: ds)[i + 1]?.getD 0).toNat * 2 ^ (64 * (i + 1))
        = 2 ^ 64 * ((ds[i]?.getD 0).toNat * 2 ^ (64 * i)) := by
      intro i
      rw [List.getElem?_cons_succ, Nat.mul_succ, Nat.pow_add]; ring
    rw [magOfDigits, ih, List.length_cons, List.range_succ_eq_map, List.map_cons, List.sum_cons, List.map_map]
    simp only [Function.comp_def, hshift, List.sum_map_mul_left]
    simp

theorem mag_eq_sum (b : BigReg) :
    b.mag = ((List.range 9).map fun i => (b.dig[i]?.getD 0).toNat * 2 ^ (64 * i)).sum := by
  rw [BigReg.mag]
  simpa using magOfDigits_eq_sum b.dig.toList

/-- A register of magnitude 0 has no digit that counts. -/
theorem mag_eq_zero_iff {b : BigReg} : b.mag = 0 ↔ usedDigits b.dig.toList = 0 :=
  magOfDigits_eq_zero.trans usedDigits_eq_zero.symm

/-- `used` of a register of magnitude 0, a negative zero included, is 1 (10_state.md R23, R24). -/
theorem used_of_mag_eq_zero {b : BigReg} (h : b.mag = 0) : b.used = 1 := by
  rw [BigReg.used, mag_eq_zero_iff.1 h]; rfl

/-- The digit below `used` of a magnitude that is not 0 is not 0. -/
theorem dig_used_ne_zero {b : BigReg} (h : b.mag ≠ 0) : b.dig[b.used - 1]?.getD 0 ≠ 0 := by
  have hpos : usedDigits b.dig.toList ≠ 0 := fun e => h (mag_eq_zero_iff.2 e)
  have hu : b.used = usedDigits b.dig.toList := max_eq_right (Nat.one_le_iff_ne_zero.2 hpos)
  obtain ⟨⟨hlo, hhi⟩, -⟩ := used_bounds b
  have hlt : b.used - 1 < 9 := by omega
  have hd := digit_below_used (ds := b.dig.toList) (j := b.used - 1) (by simpa using hlt) (by omega)
  simpa [hlt] using hd

/-- Settles O30. -/
theorem storedFormReads : Obligations.StoredFormReads := by
  intro b
  refine ⟨mag_eq_sum b, by rw [← maxMag_eq]; exact mag_le_maxMag b, rfl, fun h => ⟨?_, used_of_mag_eq_zero h⟩,
    fun h => ⟨(used_bounds b).1, dig_used_ne_zero h, fun j hj hu => dig_eq_zero_of_used_le hj hu⟩⟩
  simp [BigReg.value, h]

/-! ## Accesses to the control and status registers (10_state.md R32) -/

/-- The offset of a control or status register. -/
def csrOffset : Csr → Offset
  | .id => 0x00000
  | .config => 0x00008
  | .ctrl => 0x00010
  | .status => 0x00018
  | .startPc => 0x00020
  | .pc => 0x00028
  | .epc => 0x00030
  | .einsn => 0x00038

theorem regionOf_csrOffset (r : Csr) : regionOf (csrOffset r) = .csr r := by
  cases r <;> rfl

theorem csrOffset_injective : Function.Injective csrOffset := fun r r' h =>
  Region.csr.inj ((regionOf_csrOffset r).symm.trans ((congrArg regionOf h).trans (regionOf_csrOffset r')))

theorem csrOffset_aligned (r : Csr) : (csrOffset r).toNat % 8 = 0 := by
  cases r <;> rfl

/-- The offset of a register names its lower half. -/
theorem isHighHalf_csrOffset (width : Nat) (r : Csr) : isHighHalf width (csrOffset r) = false := by
  simp [isHighHalf, csrOffset_aligned]

/-- No access of a legal width to the offset of a register is a bus error. -/
theorem isBusError_csrOffset (p : Params) {width : Nat} (hw : width = 32 ∨ width = 64) (r : Csr) :
    isBusError p width (csrOffset r) = false := by
  have h8 := csrOffset_aligned r
  have h4 : (csrOffset r).toNat % 4 = 0 := by omega
  obtain rfl | rfl := hw <;> simp [isBusError, regionOf_csrOffset, h4, h8]

section
variable {s : State} {rest : List PortEvent} {width : Nat} {data : BitVec 64} {r : Csr}

/-- The step of a host write of a control or status register. -/
theorem step_writeCsr (hr : s.rstN = true) (hw : width = 32 ∨ width = 64)
    (hp : s.ports = .write width (s.hostAddr (csrOffset r)) data :: rest) :
    step s = .next ((writeCsr r width (csrOffset r) data { s with ports := rest }).respond .done) := by
  rw [step_write hr hp, hostWrite, isBusError_csrOffset _ hw, regionOf_csrOffset]
  rfl

/-- The step of a host write of CTRL. -/
theorem step_writeCtrl (hr : s.rstN = true) (hw : width = 32 ∨ width = 64)
    (hp : s.ports = .write width (s.hostAddr 0x00010) data :: rest) :
    step s = .next ((writeCtrl data { s with ports := rest }).respond .done) := by
  rw [step_writeCsr (r := .ctrl) hr hw hp, writeCsr, isHighHalf_csrOffset]
  rfl

/-- The step of a host read of a control or status register; PC is read while idle. -/
theorem step_readCsr (hr : s.rstN = true) (hw : width = 32 ∨ width = 64) (hb : r = .pc → s.busy = false)
    (hp : s.ports = .read width (s.hostAddr (csrOffset r)) :: rest) :
    step s = .next { s with
      ports := rest, response := some (.data width (laneOut width (csrOffset r) (csrWord r s))) } := by
  rw [step_read hr hp, hostRead, isBusError_csrOffset _ hw, regionOf_csrOffset]
  cases r with
  | pc => simp only [hb rfl]; rfl
  | _ => rfl

end

/-! ### Writes of CTRL -/

theorem writeCtrl_srst {data : BitVec 64} (h : data.getLsbD 3 = true) (s : State) : writeCtrl data s = softReset s :=
  if_pos h

/-- A write of CTRL without SRST and START. -/
theorem writeCtrl_plain {data : BitVec 64} (h3 : data.getLsbD 3 = false) (h0 : data.getLsbD 0 = false) (s : State) :
    writeCtrl data s = { s with ie := data.getLsbD 1, curveLock := s.curveLock || data.getLsbD 2 } := by
  simp only [writeCtrl, h3, h0, Bool.false_eq_true, if_false]

/-- A write of CTRL with START to an idle engine. -/
theorem writeCtrl_start_idle {data : BitVec 64} (h3 : data.getLsbD 3 = false) (h0 : data.getLsbD 0 = true) {s : State}
    (hb : s.busy = false) :
    writeCtrl data s = startRun { s with ie := data.getLsbD 1, curveLock := s.curveLock || data.getLsbD 2 } := by
  simp only [writeCtrl, h3, h0, unlessBusy, hb, Bool.false_eq_true, if_false, if_true]

/-- A write of CTRL with START to a running engine (log 9). -/
theorem writeCtrl_start_busy {data : BitVec 64} (h3 : data.getLsbD 3 = false) (h0 : data.getLsbD 0 = true) {s : State}
    (hb : s.busy = true) :
    writeCtrl data s = hostRefuse { s with ie := data.getLsbD 1, curveLock := s.curveLock || data.getLsbD 2 } := by
  simp only [writeCtrl, h3, h0, unlessBusy, hb, Bool.false_eq_true, if_false, if_true]

/-! ## Reset -/

theorem reset_hasResetValues : State.reset.hasResetValues := by
  refine ⟨fun r => ?_, fun k => ?_, rfl, rfl, ⟨rfl, rfl⟩, ⟨rfl, rfl, rfl, rfl, rfl⟩, ⟨rfl, rfl, rfl⟩, rfl⟩
  · have h : State.reset.bigReg r = BigReg.zero := by simp [State.bigReg, State.reset]
    rw [h]; exact ⟨rfl, by decide⟩
  · have h : State.reset.curve[k] = BigReg.zero := by simp [State.reset]
    rw [h]; exact ⟨rfl, by decide⟩

/-- Settles O41: both resets take every element of R45 from `State.reset`. -/
theorem resetValues : Obligations.ResetValues := by
  refine ⟨reset_hasResetValues, fun a => ⟨rfl, rfl⟩, fun s rest hp => ?_, fun s rest width data hr hw hp h3 => ?_⟩
  · have hstep : step s = .next (hardReset { s with ports := rest }) := by rw [step, turn, hp]; rfl
    exact ⟨_, hstep, reset_hasResetValues, fun a => ⟨rfl, rfl⟩⟩
  · have hstep := step_writeCtrl hr hw hp
    rw [writeCtrl_srst h3] at hstep
    exact ⟨_, hstep, reset_hasResetValues, rfl, rfl⟩

/-! ## Writes -/

/-- Settles O43. -/
theorem startBeginsARun : Obligations.StartBeginsARun := by
  intro s rest width data hr hw hp h0 h3
  have hstep := step_writeCtrl hr hw hp
  cases hb : s.busy with
  | false =>
    rw [writeCtrl_start_idle (s := { s with ports := rest }) h3 h0 hb] at hstep
    exact ⟨_, hstep, rfl, rfl, rfl, rfl, rfl,
      fun _ => ⟨rfl, rfl, rfl, rfl, rfl, rfl, rfl, rfl, rfl, rfl, rfl⟩, fun h => absurd h Bool.false_ne_true⟩
  | true =>
    rw [writeCtrl_start_busy (s := { s with ports := rest }) h3 h0 hb] at hstep
    exact ⟨_, hstep, rfl, rfl, rfl, rfl, rfl, fun h => absurd h.symm Bool.false_ne_true,
      fun _ => ⟨rfl, rfl, rfl, rfl, rfl, rfl, rfl, hb, rfl⟩⟩

/-- Settles O54. -/
theorem statusWriteOneToClear : Obligations.StatusWriteOneToClear := by
  intro s rest width data hr hw hp
  rw [step_writeCsr (r := .status) hr hw hp, writeCsr, isHighHalf_csrOffset]
  rfl

/-- Settles O56. -/
theorem controlRegisterWrites : Obligations.ControlRegisterWrites := by
  intro s rest width o data hr hw hp
  refine ⟨?_, ?_, fun ho => ?_⟩
  · rintro rfl h0 h3
    rw [step_writeCtrl hr hw hp, writeCtrl_plain h3 h0]
    rfl
  · rintro rfl hb
    rw [step_writeCsr (r := .startPc) hr hw hp, writeCsr, isHighHalf_csrOffset, unlessBusy, hb]
    rfl
  · simp only [List.mem_cons, List.not_mem_nil, or_false] at ho
    obtain rfl | rfl | rfl | rfl | rfl := ho
    · exact step_writeCsr (r := .id) hr hw hp
    · exact step_writeCsr (r := .config) hr hw hp
    · exact step_writeCsr (r := .pc) hr hw hp
    · exact step_writeCsr (r := .epc) hr hw hp
    · exact step_writeCsr (r := .einsn) hr hw hp

/-! ## Reads -/

theorem laneOut_64 (o : Offset) (x : BitVec 64) : laneOut 64 o x = x := rfl

/-- A register of at most 32 bits reads the same by either width. -/
theorem laneOut_csrOffset {width : Nat} (r : Csr) {x : BitVec 64} (hx : x.toNat < 2 ^ 32) :
    laneOut width (csrOffset r) x = x := by
  unfold laneOut
  rw [isHighHalf_csrOffset]
  split
  · rfl
  · apply BitVec.eq_of_toNat_eq
    simp only [Bool.false_eq_true, if_false, BitVec.toNat_setWidth, toNat_field]
    omega

/-- A bit of a word, from the word as a number. -/
theorem getLsbD_of_toNat {w i : Nat} {x : BitVec w} {b : Bool} (h : x.toNat / 2 ^ i % 2 = b.toNat) : x.getLsbD i = b := by
  rw [BitVec.getLsbD, Nat.testBit_eq_decide_div_mod_eq, h]
  cases b <;> rfl

/-- CTRL as a number (10_state.md R33). -/
theorem toNat_ctrlWord (s : State) : (ctrlWord s).toNat = s.curveLock.toNat * 4 + s.ie.toNat * 2 := by
  simp only [ctrlWord, toNat_append_add, BitVec.toNat_ofNat, BitVec.toNat_ofBool]
  omega

/-- CTRL reads IE in bit 1, CURVE_LOCK in bit 2 and 0 elsewhere. -/
theorem getLsbD_ctrlWord (s : State) (j : Nat) :
    (ctrlWord s).getLsbD j = (j == 1 && s.ie || j == 2 && s.curveLock) := by
  have hie := s.ie.toNat_le
  have hlock := s.curveLock.toNat_le
  refine getLsbD_of_toNat ?_
  rw [toNat_ctrlWord]
  rcases j with _ | _ | _ | j
  · simp; omega
  · simp; omega
  · simp; omega
  · have hlt : s.curveLock.toNat * 4 + s.ie.toNat * 2 < 2 ^ (j + 3) := by
      have h8 : 2 ^ 3 ≤ 2 ^ (j + 3) := Nat.pow_le_pow_right (by decide) (by omega)
      omega
    simp [Nat.div_eq_of_lt hlt]

/-- The registers that `ControlRegisterReads` names have at most 32 bits. -/
theorem csrWord_lt {r : Csr} (hr : r ∈ [Csr.ctrl, .startPc, .pc, .epc, .einsn]) (s : State) :
    (csrWord r s).toNat < 2 ^ 32 := by
  cases r with
  | id | config | status => exact absurd hr (by decide)
  | ctrl =>
    have hie := s.ie.toNat_le
    have hlock := s.curveLock.toNat_le
    rw [csrWord, toNat_ctrlWord]; omega
  | startPc | pc | epc | einsn => rw [csrWord, BitVec.toNat_setWidth_of_le (by decide)]; omega

/-- Settles O57: the register is the one at `o`, and each clause speaks of one register. -/
theorem controlRegisterReads : Obligations.ControlRegisterReads := by
  intro s rest width o hr hw hp ho hb
  obtain ⟨r, hmem, rfl⟩ : ∃ r ∈ [Csr.ctrl, .startPc, .pc, .epc, .einsn], csrOffset r = o := List.mem_map.1 ho
  have hread := step_readCsr hr hw (fun h => hb (congrArg csrOffset h)) hp
  rw [laneOut_csrOffset r (csrWord_lt hmem s)] at hread
  have only : ∀ {r' : Csr}, csrOffset r = csrOffset r' → r = r' := fun h => csrOffset_injective h
  refine ⟨csrWord r s, hread, fun h => ?_, fun h => ?_, fun h => ?_, fun h => ?_, fun h => ?_⟩
  · obtain rfl := only (r' := .ctrl) h
    exact getLsbD_ctrlWord s
  · obtain rfl := only (r' := .startPc) h
    exact BitVec.toNat_setWidth_of_le (by decide)
  · obtain rfl := only (r' := .pc) h
    exact BitVec.toNat_setWidth_of_le (by decide)
  · obtain rfl := only (r' := .epc) h
    exact BitVec.toNat_setWidth_of_le (by decide)
  · obtain rfl := only (r' := .einsn) h
    exact BitVec.toNat_setWidth_of_le (by decide)

/-- STATUS as a number (10_state.md R36). -/
theorem toNat_statusWord (s : State) : (statusWord s).toNat =
    s.flags.toNat * 2 ^ 16 + s.ecode.toNat * 2 ^ 8 + s.hosterr.toNat * 8 + s.err.toNat * 4 + s.done.toNat * 2 + s.busy.toNat := by
  simp only [statusWord, toNat_append_add, BitVec.toNat_ofNat, BitVec.toNat_ofBool]
  omega

/-- CONFIG as a number, for sizes in their legal ranges (10_state.md R35). -/
theorem toNat_configWord {p : Params} (h : p.wf) : (configWord p).toNat =
    (p.dmemWords - 1) * 2 ^ 48 + (p.imemWords - 1) * 2 ^ 32 + 6 * 2 ^ 24 + 16 * 2 ^ 16 + 4 * 2 ^ 8 + 9 := by
  obtain ⟨⟨hi, hi'⟩, ⟨hd, hd'⟩, -⟩ := h
  simp only [configWord, toNat_append_add, BitVec.toNat_ofNat, Config.ncurve, Config.nreg, Config.fieldWords,
    Config.capWords]
  omega

/-- Settles O55. -/
theorem statusWordsRead : Obligations.StatusWordsRead := by
  intro s rest hr hwf
  refine ⟨fun hp => ?_, fun hp => ?_, fun hp => ?_⟩
  · exact step_readCsr (r := .id) hr (.inr rfl) (by simp) hp
  · refine ⟨_, step_readCsr (r := .config) hr (.inr rfl) (by simp) hp, ?_⟩
    obtain ⟨⟨hi, hi'⟩, ⟨hd, hd'⟩, -⟩ := id hwf
    simp only [laneOut_64, csrWord, toNat_configWord hwf]
    omega
  · refine ⟨_, step_readCsr (r := .status) hr (.inr rfl) (by simp) hp, ?_⟩
    have hbits := toNat_statusWord s
    have hflags := s.flags.isLt
    have hecode := s.ecode.isLt
    have hhost := s.hosterr.toNat_le
    have herr := s.err.toNat_le
    have hdone := s.done.toNat_le
    have hbusy := s.busy.toNat_le
    simp only [laneOut_64, csrWord]
    refine ⟨getLsbD_of_toNat ?_, getLsbD_of_toNat ?_, getLsbD_of_toNat ?_, getLsbD_of_toNat ?_, ?_, field_eq ?_, ?_, field_eq ?_,
      ?_⟩
    all_goals omega

/-- Settles O58. -/
theorem interruptOutput : Obligations.InterruptOutput := ⟨fun _ => rfl, fun _ _ => rfl, rfl⟩

end Sys2Proof.Proofs
end

section
/-! Proofs of the statements about the memories and the host window (20_memory.md): the accesses the block does not take, the bus
errors, the refused writes, the slots of the registers and of the curve bank, and the two RAM windows. -/

namespace Sys2Proof.Proofs

open Sys2Proof Sys2Proof.Machine Sys2Proof.Laws

/-! ## Unwritten words (20_memory.md R75) -/

/-- The step of a running engine is the engine's. -/
theorem step_running {s : State} (h : s.running) : step s = engineStep s := by
  obtain ⟨hr, hb, hp⟩ := h
  simp [step, turn, hp, engineTurn, hr, hb]

theorem imemWord_eq_none {m : Memory} {i : Nat} : imemWord m i = none ↔ ∃ k < 4, readByte m (4 * i + k) = none := by
  rw [imemWord, Option.map_eq_none_iff, readBytes_eq_none]

theorem dmemWord_eq_none {m : Memory} {j : Nat} : dmemWord m j = none ↔ ∃ k < 8, readByte m (8 * j + k) = none := by
  rw [dmemWord, Option.map_eq_none_iff, readBytes_eq_none]

/-- Some words of DMEM have no value exactly where one of their bytes is unwritten. -/
theorem memRead_eq_none_of_byte {m : Memory} {a n k : Nat} (hk : k < 8 * n) (h : readByte m (8 * a + k) = none) :
    memRead m a n = none := by
  refine memRead_eq_none.2 ⟨k / 8, by omega, dmemWord_eq_none.2 ⟨k % 8, by omega, ?_⟩⟩
  rw [show 8 * (a + k / 8) + k % 8 = 8 * a + k by omega]
  exact h

/-- Settles O8. -/
theorem unwrittenWordsFault : Obligations.UnwrittenWordsFault := by
  refine ⟨fun s hrun hpc hbyte => ?_, fun s rd addr haddr hbyte => ?_⟩
  · rw [step_running hrun, engineStep, if_neg (by omega), imemWord_eq_none.2 hbyte]
  · obtain ⟨k, hk, hnone⟩ := hbyte
    show execLd rd addr s = _
    rw [execLd, recordCheck_pos haddr, memRead_eq_none_of_byte hk hnone]

/-! ## Accesses the block does not take (20_memory.md R51, 70_reset_and_hazards.md R200) -/

theorem hostAccess_outside {s : State} {a : Nat} (h : a < s.params.base ∨ s.params.base + 2 ^ 20 ≤ a)
    (k : Offset → State → State) : hostAccess a k s = s := by
  rw [hostAccess, offsetOf_outside h]

theorem hostAccess_inReset {s : State} {a : Nat} (h : s.params.base ≤ a) (h' : a < s.params.base + 2 ^ 20)
    (hr : s.rstN = false) (k : Offset → State → State) :
    hostAccess a k s = s.respond (.platform s.params.hostBus.inReset) := by
  rw [hostAccess, Params.offsetOf, if_pos ⟨h, h'⟩, hr]
  rfl

/-- The step of a read or a write is an access at its address, whatever an accepted one does. -/
theorem step_access {s : State} {rest : List PortEvent} {width address : Nat} {data : BitVec 64}
    (h : s.ports = .read width address :: rest ∨ s.ports = .write width address data :: rest) :
    ∃ k, step s = .next (hostAccess address k { s with ports := rest }) := by
  obtain hp | hp := h <;> rw [step, turn, hp] <;> exact ⟨_, rfl⟩

/-- Settles O48. -/
theorem accessesTheBlockDoesNotTake : Obligations.AccessesTheBlockDoesNotTake := by
  intro s rest width address data hp
  obtain ⟨k, hstep⟩ := step_access hp
  refine ⟨fun hout => ?_, fun hlo hhi hr => ?_⟩
  · rw [hstep, hostAccess_outside (s := { s with ports := rest }) hout]
  · rw [hstep, hostAccess_inReset (s := { s with ports := rest }) hlo hhi hr]
    rfl

/-- Settles O49. -/
theorem hostReadsChangeNothing : Obligations.HostReadsChangeNothing := by
  intro s rest width address hp
  obtain ⟨r, n, hk⟩ := portRead_keeps width address { s with ports := rest }
  refine ⟨r, n, ?_⟩
  rw [step, turn, hp]
  exact congrArg _ hk

/-! ## Bus errors (20_memory.md R54, R57) -/

/-- A width of the bus, and an offset that is a multiple of it (20_memory.md R54). -/
def wellAligned (width : Nat) (o : Offset) : Prop := (width = 32 ∨ width = 64) ∧ o.toNat % (width / 8) = 0

section
variable {p : Params} {width : Nat} {o : Offset}

theorem wellAligned_iff :
    wellAligned width o ↔ (!(width == 32 || width == 64) || o.toNat % (width / 8) != 0) = false := by
  simp [wellAligned, or_iff_not_imp_left]

theorem isBusError_of_not_wellAligned (h : ¬wellAligned width o) : isBusError p width o = true := by
  rw [wellAligned_iff, Bool.not_eq_false] at h
  rw [isBusError, h, Bool.true_or]

theorem isBusError_reserved (h : regionOf o = .reserved) : isBusError p width o = true := by
  simp [isBusError, h]

theorem isBusError_regSlot {r : RegIx} {w : Nat} (h : regionOf o = .regSlot r w) (ha : wellAligned width o) :
    isBusError p width o = false := by
  rw [isBusError, wellAligned_iff.1 ha, h]
  rfl

theorem isBusError_curveSlot {k : Fin 6} {w : Nat} (h : regionOf o = .curveSlot k w) (ha : wellAligned width o) :
    isBusError p width o = false := by
  rw [isBusError, wellAligned_iff.1 ha, h]
  rfl

/-- An access to IMEM is a bus error exactly where it reaches beyond the last word. -/
theorem isBusError_imem {b : Nat} (h : regionOf o = .imem b) (ha : wellAligned width o) :
    isBusError p width o = decide (4 * p.imemWords < b + width / 8) := by
  rw [isBusError, wellAligned_iff.1 ha, h]
  rfl

/-- An access to DMEM is a bus error exactly where it reaches beyond the last word. -/
theorem isBusError_dmem {b : Nat} (h : regionOf o = .dmem b) (ha : wellAligned width o) :
    isBusError p width o = decide (8 * p.dmemWords < b + width / 8) := by
  rw [isBusError, wellAligned_iff.1 ha, h]
  rfl

theorem not_wellAligned_of_bad
    (h : (width ≠ 32 ∧ width ≠ 64) ∨ (width = 32 ∧ o.toNat % 4 ≠ 0) ∨ (width = 64 ∧ o.toNat % 8 ≠ 0)) :
    ¬wellAligned width o := by
  rintro ⟨hw, ha⟩
  obtain rfl | rfl := hw <;> omega

/-- Every access that R54 lists is one: a bad width or alignment at any offset, and a well-aligned one by its range. -/
theorem isBusError_of_badAccess (h : badAccess p width o) : isBusError p width o = true := by
  by_cases ha : wellAligned width o
  · have hpos : 0 < width / 8 := by obtain ⟨rfl | rfl, -⟩ := ha <;> decide
    obtain h | h | h | h | h | h | ⟨hlo, hhi⟩ | hlo := h
    · exact absurd ha (not_wellAligned_of_bad (.inl h))
    · exact absurd ha (not_wellAligned_of_bad (.inr (.inl h)))
    · exact absurd ha (not_wellAligned_of_bad (.inr (.inr h)))
    · exact isBusError_reserved (regionOf_reserved (.inl h))
    · exact isBusError_reserved (regionOf_reserved (.inr (.inl h)))
    · exact isBusError_reserved (regionOf_reserved (.inr (.inr h)))
    · rw [isBusError_imem (regionOf_imem (by omega) hhi) ha, decide_eq_true_eq]; omega
    · rw [isBusError_dmem (regionOf_dmem (by omega)) ha, decide_eq_true_eq]; omega
  · exact isBusError_of_not_wellAligned ha

end

section
variable {s : State} {rest : List PortEvent} {width : Nat} {o : Offset} {data : BitVec 64}

theorem step_read_busError (hr : s.rstN = true) (hp : s.ports = .read width (s.hostAddr o) :: rest)
    (he : isBusError s.params width o = true) :
    step s = .next { s with ports := rest, response := some (.busError s.params.hostBus.readError) } := by
  rw [step_read hr hp, hostRead, he]
  rfl

theorem step_write_busError (hr : s.rstN = true) (hp : s.ports = .write width (s.hostAddr o) data :: rest)
    (he : isBusError s.params width o = true) :
    step s = .next { s with ports := rest, response := some (.busError s.params.hostBus.writeError) } := by
  rw [step_write hr hp, hostWrite, he]
  rfl

end

/-- Settles O47. -/
theorem busErrorsChangeNothing : Obligations.BusErrorsChangeNothing := by
  intro s rest width o data hr hbad
  have he := isBusError_of_badAccess hbad
  exact ⟨fun hp => step_read_busError hr hp he, fun hp => step_write_busError hr hp he⟩

/-! ## What an access does in each part of the window -/

section
variable {s : State} {width : Nat} {o : Offset}

theorem unlessBusy_of_busy (h : s.busy = true) (t : State) : unlessBusy s t = hostRefuse s := if_pos h

theorem unlessBusy_of_idle (h : s.busy = false) (t : State) : unlessBusy s t = t := by
  rw [unlessBusy, h]
  rfl

variable (he : isBusError s.params width o = false)
include he

theorem hostWrite_csr {r : Csr} (h : regionOf o = .csr r) (data : BitVec 64) :
    hostWrite width o data s = (writeCsr r width o data s).respond .done := by
  rw [hostWrite, he, h]
  rfl

theorem hostWrite_regSlot {r : RegIx} {w : Nat} (h : regionOf o = .regSlot r w) (data : BitVec 64) :
    hostWrite width o data s
      = (unlessBusy s (s.setBigReg r (slotWrite width o w data (s.bigReg r)))).respond .done := by
  rw [hostWrite, he, h]
  rfl

theorem hostWrite_curveSlot {k : Fin 6} {w : Nat} (h : regionOf o = .curveSlot k w) (data : BitVec 64) :
    hostWrite width o data s
      = (unlessBusy s
          (if s.curveLock then (if slotWritable width o w then hostRefuse s else s)
           else { s with curve := s.curve.set k (slotWrite width o w data s.curve[k]) })).respond .done := by
  rw [hostWrite, he, h]
  rfl

theorem hostWrite_curveSlot_refused {k : Fin 6} {w : Nat} (h : regionOf o = .curveSlot k w) (data : BitVec 64)
    (hl : s.curveLock = true) (hwritable : slotWritable width o w = true) :
    hostWrite width o data s = (hostRefuse s).respond .done := by
  rw [hostWrite_curveSlot he h, if_pos hl, if_pos hwritable, unlessBusy, ite_self]

theorem hostWrite_curveSlot_ignored {k : Fin 6} {w : Nat} (h : regionOf o = .curveSlot k w) (data : BitVec 64)
    (hl : s.curveLock = true) (hb : s.busy = false) (hwritable : ¬slotWritable width o w = true) :
    hostWrite width o data s = s.respond .done := by
  rw [hostWrite_curveSlot he h, if_pos hl, if_neg hwritable, unlessBusy_of_idle hb]

theorem hostWrite_curveSlot_performed {k : Fin 6} {w : Nat} (h : regionOf o = .curveSlot k w) (data : BitVec 64)
    (hl : s.curveLock = false) (hb : s.busy = false) :
    hostWrite width o data s
      = State.respond { s with curve := s.curve.set k (slotWrite width o w data s.curve[k]) } .done := by
  rw [hostWrite_curveSlot he h, if_neg (Bool.eq_false_iff.1 hl), unlessBusy_of_idle hb]

theorem hostWrite_imem {b : Nat} (h : regionOf o = .imem b) (data : BitVec 64) :
    hostWrite width o data s
      = (unlessBusy s { s with imem := writeBytes s.imem b (leBytes (width / 8) data.toNat) }).respond .done := by
  rw [hostWrite, he, h]
  rfl

theorem hostWrite_dmem {b : Nat} (h : regionOf o = .dmem b) (data : BitVec 64) :
    hostWrite width o data s
      = (unlessBusy s { s with dmem := writeBytes s.dmem b (leBytes (width / 8) data.toNat) }).respond .done := by
  rw [hostWrite, he, h]
  rfl

variable (hb : s.busy = false)
include hb

theorem hostRead_regSlot {r : RegIx} {w : Nat} (h : regionOf o = .regSlot r w) :
    hostRead width o s = s.respond (.data width (laneOut width o (slotWord (s.bigReg r) w))) := by
  rw [hostRead, he, h]
  simp only [hb, Bool.false_eq_true, if_false]

theorem hostRead_curveSlot {k : Fin 6} {w : Nat} (h : regionOf o = .curveSlot k w) :
    hostRead width o s = s.respond (.data width (laneOut width o (slotWord s.curve[k] w))) := by
  rw [hostRead, he, h]
  simp only [hb, Bool.false_eq_true, if_false]

theorem hostRead_imem {b : Nat} (h : regionOf o = .imem b) : hostRead width o s = ramRead s.imem width b s := by
  rw [hostRead, he, h]
  simp only [hb, Bool.false_eq_true, if_false]

theorem hostRead_dmem {b : Nat} (h : regionOf o = .dmem b) : hostRead width o s = ramRead s.dmem width b s := by
  rw [hostRead, he, h]
  simp only [hb, Bool.false_eq_true, if_false]

end

/-! ## Writes that the running engine refuses (20_memory.md R59) -/

/-- START_PC, a slot or a RAM: the parts of the window that a running engine keeps from the host. -/
theorem hostWrite_busy {s : State} {width : Nat} {o : Offset} (data : BitVec 64) (hb : s.busy = true)
    (he : isBusError s.params width o = false)
    (ho : (0x00020 ≤ o.toNat ∧ o.toNat < 0x00028) ∨ (0x01000 ≤ o.toNat ∧ o.toNat < 0x01800) ∨
      (0x02000 ≤ o.toNat ∧ o.toNat < 0x02300) ∨ 0x40000 ≤ o.toNat) :
    hostWrite width o data s = (hostRefuse s).respond .done := by
  obtain ⟨hlo, hhi⟩ | ⟨hlo, hhi⟩ | ⟨hlo, hhi⟩ | hlo := ho
  · have hreg : regionOf o = .csr .startPc := by
      rw [regionOf_control (by omega), show o.toNat / 8 = 4 by omega]; rfl
    rw [hostWrite_csr he hreg, writeCsr, unlessBusy_of_busy hb]
  · rw [hostWrite_regSlot he (regionOf_regSlot hlo hhi), unlessBusy_of_busy hb]
  · rw [hostWrite_curveSlot he (regionOf_curveSlot hlo hhi), unlessBusy_of_busy hb]
  · rcases Nat.lt_or_ge o.toNat 0x80000 with hhi | hlo'
    · rw [hostWrite_imem he (regionOf_imem hlo hhi), unlessBusy_of_busy hb]
    · rw [hostWrite_dmem he (regionOf_dmem hlo'), unlessBusy_of_busy hb]

/-- Settles O44. -/
theorem busyWritesAreRefused : Obligations.BusyWritesAreRefused := by
  intro s rest width o data hr hb hp he ho
  rw [step_write hr hp, hostWrite_busy (s := { s with ports := rest }) data hb he ho]
  rfl

/-! ## The accesses to a 64-bit word: all of it, or a half (20_memory.md R53) -/

/-- The part of a 64-bit word that an access covers. -/
inductive Lane where
  | whole | low | high

/-- The width of the access. -/
def Lane.width : Lane → Nat
  | .whole => 64
  | .low | .high => 32

/-- The part's first byte in the word. -/
def Lane.firstByte : Lane → Nat
  | .whole | .low => 0
  | .high => 4

/-- The offset of the access, `o` being that of the word. -/
def Lane.offset (l : Lane) (o : Offset) : Offset :=
  match l with
  | .whole | .low => o
  | .high => o + 4

/-- What the access reads of the word `x`. -/
def Lane.read (l : Lane) (x : BitVec 64) : BitVec 64 :=
  match l with
  | .whole => x
  | .low => (x.extractLsb' 0 32).setWidth 64
  | .high => (x.extractLsb' 32 32).setWidth 64

/-- The word `old` after the access writes `data`. -/
def Lane.write (l : Lane) (old data : BitVec 64) : BitVec 64 :=
  match l with
  | .whole => data
  | .low => old.extractLsb' 32 32 ++ data.extractLsb' 0 32
  | .high => data.extractLsb' 0 32 ++ old.extractLsb' 0 32

/-- SIGN after the access writes `data` to word `w` of a slot: bit 0 of the header is in its low half (20_memory.md R56). -/
def Lane.writeSign (l : Lane) (w : Nat) (old : Bool) (data : BitVec 64) : Bool :=
  match l with
  | .whole | .low => if w = 0 then data.getLsbD 0 else old
  | .high => old

section
variable {o : Offset} (h8 : o.toNat % 8 = 0) (l : Lane)
include h8

theorem Lane.toNat_offset : (l.offset o).toNat = o.toNat + l.firstByte := by
  cases l with
  | whole | low => rfl
  | high =>
    have ho := o.isLt
    have hlt : o.toNat + 4 < 2 ^ 20 := by omega
    show (o + 4).toNat = o.toNat + 4
    rw [BitVec.toNat_add]
    exact Nat.mod_eq_of_lt hlt

theorem Lane.wellAligned_offset : wellAligned l.width (l.offset o) := by
  rw [wellAligned, l.toNat_offset h8]
  cases l with
  | whole => exact ⟨.inr rfl, h8⟩
  | low => exact ⟨.inl rfl, show (o.toNat + 0) % 4 = 0 by omega⟩
  | high => exact ⟨.inl rfl, show (o.toNat + 4) % 4 = 0 by omega⟩

theorem Lane.isHighHalf_eq : isHighHalf l.width (l.offset o) = decide (l.firstByte = 4) := by
  rw [isHighHalf, l.toNat_offset h8]
  cases l with
  | whole => rfl
  | low => simp [Lane.width, Lane.firstByte, h8]
  | high => simp [Lane.width, Lane.firstByte, Nat.add_mod, h8]

theorem Lane.laneOut_eq (x : BitVec 64) : laneOut l.width (l.offset o) x = l.read x := by
  rw [laneOut, l.isHighHalf_eq h8]
  cases l <;> rfl

theorem Lane.laneIn_eq (old data : BitVec 64) : laneIn l.width (l.offset o) old data = l.write old data := by
  rw [laneIn, l.isHighHalf_eq h8]
  cases l <;> rfl

/-! ### A write of a slot -/

/-- A slot write stores SIGN as the part of the header says. -/
theorem Lane.slotWrite_sign (w : Nat) (data : BitVec 64) (b : BigReg) :
    (slotWrite l.width (l.offset o) w data b).sign = l.writeSign w b.sign data := by
  rw [slotWrite, l.isHighHalf_eq h8]
  by_cases hw : w = 0
  · subst hw
    cases l <;> rfl
  · have hkept : l.writeSign w b.sign data = b.sign := by cases l <;> simp [Lane.writeSign, hw]
    rw [if_neg hw, hkept]
    split <;> rfl

/-- A slot write stores the part in the digit of its word, and keeps the other digits. -/
theorem Lane.slotWrite_dig (w : Nat) (data : BitVec 64) (b : BigReg) (j : Nat) (h : j < 9) :
    (slotWrite l.width (l.offset o) w data b).dig[j] = if j + 1 = w then l.write b.dig[j] data else b.dig[j] := by
  rw [slotWrite, l.isHighHalf_eq h8]
  by_cases hw : w = 0
  · have hj : j + 1 ≠ w := by omega
    rw [if_pos hw, if_neg hj]
    split <;> rfl
  · rw [if_neg hw]
    split
    · next hd =>
      show (b.dig.set (w - 1) (laneIn l.width (l.offset o) b.dig[w - 1] data) hd)[j] = _
      rw [l.laneIn_eq h8, Vector.getElem_set]
      by_cases hj : j + 1 = w
      · subst hj; simp
      · rw [if_neg (by omega), if_neg hj]
    · next hd =>
      have hj : j + 1 ≠ w := by omega
      rw [if_neg hj]

/-- A write reaches SIGN or a digit unless it is of the header's upper half or of a reserved word. -/
theorem Lane.slotWritable_iff (w : Nat) :
    slotWritable l.width (l.offset o) w = true ↔ w ≤ 9 ∧ (w = 0 → l.firstByte ≠ 4) := by
  rw [slotWritable, l.isHighHalf_eq h8]
  by_cases hw : w = 0 <;> simp [hw]

end

/-- `new` is `old` after the part `l` of word `w` of its slot is written with `data` (20_memory.md R53, R55, R56). -/
def slotWordWritten (l : Lane) (w : Nat) (data : BitVec 64) (old new : BigReg) : Prop :=
  new.sign = l.writeSign w old.sign data ∧
    ∀ j, (h : j < 9) → new.dig[j] = if j + 1 = w then l.write old.dig[j] data else old.dig[j]

theorem slotWrite_slotWordWritten {o : Offset} (h8 : o.toNat % 8 = 0) (l : Lane) (w : Nat) (data : BitVec 64) (b : BigReg) :
    slotWordWritten l w data b (slotWrite l.width (l.offset o) w data b) :=
  ⟨l.slotWrite_sign h8 w data b, l.slotWrite_dig h8 w data b⟩

/-! ## The slots of R0 to R15 -/

section
variable {s : State} {rest : List PortEvent} {o : Offset} {r : RegIx} {w : Nat} (l : Lane)

theorem regionOf_regSlot_lane (hw : w < 16) (ho : o.toNat = 0x01000 + 0x80 * r.toNat + 8 * w) :
    regionOf (l.offset o) = .regSlot r w := by
  have hr := r.isLt
  have hlane := l.toNat_offset (o := o) (by omega)
  have hbyte : l.firstByte < 8 := by cases l <;> decide
  have hslot : BitVec.ofNat 4 (((l.offset o).toNat - 0x1000) / 0x80) = r := by
    apply BitVec.eq_of_toNat_eq
    rw [BitVec.toNat_ofNat]
    omega
  rw [regionOf_regSlot (by omega) (by omega), hslot]
  congr 1
  omega

/-- A write of a word of a register slot while idle. -/
theorem step_write_regSlot {data : BitVec 64} (hr : s.rstN = true) (hb : s.busy = false) (hw : w < 16)
    (ho : o.toNat = 0x01000 + 0x80 * r.toNat + 8 * w)
    (hp : s.ports = .write l.width (s.hostAddr (l.offset o)) data :: rest) :
    ∃ b, step s = .next { s.setBigReg r b with ports := rest, response := some .done } ∧
      slotWordWritten l w data (s.bigReg r) b := by
  have h8 : o.toNat % 8 = 0 := by omega
  have hreg := regionOf_regSlot_lane l hw ho
  refine ⟨_, ?_, slotWrite_slotWordWritten h8 l w data (s.bigReg r)⟩
  rw [step_write hr hp,
    hostWrite_regSlot (s := { s with ports := rest }) (isBusError_regSlot hreg (l.wellAligned_offset h8)) hreg,
    unlessBusy_of_idle (s := { s with ports := rest }) hb]
  rfl

/-- A read of a word of a register slot while idle. -/
theorem step_read_regSlot (hr : s.rstN = true) (hb : s.busy = false) (hw : w < 16)
    (ho : o.toNat = 0x01000 + 0x80 * r.toNat + 8 * w)
    (hp : s.ports = .read l.width (s.hostAddr (l.offset o)) :: rest) :
    step s = .next { s with ports := rest, response := some (.data l.width (l.read (slotWord (s.bigReg r) w))) } := by
  have h8 : o.toNat % 8 = 0 := by omega
  have hreg := regionOf_regSlot_lane l hw ho
  rw [step_read hr hp,
    hostRead_regSlot (s := { s with ports := rest }) (isBusError_regSlot hreg (l.wellAligned_offset h8)) hb hreg,
    l.laneOut_eq h8]
  rfl

end

/-- Settles O50. -/
theorem registerSlotWrites : Obligations.RegisterSlotWrites := by
  intro s rest o r w data hr hb hw ho
  exact ⟨step_write_regSlot .whole hr hb hw ho, step_write_regSlot .low hr hb hw ho, step_write_regSlot .high hr hb hw ho⟩

/-! ## The slots of C0 to C5 -/

section
variable {s : State} {rest : List PortEvent} {o : Offset} {k : Fin 6} {w : Nat} (l : Lane)

theorem regionOf_curveSlot_lane (hw : w < 16) (ho : o.toNat = 0x02000 + 0x80 * k.val + 8 * w) :
    regionOf (l.offset o) = .curveSlot k w := by
  have hk := k.isLt
  have hlane := l.toNat_offset (o := o) (by omega)
  have hbyte : l.firstByte < 8 := by cases l <;> decide
  rw [regionOf_curveSlot (by omega) (by omega)]
  congr 1
  · apply Fin.ext
    show ((l.offset o).toNat - 0x2000) / 0x80 = k.val
    omega
  · omega

/-- A read of a word of a curve slot while idle. -/
theorem step_read_curveSlot (hr : s.rstN = true) (hb : s.busy = false) (hw : w < 16)
    (ho : o.toNat = 0x02000 + 0x80 * k.val + 8 * w)
    (hp : s.ports = .read l.width (s.hostAddr (l.offset o)) :: rest) :
    step s = .next { s with ports := rest, response := some (.data l.width (l.read (slotWord s.curve[k] w))) } := by
  have h8 : o.toNat % 8 = 0 := by omega
  have hreg := regionOf_curveSlot_lane l hw ho
  rw [step_read hr hp,
    hostRead_curveSlot (s := { s with ports := rest }) (isBusError_curveSlot hreg (l.wellAligned_offset h8)) hb hreg,
    l.laneOut_eq h8]
  rfl

variable {data : BitVec 64} (hr : s.rstN = true) (hw : w < 16) (ho : o.toNat = 0x02000 + 0x80 * k.val + 8 * w)
  (hp : s.ports = .write l.width (s.hostAddr (l.offset o)) data :: rest)
include hr hw ho hp

/-- Locked, a write that reaches SIGN or a digit is refused, busy or idle (20_memory.md R60). -/
theorem step_write_curveSlot_refused (hl : s.curveLock = true) (hw9 : w ≤ 9) (hsign : w = 0 → l.firstByte ≠ 4) :
    step s = .next { s with ports := rest, hosterr := true, response := some .done } := by
  have h8 : o.toNat % 8 = 0 := by omega
  have hreg := regionOf_curveSlot_lane l hw ho
  have he := isBusError_curveSlot (p := s.params) hreg (l.wellAligned_offset h8)
  have hwritable := (l.slotWritable_iff h8 w).2 ⟨hw9, hsign⟩
  rw [step_write hr hp, hostWrite_curveSlot_refused (s := { s with ports := rest }) he hreg data hl hwritable]
  rfl

/-- Locked and idle, a write that reaches neither is ignored (log 10). -/
theorem step_write_curveSlot_ignored (hl : s.curveLock = true) (hb : s.busy = false)
    (hn : 9 < w ∨ w = 0 ∧ l.firstByte = 4) :
    step s = .next { s with ports := rest, response := some .done } := by
  have h8 : o.toNat % 8 = 0 := by omega
  have hreg := regionOf_curveSlot_lane l hw ho
  have he := isBusError_curveSlot (p := s.params) hreg (l.wellAligned_offset h8)
  have hwritable : ¬slotWritable l.width (l.offset o) w = true := by
    rw [l.slotWritable_iff h8]
    omega
  rw [step_write hr hp, hostWrite_curveSlot_ignored (s := { s with ports := rest }) he hreg data hl hb hwritable]
  rfl

/-- Unlocked and idle, a write is performed. -/
theorem step_write_curveSlot_performed (hl : s.curveLock = false) (hb : s.busy = false) :
    ∃ b, step s = .next { s with curve := s.curve.set k b, ports := rest, response := some .done } ∧
      slotWordWritten l w data s.curve[k] b := by
  have h8 : o.toNat % 8 = 0 := by omega
  have hreg := regionOf_curveSlot_lane l hw ho
  have he := isBusError_curveSlot (p := s.params) hreg (l.wellAligned_offset h8)
  refine ⟨_, ?_, slotWrite_slotWordWritten h8 l w data s.curve[k]⟩
  rw [step_write hr hp, hostWrite_curveSlot_performed (s := { s with ports := rest }) he hreg data hl hb]
  rfl

end

/-- Settles O46. -/
theorem curveSlotWrites : Obligations.CurveSlotWrites := by
  intro s rest o k w data hr hw ho
  refine ⟨fun hl hw9 hp => ?_, fun hl hb hp => ?_, fun hl hb => ⟨?_, ?_, ?_⟩⟩
  · obtain hp | hp | ⟨hw0, hp⟩ := hp
    · exact step_write_curveSlot_refused .whole hr hw ho hp hl hw9 (fun _ => by decide)
    · exact step_write_curveSlot_refused .low hr hw ho hp hl hw9 (fun _ => by decide)
    · exact step_write_curveSlot_refused .high hr hw ho hp hl hw9 (absurd · hw0)
  · obtain ⟨h9, hp | hp⟩ | ⟨hn, hp⟩ := hp
    · exact step_write_curveSlot_ignored .whole hr hw ho hp hl hb (.inl h9)
    · exact step_write_curveSlot_ignored .low hr hw ho hp hl hb (.inl h9)
    · exact step_write_curveSlot_ignored .high hr hw ho hp hl hb (hn.symm.imp_right (⟨·, rfl⟩))
  · exact fun hp => step_write_curveSlot_performed .whole hr hw ho hp hl hb
  · exact fun hp => step_write_curveSlot_performed .low hr hw ho hp hl hb
  · exact fun hp => step_write_curveSlot_performed .high hr hw ho hp hl hb

/-! ## The words of a slot, read (20_memory.md R55, R56) -/

/-- The header as a number; `used` is at most 9 and fits its byte. -/
theorem toNat_headerWord (b : BigReg) : (headerWord b).toNat = b.used * 256 + b.sign.toNat := by
  obtain ⟨⟨-, hu⟩, -⟩ := used_bounds b
  simp only [headerWord, toNat_append_add, BitVec.toNat_ofNat, BitVec.toNat_ofBool]
  omega

theorem slotWord_header (b : BigReg) :
    (slotWord b 0).getLsbD 0 = b.sign ∧ (slotWord b 0).toNat / 256 = b.used ∧ (slotWord b 0).toNat % 256 ≤ 1 := by
  have hword : (slotWord b 0).toNat = b.used * 256 + b.sign.toNat := toNat_headerWord b
  have hsign := b.sign.toNat_le
  refine ⟨getLsbD_of_toNat ?_, ?_, ?_⟩ <;> omega

theorem slotWord_digit (b : BigReg) {j : Nat} (h : j < 9) : slotWord b (j + 1) = b.dig[j] := by
  simp [slotWord, h]

theorem slotWord_reserved (b : BigReg) {w : Nat} (h : 10 ≤ w) : slotWord b w = 0 := by
  rw [slotWord, if_neg (by omega), dif_neg (by omega)]

/-- Settles O51: `x` is the word of the slot, and the two kinds of slot are read alike. -/
theorem registerSlotReads : Obligations.RegisterSlotReads := by
  intro s rest o b w hr hb hw ho
  have hread : ∀ l : Lane, s.ports = .read l.width (s.hostAddr (l.offset o)) :: rest →
      step s = .next { s with ports := rest, response := some (.data l.width (l.read (slotWord b w))) } := by
    obtain ⟨r, rfl, ho⟩ | ⟨k, rfl, ho⟩ := ho
    · exact fun l hp => step_read_regSlot l hr hb hw ho hp
    · exact fun l hp => step_read_curveSlot l hr hb hw ho hp
  refine ⟨slotWord b w, ?_, ?_, slotWord_reserved b, hread .whole, hread .low, hread .high⟩
  · rintro rfl
    exact slotWord_header b
  · rintro j h rfl
    exact slotWord_digit b h

/-! ## Bytes as numbers -/

theorem leNat_lt (bs : List Byte) : leNat bs < 256 ^ bs.length := by
  induction bs with
  | nil => decide
  | cons b bs ih =>
    have hb := b.isLt
    rw [leNat, List.length_cons, pow_succ']
    omega

theorem leNat_append (xs ys : List Byte) : leNat (xs ++ ys) = leNat xs + 256 ^ xs.length * leNat ys := by
  induction xs with
  | nil => simp [leNat]
  | cons x xs ih =>
    rw [List.cons_append, leNat, leNat, ih, List.length_cons]
    ring

/-- Byte `k` of a number laid out least significant first. -/
theorem leBytes_getElem? {n k : Nat} (hk : k < n) (v : Nat) : (leBytes n v)[k]? = some (BitVec.ofNat 8 (v / 256 ^ k)) := by
  induction n generalizing k v with
  | zero => omega
  | succ n ih =>
    cases k with
    | zero => simp [leBytes]
    | succ k => rw [leBytes, List.getElem?_cons_succ, ih (by omega), Nat.div_div_eq_div_mul, ← pow_succ']

/-- The number in the `n` bytes from address `a` up, or no value where one of them is unwritten. -/
def readNat (m : Memory) (a n : Nat) : Option Nat := (readBytes m a n).map leNat

theorem readNat_writeBytes (m : Memory) (a n v : Nat) :
    readNat (writeBytes m a (leBytes n v)) a n = some (v % 256 ^ n) := by
  have h := readBytes_writeBytes m a (leBytes n v)
  rw [leBytes_length] at h
  rw [readNat, h, Option.map_some, leNat_leBytes]

theorem readNat_lt {m : Memory} {a n v : Nat} (h : readNat m a n = some v) : v < 256 ^ n := by
  obtain ⟨bs, hbs, rfl⟩ := Option.map_eq_some_iff.1 h
  obtain ⟨rfl, -⟩ := readBytes_eq_some.1 hbs
  exact leNat_lt bs

theorem readBytes_append {m : Memory} {a i j : Nat} {xs ys : List Byte} (hx : readBytes m a i = some xs)
    (hy : readBytes m (a + i) j = some ys) : readBytes m a (i + j) = some (xs ++ ys) := by
  obtain ⟨rfl, hx⟩ := readBytes_eq_some.1 hx
  obtain ⟨rfl, hy⟩ := readBytes_eq_some.1 hy
  refine readBytes_eq_some.2 ⟨List.length_append, fun k hk => ?_⟩
  rcases Nat.lt_or_ge k xs.length with h | h
  · rw [List.getElem?_append_left h, hx k h]
  · rw [List.getElem?_append_right h, ← hy (k - xs.length) (by omega), show a + xs.length + (k - xs.length) = a + k by omega]

/-- Two neighbouring runs of bytes are one, the second the more significant. -/
theorem readNat_append {m : Memory} {a i j x y : Nat} (hx : readNat m a i = some x) (hy : readNat m (a + i) j = some y) :
    readNat m a (i + j) = some (x + 256 ^ i * y) := by
  obtain ⟨xs, hxs, rfl⟩ := Option.map_eq_some_iff.1 hx
  obtain ⟨ys, hys, rfl⟩ := Option.map_eq_some_iff.1 hy
  obtain ⟨rfl, -⟩ := readBytes_eq_some.1 hxs
  rw [readNat, readBytes_append hxs hys, Option.map_some, leNat_append]

theorem readBytes_split {m : Memory} {a i j : Nat} {bs : List Byte} (h : readBytes m a (i + j) = some bs) :
    readBytes m a i = some (bs.take i) ∧ readBytes m (a + i) j = some (bs.drop i) := by
  obtain ⟨hlen, hread⟩ := readBytes_eq_some.1 h
  refine ⟨readBytes_eq_some.2 ⟨by simp [hlen], fun k hk => ?_⟩, readBytes_eq_some.2 ⟨by simp [hlen], fun k hk => ?_⟩⟩
  · rw [hread k (by omega), List.getElem?_take_of_lt hk]
  · rw [Nat.add_assoc, hread (i + k) (by omega), List.getElem?_drop]

/-- A run of bytes that is read is read in two parts, the second the more significant. -/
theorem readNat_split {m : Memory} {a i j v : Nat} (h : readNat m a (i + j) = some v) :
    readNat m a i = some (v % 256 ^ i) ∧ readNat m (a + i) j = some (v / 256 ^ i) := by
  obtain ⟨bs, hbs, rfl⟩ := Option.map_eq_some_iff.1 h
  obtain ⟨hlow, hhigh⟩ := readBytes_split hbs
  have hlen : (bs.take i).length = i := (readBytes_eq_some.1 hlow).1
  have hsum : leNat bs = leNat (bs.take i) + 256 ^ i * leNat (bs.drop i) := by
    have happ := leNat_append (bs.take i) (bs.drop i)
    rwa [List.take_append_drop, hlen] at happ
  have hlt : leNat (bs.take i) < 256 ^ i := by
    have hbound := leNat_lt (bs.take i)
    rwa [hlen] at hbound
  rw [hsum, Nat.add_mul_mod_self_left, Nat.mod_eq_of_lt hlt, Nat.add_mul_div_left _ _ (by positivity),
    Nat.div_eq_of_lt hlt, Nat.zero_add]
  exact ⟨by rw [readNat, hlow, Option.map_some], by rw [readNat, hhigh, Option.map_some]⟩

/-- A number below `2 ^ w` and the word made of it say the same. -/
theorem map_ofNat_eq_some {w : Nat} {o : Option Nat} {x : BitVec w} (h : ∀ v, o = some v → v < 2 ^ w) :
    o.map (BitVec.ofNat w) = some x ↔ o = some x.toNat := by
  rw [Option.map_eq_some_iff]
  constructor
  · rintro ⟨v, rfl, rfl⟩
    rw [BitVec.toNat_ofNat, Nat.mod_eq_of_lt (h v rfl)]
  · rintro rfl
    exact ⟨_, rfl, by rw [BitVec.ofNat_toNat, BitVec.setWidth_eq]⟩

theorem imemWord_eq_some {m : Memory} {i : Nat} {x : InsnWord} :
    imemWord m i = some x ↔ readNat m (4 * i) 4 = some x.toNat := by
  have hword : imemWord m i = (readNat m (4 * i) 4).map (BitVec.ofNat 32) := by
    rw [imemWord, readNat, Option.map_map]; rfl
  rw [hword]
  exact map_ofNat_eq_some fun v hv => readNat_lt hv

theorem dmemWord_eq_some {m : Memory} {j : Nat} {x : Digit} :
    dmemWord m j = some x ↔ readNat m (8 * j) 8 = some x.toNat := by
  have hword : dmemWord m j = (readNat m (8 * j) 8).map (BitVec.ofNat 64) := by
    rw [dmemWord, readNat, Option.map_map]; rfl
  rw [hword]
  exact map_ofNat_eq_some fun v hv => readNat_lt hv

/-- A host read of written bytes of a RAM returns their number and changes nothing else. -/
theorem ramRead_of_readNat {m : Memory} {width a v : Nat} (h : readNat m a (width / 8) = some v) (s : State) :
    ramRead m width a s = s.respond (.data width (BitVec.ofNat 64 v)) := by
  obtain ⟨bs, hbs, rfl⟩ := Option.map_eq_some_iff.1 h
  rw [ramRead, hbs]

/-! ## The IMEM window (20_memory.md R57) -/

section
variable {s : State} {rest : List PortEvent} {width n : Nat} {o : Offset} (hr : s.rstN = true)
  (hwf : s.params.wf) (ho : o.toNat = 0x40000 + 4 * n) (hn : n < s.params.imemWords) (ha : wellAligned width o)
include hwf ho hn

theorem regionOf_imemWord : regionOf o = .imem (4 * n) := by
  obtain ⟨⟨-, hle⟩, -⟩ := hwf
  rw [regionOf_imem (by omega) (by omega), ho, Nat.add_sub_cancel_left]

include ha

/-- An access to existing words of IMEM is no bus error. -/
theorem isBusError_imemWord (hin : 4 * n + width / 8 ≤ 4 * s.params.imemWords) : isBusError s.params width o = false := by
  rw [isBusError_imem (regionOf_imemWord hwf ho hn) ha, decide_eq_false_iff_not]
  omega

include hr

/-- A write of existing words of IMEM while idle. -/
theorem step_write_imem (hb : s.busy = false) {data : BitVec 64} (hin : 4 * n + width / 8 ≤ 4 * s.params.imemWords)
    (hp : s.ports = .write width (s.hostAddr o) data :: rest) :
    step s = .next { s with
      ports := rest, imem := writeBytes s.imem (4 * n) (leBytes (width / 8) data.toNat), response := some .done } := by
  have he := isBusError_imemWord hwf ho hn ha hin
  rw [step_write hr hp, hostWrite_imem (s := { s with ports := rest }) he (regionOf_imemWord hwf ho hn),
    unlessBusy_of_idle (s := { s with ports := rest }) hb]
  rfl

/-- A read of existing, written words of IMEM while idle. -/
theorem step_read_imem (hb : s.busy = false) {v : Nat} (hin : 4 * n + width / 8 ≤ 4 * s.params.imemWords)
    (hv : readNat s.imem (4 * n) (width / 8) = some v) (hp : s.ports = .read width (s.hostAddr o) :: rest) :
    step s = .next { s with ports := rest, response := some (.data width (BitVec.ofNat 64 v)) } := by
  have he := isBusError_imemWord hwf ho hn ha hin
  rw [step_read hr hp, hostRead_imem (s := { s with ports := rest }) he hb (regionOf_imemWord hwf ho hn),
    ramRead_of_readNat hv]
  rfl

end

/-- The four bytes a 32-bit write stores are its word. -/
theorem imemWord_writeBytes (m : Memory) (n : Nat) (data : BitVec 64) :
    imemWord (writeBytes m (4 * n) (leBytes 4 data.toNat)) n = some (data.extractLsb' 0 32) := by
  rw [imemWord_eq_some, toNat_field, readNat_writeBytes]
  congr 1; omega

/-- The eight bytes a 64-bit write stores are two words, the low half first. -/
theorem imemWords_writeBytes (m : Memory) (n : Nat) (data : BitVec 64) :
    imemWord (writeBytes m (4 * n) (leBytes 8 data.toNat)) n = some (data.extractLsb' 0 32) ∧
      imemWord (writeBytes m (4 * n) (leBytes 8 data.toNat)) (n + 1) = some (data.extractLsb' 32 32) := by
  have hdata := data.isLt
  obtain ⟨hlow, hhigh⟩ := readNat_split (i := 4) (j := 4) (readNat_writeBytes m (4 * n) 8 data.toNat)
  constructor
  · rw [imemWord_eq_some, toNat_field, hlow]
    congr 1; omega
  · rw [imemWord_eq_some, toNat_field, Nat.mul_succ, hhigh]
    congr 1; omega

/-- Two neighbouring words are one number of 64 bits, the first the low half. -/
theorem readNat_imemWords {m : Memory} {n : Nat} {x y : InsnWord} (hx : imemWord m n = some x)
    (hy : imemWord m (n + 1) = some y) : readNat m (4 * n) 8 = some (y ++ x).toNat := by
  rw [readNat_append (imemWord_eq_some.1 hx) (imemWord_eq_some.1 hy), toNat_append_add]
  congr 1; omega

/-- Settles O52. -/
theorem imemWindow : Obligations.ImemWindow := by
  intro s rest o n data hr hb hwf ho hn
  have ha32 : wellAligned 32 o := ⟨.inl rfl, show o.toNat % 4 = 0 by omega⟩
  have ha64 : n % 2 = 0 → wellAligned 64 o := fun heven => ⟨.inr rfl, show o.toNat % 8 = 0 by omega⟩
  refine ⟨fun hp => ?_, fun x hp hx => ?_, fun heven hin hp => ?_, fun x y heven hin hp hx hy => ?_, fun heven hout => ?_⟩
  · exact ⟨_, step_write_imem hr hwf ho hn ha32 hb (by omega) hp, imemWord_writeBytes s.imem n data,
      fun a hout => readByte_writeBytes_outside _ (by rw [leBytes_length]; exact hout)⟩
  · rw [step_read_imem hr hwf ho hn ha32 hb (by omega) (imemWord_eq_some.1 hx) hp, BitVec.ofNat_toNat]
  · obtain ⟨hlow, hhigh⟩ := imemWords_writeBytes s.imem n data
    exact ⟨_, step_write_imem hr hwf ho hn (ha64 heven) hb (by omega) hp, hlow, hhigh,
      fun a hout => readByte_writeBytes_outside _ (by rw [leBytes_length]; exact hout)⟩
  · rw [step_read_imem hr hwf ho hn (ha64 heven) hb (by omega) (readNat_imemWords hx hy) hp, BitVec.ofNat_toNat,
      BitVec.setWidth_eq]
  · have he : isBusError s.params 64 o = true := by
      rw [isBusError_imem (regionOf_imemWord hwf ho hn) (ha64 heven), decide_eq_true_eq]; omega
    exact ⟨fun hp => step_read_busError hr hp he, fun hp => step_write_busError hr hp he⟩

/-! ## The DMEM window (20_memory.md R58) -/

/-- An access to a part stays inside the word. -/
theorem Lane.bytes_le (l : Lane) : l.firstByte + l.width / 8 ≤ 8 := by
  cases l <;> decide

section
variable {s : State} {rest : List PortEvent} {n : Nat} {o : Offset} (l : Lane) (hr : s.rstN = true) (hb : s.busy = false)
  (ho : o.toNat = 0x80000 + 8 * n) (hn : n < s.params.dmemWords)
include ho

theorem regionOf_dmemWord : regionOf (l.offset o) = .dmem (8 * n + l.firstByte) := by
  have hlane := l.toNat_offset (o := o) (by omega)
  rw [regionOf_dmem (by omega), hlane, ho, Nat.add_assoc, Nat.add_sub_cancel_left]

include hn

/-- An access to a part of an existing word of DMEM is no bus error. -/
theorem isBusError_dmemWord : isBusError s.params l.width (l.offset o) = false := by
  have hbytes := l.bytes_le
  rw [isBusError_dmem (regionOf_dmemWord l ho) (l.wellAligned_offset (by omega)), decide_eq_false_iff_not]
  omega

include hr hb

/-- A write of a part of an existing word of DMEM while idle. -/
theorem step_write_dmem {data : BitVec 64} (hp : s.ports = .write l.width (s.hostAddr (l.offset o)) data :: rest) :
    step s = .next { s with
      ports := rest, dmem := writeBytes s.dmem (8 * n + l.firstByte) (leBytes (l.width / 8) data.toNat),
      response := some .done } := by
  have he := isBusError_dmemWord l ho hn
  rw [step_write hr hp, hostWrite_dmem (s := { s with ports := rest }) he (regionOf_dmemWord l ho),
    unlessBusy_of_idle (s := { s with ports := rest }) hb]
  rfl

/-- A read of written bytes of DMEM while idle. -/
theorem step_read_dmem {v : Nat} (hv : readNat s.dmem (8 * n + l.firstByte) (l.width / 8) = some v)
    (hp : s.ports = .read l.width (s.hostAddr (l.offset o)) :: rest) :
    step s = .next { s with ports := rest, response := some (.data l.width (BitVec.ofNat 64 v)) } := by
  have he := isBusError_dmemWord l ho hn
  rw [step_read hr hp, hostRead_dmem (s := { s with ports := rest }) he hb (regionOf_dmemWord l ho), ramRead_of_readNat hv]
  rfl

end

/-- The part of a written word of DMEM, as a number. -/
theorem readNat_lane {m : Memory} {n : Nat} {x : Digit} (l : Lane) (hx : dmemWord m n = some x) :
    readNat m (8 * n + l.firstByte) (l.width / 8) = some (l.read x).toNat := by
  have hword := dmemWord_eq_some.1 hx
  obtain ⟨hlow, hhigh⟩ := readNat_split (i := 4) (j := 4) hword
  have hlt := x.isLt
  cases l with
  | whole => exact hword
  | low =>
    show readNat m (8 * n) 4 = some ((x.extractLsb' 0 32).setWidth 64).toNat
    rw [hlow, BitVec.toNat_setWidth, toNat_field]
    congr 1; omega
  | high =>
    show readNat m (8 * n + 4) 4 = some ((x.extractLsb' 32 32).setWidth 64).toNat
    rw [hhigh, BitVec.toNat_setWidth, toNat_field]
    congr 1; omega

/-- The bytes written from address `a` up are those of the data. -/
theorem readByte_writeBytes_data (m : Memory) {a n b : Nat} (data : BitVec 64) (h : b < n) :
    readByte (writeBytes m a (leBytes n data.toNat)) (a + b) = some (data.extractLsb' (8 * b) 8) := by
  have hbyte : BitVec.ofNat 8 (data.toNat / 256 ^ b) = data.extractLsb' (8 * b) 8 := by
    apply BitVec.eq_of_toNat_eq
    rw [BitVec.toNat_ofNat, toNat_field, pow_mul]; rfl
  rw [readByte_writeBytes, leBytes_length, if_pos (by omega), Nat.add_sub_cancel_left, leBytes_getElem? h, hbyte]

/-- Settles O53. -/
theorem dmemWindow : Obligations.DmemWindow := by
  intro s rest o n data hr hb ho hn
  refine ⟨fun hp => ?_, fun hp => ?_, fun hp => ?_, fun x hx => ?_⟩
  · refine ⟨_, step_write_dmem .whole hr hb ho hn hp, ?_, fun a hout => ?_⟩
    · rw [dmemWord_eq_some]
      exact (readNat_writeBytes s.dmem (8 * n) 8 data.toNat).trans (congrArg some (Nat.mod_eq_of_lt data.isLt))
    · exact readByte_writeBytes_outside _ (by rw [leBytes_length]; exact hout)
  · refine ⟨_, step_write_dmem .low hr hb ho hn hp, fun b hlt => readByte_writeBytes_data _ data hlt, fun a hout => ?_⟩
    exact readByte_writeBytes_outside _ (by rw [leBytes_length]; exact hout)
  · refine ⟨_, step_write_dmem .high hr hb ho hn hp, fun b hlt => readByte_writeBytes_data _ data hlt, fun a hout => ?_⟩
    exact readByte_writeBytes_outside _ (by rw [leBytes_length]; exact hout)
  · have hread : ∀ l : Lane, s.ports = .read l.width (s.hostAddr (l.offset o)) :: rest →
        step s = .next { s with ports := rest, response := some (.data l.width (l.read x)) } := by
      intro l hp
      rw [step_read_dmem l hr hb ho hn (readNat_lane l hx) hp, BitVec.ofNat_toNat, BitVec.setWidth_eq]
    exact ⟨hread .whole, hread .low, hread .high⟩

end Sys2Proof.Proofs
end

section
/-! Proofs of the statements about the encoding (30_encoding.md): the decoder row by row of the opcode map, the two round trips of
decode and encode, the words the decoder rejects and what they do to a running engine. -/

namespace Sys2Proof.Proofs

open Sys2Proof Sys2Proof.Machine Sys2Proof.Laws

/-! ## Masks (30_encoding.md R78, R79) -/

/-- The mask of the `n` bits of a word from bit `lo` up. -/
def fieldMask (lo n : Nat) : InsnWord := (BitVec.allOnes n).setWidth 32 <<< lo

/-- A word under the mask of a field is zero exactly where the field is. -/
theorem and_fieldMask_eq_zero (w : InsnWord) (lo n : Nat) : w &&& fieldMask lo n = 0 ↔ w.extractLsb' lo n = 0#n := by
  constructor
  · intro h
    ext i hi
    have hbit := congrArg (BitVec.getLsbD · (lo + i)) h
    by_cases hlt : lo + i < 32
    · have : i < 32 := by omega
      simpa [fieldMask, hi, hlt, this] using hbit
    · simp [BitVec.getLsbD_of_ge w (lo + i) (by omega)]
  · intro h
    ext i hi
    have hbit := congrArg (BitVec.getLsbD · (i - lo)) h
    by_cases hlo : lo ≤ i
    · by_cases hn : i - lo < n
      · have hw : w.getLsbD i = false := by simpa [hn, Nat.add_sub_cancel' hlo] using hbit
        simp [fieldMask, ← BitVec.getLsbD_eq_getElem, hw]
      · simp [fieldMask, hn]
    · simp [fieldMask, Nat.lt_of_not_le hlo]

theorem and_or_eq_zero (w a b : InsnWord) : w &&& (a ||| b) = 0 ↔ w &&& a = 0 ∧ w &&& b = 0 := by
  rw [BitVec.and_or_distrib_left]
  exact BitVec.or_eq_zero_iff

/-- A point field is even where the word under the mask of the field's lowest bit is zero (30_encoding.md R79). -/
theorem evenField_iff_mask (w : InsnWord) (lo : Nat) : evenField (w.extractLsb' lo 4) = true ↔ w &&& fieldMask lo 1 = 0 := by
  rw [and_fieldMask_eq_zero, evenField, BitVec.getLsbD_extractLsb']
  constructor
  · intro h
    ext i hi
    obtain rfl : i = 0 := by omega
    simpa using h
  · intro h
    simpa using congrArg (BitVec.getLsbD · 0) h

/-! ## The rows of the opcode map (30_encoding.md R82) -/

/-- The operand constraint `e` of 30_encoding.md R84, cases 3 to 5, is broken by the word `w` of row `r`. -/
def breaksOperandRule (r : OpcodeRow) (w : InsnWord) : Illegal → Prop
  | .oddPoint => w &&& r.odd ≠ 0
  | .curveIndex => r.op = 0x04 ∧ 5 < (w.extractLsb' 16 4).toNat
  | .sameDestination => r.op = 0x15 ∧ w.extractLsb' 20 4 = w.extractLsb' 16 4
  | .unassignedOpcode | .mustBeZero => False

/-- The decoder reads `w`, a word of row `r`, as the instruction `i`: it checks the row's must-be-zero bits, loses no bit of a
word that passes, and leaves to `i` the operand constraints of the row. -/
structure ReadsAs (r : OpcodeRow) (w : InsnWord) (i : Instr) : Prop where
  rejects : w &&& r.zeros ≠ 0 → decodeShape w = .error .mustBeZero
  accepts : w &&& r.zeros = 0 → decodeShape w = .ok i
  encodes : w &&& r.zeros = 0 → encode i = w
  operands : ∀ e, i.operandIllegal = some e ↔ breaksOperandRule r w e

section
variable {r : OpcodeRow} {w : InsnWord} {i : Instr}

/-- A row whose must-be-zero bits are the field of `n` bits at `lo`. -/
theorem ReadsAs.of_needZero {lo n : Nat} (hshape : decodeShape w = needZero (w.extractLsb' lo n) i)
    (hmask : r.zeros = fieldMask lo n) (hencode : w.extractLsb' lo n = 0#n → encode i = w)
    (hoperands : ∀ e, i.operandIllegal = some e ↔ breaksOperandRule r w e) : ReadsAs r w i := by
  have hzero : w &&& r.zeros = 0 ↔ w.extractLsb' lo n = 0#n := by rw [hmask, and_fieldMask_eq_zero]
  refine ⟨fun h => ?_, fun h => ?_, fun h => hencode (hzero.1 h), hoperands⟩
  · rw [hshape, needZero, if_neg (fun hz => h (hzero.2 hz))]
  · rw [hshape, needZero, if_pos (hzero.1 h)]

/-! ### The formats (30_encoding.md R78) -/

section
variable (hop : opField w = r.op) (hoperands : ∀ e, i.operandIllegal = some e ↔ breaksOperandRule r w e)
include hop hoperands

/-- Format N. -/
theorem ReadsAs.regs0 (hzeros : r.zeros = 0x00FFFFFF) (hencode : encode i = packRegs r.op 0#4 0#4 0#4 0#4)
    (hshape : decodeShape w = needZero (w.extractLsb' 0 24) i) : ReadsAs r w i :=
  .of_needZero hshape (hzeros.trans (by decide)) (fun h => by rw [hencode, ← hop, pack_fields0 h]) hoperands

/-- Format R1. -/
theorem ReadsAs.regs1 (hzeros : r.zeros = 0x000FFFFF)
    (hencode : encode i = packRegs r.op (faField w) 0#4 0#4 0#4)
    (hshape : decodeShape w = needZero (w.extractLsb' 0 20) i) : ReadsAs r w i :=
  .of_needZero hshape (hzeros.trans (by decide)) (fun h => by rw [hencode, ← hop, pack_fields1 h]) hoperands

/-- Format R2. -/
theorem ReadsAs.regs2 (hzeros : r.zeros = 0x0000FFFF)
    (hencode : encode i = packRegs r.op (faField w) (fbField w) 0#4 0#4)
    (hshape : decodeShape w = needZero (w.extractLsb' 0 16) i) : ReadsAs r w i :=
  .of_needZero hshape (hzeros.trans (by decide)) (fun h => by rw [hencode, ← hop, pack_fields2 h]) hoperands

/-- Format R3. -/
theorem ReadsAs.regs3 (hzeros : r.zeros = 0x00000FFF)
    (hencode : encode i = packRegs r.op (faField w) (fbField w) (fcField w) 0#4)
    (hshape : decodeShape w = needZero (w.extractLsb' 0 12) i) : ReadsAs r w i :=
  .of_needZero hshape (hzeros.trans (by decide)) (fun h => by rw [hencode, ← hop, pack_fields3 h]) hoperands

/-- Format R4. -/
theorem ReadsAs.regs4 (hzeros : r.zeros = 0x000000FF)
    (hencode : encode i = packRegs r.op (faField w) (fbField w) (fcField w) (fdField w))
    (hshape : decodeShape w = needZero (w.extractLsb' 0 8) i) : ReadsAs r w i :=
  .of_needZero hshape (hzeros.trans (by decide)) (fun h => by rw [hencode, ← hop, pack_fields4 h]) hoperands

/-- Formats I and M. -/
theorem ReadsAs.imm (hzeros : r.zeros = 0x000F0000)
    (hencode : encode i = packImm r.op (faField w) (immField w))
    (hshape : decodeShape w = needZero (w.extractLsb' 16 4) i) : ReadsAs r w i :=
  .of_needZero hshape (hzeros.trans (by decide)) (fun h => by rw [hencode, ← hop, pack_fieldsI h]) hoperands

/-- Format J. -/
theorem ReadsAs.jump (hzeros : r.zeros = 0x00FF0000) (hencode : encode i = packImm r.op 0#4 (immField w))
    (hshape : decodeShape w = needZero (w.extractLsb' 16 8) i) : ReadsAs r w i :=
  .of_needZero hshape (hzeros.trans (by decide)) (fun h => by rw [hencode, ← hop, pack_fieldsJ h]) hoperands

/-- Format B. -/
theorem ReadsAs.branch (hzeros : r.zeros = 0x001F0000)
    (hencode : encode i = packCond r.op (condField w) (immField w))
    (hshape : decodeShape w = needZero (w.extractLsb' 16 5) i) : ReadsAs r w i :=
  .of_needZero hshape (hzeros.trans (by decide)) (fun h => by rw [hencode, ← hop, pack_fieldsB h]) hoperands

end

/-! ### The operand constraints of a row -/

/-- A row with no point field that is neither MOVC nor DIVREM has no operand constraint. -/
theorem operands_of_free (hi : i.operandIllegal = none) (hr : r.odd = 0 ∧ r.op ≠ 0x04 ∧ r.op ≠ 0x15) :
    ∀ e, i.operandIllegal = some e ↔ breaksOperandRule r w e := by
  obtain ⟨hodd, hmovc, hdivrem⟩ := hr
  intro e
  rw [hi]
  cases e with
  | unassignedOpcode | mustBeZero => simp [breaksOperandRule]
  | oddPoint => simp [breaksOperandRule, hodd]
  | curveIndex => simp only [breaksOperandRule, hmovc, false_and, reduceCtorEq]
  | sameDestination => simp only [breaksOperandRule, hdivrem, false_and, reduceCtorEq]

/-- A row with one operand constraint, which the instruction checks by `c`. -/
theorem operands_of_single {c : Prop} [Decidable c] {e₀ : Illegal} (hi : i.operandIllegal = if c then none else some e₀)
    (hrule : breaksOperandRule r w e₀ ↔ ¬c) (hother : ∀ e, breaksOperandRule r w e → e = e₀) :
    ∀ e, i.operandIllegal = some e ↔ breaksOperandRule r w e := by
  intro e
  rw [hi]
  constructor
  · intro h
    split at h
    · cases h
    · next hc => cases h; exact hrule.2 hc
  · intro h
    obtain rfl := hother e h
    rw [if_neg (hrule.1 h)]

/-- A row of the point unit: every point field is even. -/
theorem operands_of_points {c : Bool} (hi : i.operandIllegal = if c then none else some .oddPoint)
    (hc : c = true ↔ w &&& r.odd = 0) (hr : r.op ≠ 0x04 ∧ r.op ≠ 0x15) :
    ∀ e, i.operandIllegal = some e ↔ breaksOperandRule r w e := by
  refine operands_of_single hi (not_congr hc.symm) fun e h => ?_
  cases e with
  | oddPoint => rfl
  | unassignedOpcode | mustBeZero => exact h.elim
  | curveIndex => exact absurd h.1 hr.1
  | sameDestination => exact absurd h.1 hr.2

/-- MOVC's index is at most 5. -/
theorem operands_of_movc (w : InsnWord) (rd : RegIx) (zeros : InsnWord) :
    ∀ e, (Instr.movc rd (fbField w)).operandIllegal = some e ↔ breaksOperandRule ⟨0x04, zeros, 0⟩ w e := by
  refine operands_of_single rfl ?_ fun e h => ?_
  · simp [breaksOperandRule, fbField]
  · cases e with
    | curveIndex => rfl
    | unassignedOpcode | mustBeZero => exact h.elim
    | oddPoint => simp [breaksOperandRule] at h
    | sameDestination => exact absurd h.1 (by decide : (0x04 : BitVec 8) ≠ 0x15)

/-- DIVREM's destinations differ. -/
theorem operands_of_divrem (w : InsnWord) (rs rt : RegIx) (zeros : InsnWord) :
    ∀ e, (Instr.divrem (faField w) (fbField w) rs rt).operandIllegal = some e ↔
      breaksOperandRule ⟨0x15, zeros, 0⟩ w e := by
  refine operands_of_single (c := faField w ≠ fbField w) (ite_not _ _ _).symm ?_ fun e h => ?_
  · simp [breaksOperandRule, faField, fbField]
  · cases e with
    | sameDestination => rfl
    | unassignedOpcode | mustBeZero => exact h.elim
    | oddPoint => simp [breaksOperandRule] at h
    | curveIndex => exact absurd h.1 (by decide : (0x15 : BitVec 8) ≠ 0x04)

/-! The point fields of a format, against the row's mask of their lowest bits. -/

theorem evenField_a_iff (w : InsnWord) : evenField (faField w) = true ↔ w &&& 0x00100000 = 0 := evenField_iff_mask w 20

theorem evenField_ab_iff (w : InsnWord) : (evenField (faField w) && evenField (fbField w)) = true ↔ w &&& 0x00110000 = 0 := by
  rw [Bool.and_eq_true, show (0x00110000 : InsnWord) = fieldMask 20 1 ||| fieldMask 16 1 by decide, and_or_eq_zero]
  exact and_congr (evenField_iff_mask w 20) (evenField_iff_mask w 16)

theorem evenField_ac_iff (w : InsnWord) : (evenField (faField w) && evenField (fcField w)) = true ↔ w &&& 0x00101000 = 0 := by
  rw [Bool.and_eq_true, show (0x00101000 : InsnWord) = fieldMask 20 1 ||| fieldMask 12 1 by decide, and_or_eq_zero]
  exact and_congr (evenField_iff_mask w 20) (evenField_iff_mask w 12)

theorem evenField_abc_iff (w : InsnWord) :
    (evenField (faField w) && evenField (fbField w) && evenField (fcField w)) = true ↔ w &&& 0x00111000 = 0 := by
  rw [Bool.and_eq_true, evenField_ab_iff, show (0x00111000 : InsnWord) = 0x00110000 ||| fieldMask 12 1 by decide, and_or_eq_zero]
  exact and_congr Iff.rfl (evenField_iff_mask w 12)

end

/-! ### Every row -/

/-- The decoder reads a word as its row of the opcode map says. -/
theorem readsAs_of_row (w : InsnWord) : ∀ r ∈ opcodeRows, opField w = r.op → ∃ i, ReadsAs r w i := by
  simp only [opcodeRows, List.forall_mem_append, List.forall_mem_cons]
  refine ⟨⟨⟨
    -- control and moves
    fun hop => ⟨.nop, .regs0 hop (operands_of_free rfl (by decide)) rfl rfl ?_⟩,
    fun hop => ⟨.halt, .regs0 hop (operands_of_free rfl (by decide)) rfl rfl ?_⟩,
    fun hop => ⟨.mov _ _, .regs2 hop (operands_of_free rfl (by decide)) rfl rfl ?_⟩,
    fun hop => ⟨.ldi _ _, .imm hop (operands_of_free rfl (by decide)) rfl rfl ?_⟩,
    fun hop => ⟨.movc _ _, .regs2 hop (operands_of_movc w _ _) rfl rfl ?_⟩,
    fun hop => ⟨.ld _ _, .imm hop (operands_of_free rfl (by decide)) rfl rfl ?_⟩,
    fun hop => ⟨.st _ _, .imm hop (operands_of_free rfl (by decide)) rfl rfl ?_⟩, List.forall_mem_nil _⟩, ⟨
    -- integers
    fun hop => ⟨.cmp _ _, .regs2 hop (operands_of_free rfl (by decide)) rfl rfl ?_⟩,
    fun hop => ⟨.cmpm _ _, .regs2 hop (operands_of_free rfl (by decide)) rfl rfl ?_⟩,
    fun hop => ⟨.add _ _ _, .regs3 hop (operands_of_free rfl (by decide)) rfl rfl ?_⟩,
    fun hop => ⟨.sub _ _ _, .regs3 hop (operands_of_free rfl (by decide)) rfl rfl ?_⟩,
    fun hop => ⟨.mul _ _ _, .regs3 hop (operands_of_free rfl (by decide)) rfl rfl ?_⟩,
    fun hop => ⟨.divrem _ _ _ _, .regs4 hop (operands_of_divrem w _ _ _) rfl rfl ?_⟩,
    fun hop => ⟨.mod _ _ _, .regs3 hop (operands_of_free rfl (by decide)) rfl rfl ?_⟩,
    fun hop => ⟨.modadd _ _ _ _, .regs4 hop (operands_of_free rfl (by decide)) rfl rfl ?_⟩,
    fun hop => ⟨.modsub _ _ _ _, .regs4 hop (operands_of_free rfl (by decide)) rfl rfl ?_⟩,
    fun hop => ⟨.modmul _ _ _ _, .regs4 hop (operands_of_free rfl (by decide)) rfl rfl ?_⟩,
    fun hop => ⟨.modinv _ _ _, .regs3 hop (operands_of_free rfl (by decide)) rfl rfl ?_⟩,
    fun hop => ⟨.bitlen _ _, .regs2 hop (operands_of_free rfl (by decide)) rfl rfl ?_⟩,
    fun hop => ⟨.getbit _ _ _, .regs3 hop (operands_of_free rfl (by decide)) rfl rfl ?_⟩, List.forall_mem_nil _⟩⟩,
    -- points and jumps
    fun hop => ⟨.pisid _, .regs1 hop (operands_of_points rfl (evenField_a_iff w) (by decide)) rfl rfl ?_⟩,
    fun hop => ⟨.pcmp _ _, .regs2 hop (operands_of_points rfl (evenField_ab_iff w) (by decide)) rfl rfl ?_⟩,
    fun hop => ⟨.padd _ _ _, .regs3 hop (operands_of_points rfl (evenField_abc_iff w) (by decide)) rfl rfl ?_⟩,
    fun hop => ⟨.pdbl _ _, .regs2 hop (operands_of_points rfl (evenField_ab_iff w) (by decide)) rfl rfl ?_⟩,
    fun hop => ⟨.pmul _ _ _, .regs3 hop (operands_of_points rfl (evenField_ac_iff w) (by decide)) rfl rfl ?_⟩,
    fun hop => ⟨.j _, .jump hop (operands_of_free rfl (by decide)) rfl rfl ?_⟩,
    fun hop => ⟨.b _ _, .branch hop (operands_of_free rfl (by decide)) rfl rfl ?_⟩, List.forall_mem_nil _⟩
  all_goals simp [decodeShape, hop]

/-- A word whose opcode is in no row. -/
theorem decodeShape_unassigned {w : InsnWord} (h : ∀ r ∈ opcodeRows, opField w ≠ r.op) :
    decodeShape w = .error .unassignedOpcode := by
  have hop : opField w ∉ opcodeRows.map (·.op) := fun hm =>
    have ⟨r, hr, e⟩ := List.mem_map.1 hm
    h r hr e.symm
  unfold decodeShape
  split
  case h_28 => rfl
  all_goals
    next hlit =>
      rw [hlit] at hop
      exact absurd (by decide) hop

/-! ## Decode and encode -/

/-- The encoder sets the fields that the decoder reads and leaves the must-be-zero bits of the format zero; one line for each
format. -/
theorem decodeShape_encode (i : Instr) : decodeShape (encode i) = .ok i := by
  cases i with
  | nop | halt => simp [decodeShape, encode, needZero]
  | pisid => simp [decodeShape, encode, needZero]
  | mov | movc | cmp | cmpm | bitlen | pcmp | pdbl => simp [decodeShape, encode, needZero]
  | add | sub | mul | mod | modinv | getbit | padd | pmul => simp [decodeShape, encode, needZero]
  | divrem | modadd | modsub | modmul => simp [decodeShape, encode, needZero]
  | ldi | ld | st => simp [decodeShape, encode, needZero]
  | j => simp [decodeShape, encode, needZero]
  | b => simp [decodeShape, encode, needZero]

/-- An accepted word is in a row, its must-be-zero bits are zero, and it is the encoding of what it is read as. -/
theorem encode_of_decodeShape {w : InsnWord} {i : Instr} (h : decodeShape w = .ok i) : encode i = w := by
  by_cases hop : ∃ r ∈ opcodeRows, opField w = r.op
  · obtain ⟨r, hr, hop⟩ := hop
    obtain ⟨j, hj⟩ := readsAs_of_row w r hr hop
    by_cases hz : w &&& r.zeros = 0
    · obtain rfl : j = i := Except.ok.inj ((hj.accepts hz).symm.trans h)
      exact hj.encodes hz
    · cases (hj.rejects hz).symm.trans h
  · cases (decodeShape_unassigned fun r hr e => hop ⟨r, hr, e⟩).symm.trans h

/-- Settles O1. -/
theorem decodeInvertsEncode : Obligations.DecodeInvertsEncode := fun i hwf =>
  decode_eq_ok.2 ⟨decodeShape_encode i, hwf⟩

/-- Settles O2. -/
theorem encodeInvertsDecode : Obligations.EncodeInvertsDecode := fun _ _ h =>
  have ⟨hshape, hwf⟩ := decode_eq_ok.1 h
  ⟨hwf, encode_of_decodeShape hshape⟩

/-- Settles O5: R89's encodings are evaluated, and the first round trip decodes them. -/
theorem sampleWordsDecode : Obligations.SampleWordsDecode := by
  have hadd : encode (.add 3 1 2) = 0x12312000 := by decide
  have hb : encode (.b 5 5) = 0x31A00005 := by decide
  have hpmul : encode (.pmul 8 1 6) = 0x24816000 := by decide
  exact ⟨hadd ▸ decodeInvertsEncode _ rfl, hb ▸ decodeInvertsEncode _ rfl, hpmul ▸ decodeInvertsEncode _ rfl,
    hadd, hb, hpmul⟩

/-! ## Rejected words (30_encoding.md R84, R86) -/

theorem decode_of_shape_error {w : InsnWord} {e : Illegal} (h : decodeShape w = .error e) : decode w = .error e := by
  rw [decode, h]

theorem decode_of_operandIllegal {w : InsnWord} {i : Instr} {e : Illegal} (h : decodeShape w = .ok i)
    (hi : i.operandIllegal = some e) : decode w = .error e := by
  simp only [decode, h, hi]

section
variable {r : OpcodeRow} {w : InsnWord} (hr : r ∈ opcodeRows) (hop : opField w = r.op)
include hr hop

theorem decode_mustBeZero (hz : w &&& r.zeros ≠ 0) : decode w = .error .mustBeZero := by
  obtain ⟨i, hi⟩ := readsAs_of_row w r hr hop
  exact decode_of_shape_error (hi.rejects hz)

theorem decode_breaksOperandRule {e : Illegal} (hz : w &&& r.zeros = 0) (he : breaksOperandRule r w e) :
    decode w = .error e := by
  obtain ⟨i, hi⟩ := readsAs_of_row w r hr hop
  exact decode_of_operandIllegal (hi.accepts hz) ((hi.operands e).2 he)

theorem decode_ok_of_row (hz : w &&& r.zeros = 0) (hlegal : ∀ e, ¬breaksOperandRule r w e) : ∃ i, decode w = .ok i := by
  obtain ⟨i, hi⟩ := readsAs_of_row w r hr hop
  refine ⟨i, decode_eq_ok.2 ⟨hi.accepts hz, ?_⟩⟩
  exact Option.isNone_iff_eq_none.2 (Option.eq_none_iff_forall_ne_some.2 fun e he => hlegal e ((hi.operands e).1 he))

/-- A word that breaks an operand constraint of its row is rejected, for that or for a must-be-zero bit. -/
theorem decode_error_of_breaks {e : Illegal} (he : breaksOperandRule r w e) : ∃ e', decode w = .error e' := by
  by_cases hz : w &&& r.zeros = 0
  · exact ⟨e, decode_breaksOperandRule hr hop hz he⟩
  · exact ⟨_, decode_mustBeZero hr hop hz⟩

end

/-- Settles O4. -/
theorem decodeRejectsInOrder : Obligations.DecodeRejectsInOrder := by
  intro w
  refine ⟨fun h => decode_of_shape_error (decodeShape_unassigned h), fun r hr hop => ?_⟩
  refine ⟨decode_mustBeZero hr hop, ?_, ?_, ?_⟩
  · exact fun hz hodd => decode_breaksOperandRule hr hop hz (e := .oddPoint) hodd
  · exact fun hz h4 hk => decode_breaksOperandRule hr hop hz (e := .curveIndex) ⟨h4, hk⟩
  · exact fun hz h15 hsame => decode_breaksOperandRule hr hop hz (e := .sameDestination) ⟨h15, hsame⟩

/-- The decoder rejects each of the five cases. -/
theorem decode_error_of_illegalWord {w : InsnWord} (h : illegalWord w) : ∃ e, decode w = .error e := by
  obtain hop | ⟨r, hr, hop, hz⟩ | ⟨r, hr, hop, hodd⟩ | ⟨hop, hk⟩ | ⟨hop, hsame⟩ := h
  · exact ⟨_, decode_of_shape_error (decodeShape_unassigned hop)⟩
  · exact ⟨_, decode_mustBeZero hr hop hz⟩
  · exact decode_error_of_breaks hr hop (e := .oddPoint) hodd
  · have hmovc : (⟨0x04, 0x0000FFFF, 0⟩ : OpcodeRow) ∈ opcodeRows := by decide
    exact decode_error_of_breaks hmovc hop (e := .curveIndex) ⟨rfl, hk⟩
  · have hdivrem : (⟨0x15, 0x000000FF, 0⟩ : OpcodeRow) ∈ opcodeRows := by decide
    exact decode_error_of_breaks hdivrem hop (e := .sameDestination) ⟨rfl, hsame⟩

/-- A broken operand constraint is one of cases 3 to 5. -/
theorem illegalWord_of_breaks {r : OpcodeRow} {w : InsnWord} {e : Illegal} (hr : r ∈ opcodeRows) (hop : opField w = r.op)
    (he : breaksOperandRule r w e) : illegalWord w := by
  cases e with
  | unassignedOpcode | mustBeZero => exact he.elim
  | oddPoint => exact .inr (.inr (.inl ⟨r, hr, hop, he⟩))
  | curveIndex =>
    obtain ⟨h4, hk⟩ := he
    exact .inr (.inr (.inr (.inl ⟨hop.trans h4, hk⟩)))
  | sameDestination =>
    obtain ⟨h15, hsame⟩ := he
    exact .inr (.inr (.inr (.inr ⟨hop.trans h15, hsame⟩)))

/-- The decoder accepts a word of none of the five cases. -/
theorem decode_ok_of_not_illegalWord {w : InsnWord} (h : ¬illegalWord w) : ∃ i, decode w = .ok i := by
  by_cases hop : ∃ r ∈ opcodeRows, opField w = r.op
  · obtain ⟨r, hr, hop⟩ := hop
    have hz : w &&& r.zeros = 0 := by
      by_contra hz
      exact h (.inr (.inl ⟨r, hr, hop, hz⟩))
    exact decode_ok_of_row hr hop hz fun e he => h (illegalWord_of_breaks hr hop he)
  · exact absurd (.inl fun r hr e => hop ⟨r, hr, e⟩) h

/-- A running engine that fetches a word the decoder rejects takes E_ILLEGAL with that word. -/
theorem step_of_decode_error {s : State} {w : InsnWord} {e : Illegal} (hrun : s.running)
    (hpc : s.pc.toNat < s.params.imemWords) (hw : imemWord s.imem s.pc.toNat = some w) (hd : decode w = .error e) :
    step s = .next (raiseError .illegal w s) := by
  simp only [step_running hrun, engineStep, if_neg (Nat.not_le.2 hpc), hw, hd]

/-- Settles O3. -/
theorem illegalWordsRaiseIllegal : Obligations.IllegalWordsRaiseIllegal := by
  intro w
  refine ⟨fun hill s hrun hpc hw => ?_, fun hlegal => ?_⟩
  · obtain ⟨e, hd⟩ := decode_error_of_illegalWord hill
    exact ⟨_, step_of_decode_error hrun hpc hw hd, raiseError_tookError _ _ _⟩
  · obtain ⟨i, hd⟩ := decode_ok_of_not_illegalWord hlegal
    obtain ⟨hwf, hencode⟩ := encodeInvertsDecode w i hd
    refine ⟨i, hd, hwf, hencode, fun j hj hjw => ?_⟩
    have hdj : decode w = .ok j := hjw ▸ decodeInvertsEncode j hj
    exact Except.ok.inj (hdj.symm.trans hd)

/-! ## Ill-formed instructions (log 8) -/

/-- MOVC of an index above 5 raises E_ILLEGAL. -/
theorem execMovc_raises {rd : RegIx} {k : BitVec 4} (h : (Instr.movc rd k).wf = false) (s : State) :
    execMovc rd k s = raise .illegal (.movc rd k) s := by
  have hk : ¬k.toNat < 6 := fun hlt => by
    simp [Instr.wf, Instr.operandIllegal, Nat.le_of_lt_succ hlt] at h
  rw [execMovc, dif_neg hk]

/-- Settles O36: an instruction that has an operand constraint checks it first, and no other is ill-formed. -/
theorem illFormedInstructionsRaiseIllegal : Obligations.IllFormedInstructionsRaiseIllegal := by
  intro i s h
  cases i with
  | movc rd k =>
    show ∃ t, execMovc rd k s = .next t ∧ _
    rw [execMovc_raises h]
    exact raise_next _ _ _
  | divrem | pisid | pcmp | padd | pdbl | pmul => exact checkLegal_raises h s _
  | _ => cases h

end Sys2Proof.Proofs
end

section
/-! Proofs of the statements about the integer engine (40_bigint.md): the flag of a comparison, exact results and E_OVERFLOW, floor
division by a divisor of either sign, and the bits of a magnitude. -/

namespace Sys2Proof.Proofs

open Sys2Proof Sys2Proof.Machine Sys2Proof.Laws

/-! ## The words of formats R2 and R3 (30_encoding.md R78) -/

/-- Format R3: the unused fourth field and the zero byte are one field of twelve zero bits. -/
theorem packRegs_three (op : BitVec 8) (a b c : BitVec 4) : packRegs op a b c 0#4 = op ++ a ++ b ++ c ++ 0#12 := by
  apply BitVec.eq_of_toNat_eq
  rw [toNat_packRegs]
  simp only [toNat_append_add, BitVec.toNat_ofNat]
  omega

/-- Format R2: the two unused fields and the zero byte are one field of sixteen zero bits. -/
theorem packRegs_two (op : BitVec 8) (a b : BitVec 4) : packRegs op a b 0#4 0#4 = op ++ a ++ b ++ 0#16 := by
  apply BitVec.eq_of_toNat_eq
  rw [toNat_packRegs]
  simp only [toNat_append_add, BitVec.toNat_ofNat]
  omega

/-! ## Comparisons (40_bigint.md R100, R101) -/

theorem compareFlags_of_lt {a b : Int} (h : a < b) : compareFlags a b = 0b001#3 := if_pos h

theorem compareFlags_of_eq {a b : Int} (h : a = b) : compareFlags a b = 0b010#3 :=
  (if_neg h.not_lt).trans (if_pos h)

theorem compareFlags_of_gt {a b : Int} (h : b < a) : compareFlags a b = 0b100#3 :=
  (if_neg h.not_gt).trans (if_neg h.ne')

/-- A commit of the comparison of `a` and `b` sets the one flag that holds of them, and writes nothing else but the PC. -/
theorem commit_compareFlags (a b : Int) (s : State) :
    ∃ t, commitFlags (compareFlags a b) s = .next t ∧ wroteFlagsOnly s t ∧
      (a < b → t.flags = 0b001#3) ∧ (a = b → t.flags = 0b010#3) ∧ (b < a → t.flags = 0b100#3) := by
  obtain ⟨t, ht, hflags, hframe⟩ := commitFlags_next (compareFlags a b) s
  refine ⟨t, ht, hframe, ?_⟩
  rw [hflags]
  exact ⟨compareFlags_of_lt, compareFlags_of_eq, compareFlags_of_gt⟩

/-- CMPM compares the magnitudes as natural numbers. -/
theorem exec_cmpm (rs rt : RegIx) (s : State) :
    exec (.cmpm rs rt) s = commitFlags (compareFlags (s.val rs).natAbs (s.val rt).natAbs) s := by
  rw [← Int.abs_eq_natAbs, ← Int.abs_eq_natAbs]
  rfl

/-- Settles O16. -/
theorem comparesSetOneFlag : Obligations.ComparesSetOneFlag := by
  intro rs rt s
  refine ⟨⟨packRegs_two _ _ _, commit_compareFlags _ _ s⟩, packRegs_two _ _ _, ?_⟩
  rw [exec_cmpm]
  simpa only [Nat.cast_lt, Nat.cast_inj] using commit_compareFlags (s.val rs).natAbs (s.val rt).natAbs s

/-! ## Sum, difference and product (40_bigint.md R102, R103, R104) -/

/-- A result that fits is written. -/
theorem commitReg_of_fits {v : Int} (h : v.natAbs ≤ 2 ^ 576 - 1) (i : Instr) (rd : RegIx) (s : State) :
    ∃ t, check (fits v) .overflow i s (commitReg rd v s) = .next t ∧ t.val rd = v ∧ wroteOnly [rd] s t := by
  rw [check_pos (fits_iff.2 h)]
  exact commitReg_next (fits_iff.2 h) s

/-- A result that does not fit takes E_OVERFLOW. -/
theorem overflow_of_not_fits {v : Int} (h : 2 ^ 576 - 1 < v.natAbs) (i : Instr) (s : State) (k : Res) :
    ∃ t, check (fits v) .overflow i s k = .next t ∧ tookError .overflow (encode i) s t :=
  check_raises (fun hv => Nat.not_le.2 h (fits_iff.1 hv)) _ i s k

/-- R104: the product of two magnitudes of field width has at most 512 bits. -/
theorem natAbs_mul_le_of_fieldWidth {a b : Int} (ha : a.natAbs < 2 ^ 256) (hb : b.natAbs < 2 ^ 256) :
    (a * b).natAbs ≤ 2 ^ 576 - 1 :=
  calc (a * b).natAbs = a.natAbs * b.natAbs := Int.natAbs_mul a b
    _ ≤ 2 ^ 256 * 2 ^ 256 := Nat.mul_le_mul ha.le hb.le
    _ ≤ 2 ^ 576 - 1 := by decide +kernel

/-- Settles O17. -/
theorem addSubMulAreExact : Obligations.AddSubMulAreExact := by
  intro rd rs rt s
  refine ⟨⟨packRegs_three _ _ _ _, ?_, ?_⟩, ⟨packRegs_three _ _ _ _, ?_, ?_⟩, packRegs_three _ _ _ _, ?_, ?_, ?_⟩
  · exact fun h => commitReg_of_fits h (.add rd rs rt) rd s
  · exact fun h => overflow_of_not_fits h (.add rd rs rt) s _
  · exact fun h => commitReg_of_fits h (.sub rd rs rt) rd s
  · exact fun h => overflow_of_not_fits h (.sub rd rs rt) s _
  · exact fun h => commitReg_of_fits h (.mul rd rs rt) rd s
  · exact fun h => overflow_of_not_fits h (.mul rd rs rt) s _
  · exact natAbs_mul_le_of_fieldWidth

/-! ## Floor division (40_bigint.md R105, R106) -/

/-- The floor remainder by a negative modulus lies in (m, 0]. -/
theorem fmod_range_of_neg {m : Int} (a : Int) (h : m < 0) : m < Int.fmod a m ∧ Int.fmod a m ≤ 0 := by
  have hr := fmod_range (-a) (neg_pos.2 h)
  rw [Int.neg_fmod_neg] at hr
  omega

theorem natAbs_fmod_lt {m : Int} (a : Int) (h : m ≠ 0) : (Int.fmod a m).natAbs < m.natAbs := by
  rcases lt_or_gt_of_ne h with hneg | hpos
  · have hr := fmod_range_of_neg a hneg
    omega
  · have hr := fmod_range a hpos
    omega

/-- A floor remainder that is not zero has the divisor's sign. -/
theorem sign_fmod {m : Int} (a : Int) (h : m ≠ 0) : Int.fmod a m = 0 ∨ (Int.fmod a m).sign = m.sign := by
  by_cases h0 : Int.fmod a m = 0
  · exact .inl h0
  right
  rcases lt_or_gt_of_ne h with hneg | hpos
  · have hr : Int.fmod a m < 0 := lt_of_le_of_ne (fmod_range_of_neg a hneg).2 h0
    rw [Int.sign_eq_neg_one_of_neg hr, Int.sign_eq_neg_one_of_neg hneg]
  · have hr : 0 < Int.fmod a m := lt_of_le_of_ne (fmod_range a hpos).1 (Ne.symm h0)
    rw [Int.sign_eq_one_of_pos hr, Int.sign_eq_one_of_pos hpos]

/-- DIVREM's one operand constraint (30_encoding.md R84, case 5). -/
theorem divrem_operandIllegal (rq rr rs rt : RegIx) :
    (Instr.divrem rq rr rs rt).operandIllegal = if rq = rr then some .sameDestination else none := rfl

theorem divrem_wf {rq rr : RegIx} (h : rq ≠ rr) (rs rt : RegIx) : (Instr.divrem rq rr rs rt).wf = true := by
  rw [Instr.wf, divrem_operandIllegal, if_neg h, Option.isNone_none]

/-- A legal DIVREM is the check of its divisor and the commit of both results. -/
theorem exec_divrem {rq rr : RegIx} (h : rq ≠ rr) (rs rt : RegIx) (s : State) :
    exec (.divrem rq rr rs rt) s = check (s.val rt ≠ 0) .divZero (.divrem rq rr rs rt) s
      (commitRegs rq (Int.fdiv (s.val rs) (s.val rt)) rr (Int.fmod (s.val rs) (s.val rt)) s) :=
  checkLegal_pos (divrem_wf h rs rt) s _

/-- DIVREM by a divisor that is not zero writes the floor quotient and the floor remainder. -/
theorem exec_divrem_next {rq rr rs rt : RegIx} {s : State} (hne : rq ≠ rr) (h0 : s.val rt ≠ 0) :
    ∃ t, exec (.divrem rq rr rs rt) s = .next t ∧ t.val rq = Int.fdiv (s.val rs) (s.val rt) ∧
      t.val rr = Int.fmod (s.val rs) (s.val rt) ∧ wroteOnly [rq, rr] s t := by
  rw [exec_divrem hne, check_pos h0]
  exact commitRegs_next hne (fits_fdiv (fits_val s rs) _) (fits_fmod _ h0 (fits_val s rt)) s

/-- MOD by a divisor that is not zero writes the floor remainder. -/
theorem exec_mod_next {rs rt : RegIx} {s : State} (rd : RegIx) (h0 : s.val rt ≠ 0) :
    ∃ t, exec (.mod rd rs rt) s = .next t ∧ t.val rd = Int.fmod (s.val rs) (s.val rt) ∧ wroteOnly [rd] s t := by
  show ∃ t, execMod rd rs rt s = .next t ∧ _
  rw [execMod, check_pos h0]
  exact commitReg_next (fits_fmod _ h0 (fits_val s rt)) s

/-- Settles O18: the results are computed before either register is written, so the destinations may be sources. -/
theorem divisionIsFloorDivision : Obligations.DivisionIsFloorDivision := by
  intro rq rr rd rs rt s
  refine ⟨⟨rfl, fun hne h0 => ?_, fun hne h0 => ?_, fun heq => ?_⟩, packRegs_three _ _ _ _, fun h0 => ?_, fun h0 => ?_⟩
  · obtain ⟨t, ht, hq, hr, hframe⟩ := exec_divrem_next (rs := rs) hne h0
    refine ⟨t, ht, ?_⟩
    rw [hq, hr]
    exact ⟨(Int.fdiv_mul_add_fmod _ _).symm, natAbs_fmod_lt _ h0, sign_fmod _ h0, hframe⟩
  · rw [exec_divrem hne]
    exact check_raises (not_not.2 h0) _ _ s _
  · exact decode_of_operandIllegal (decodeShape_encode _) (if_pos heq)
  · obtain ⟨t, ht, hr, hframe⟩ := exec_mod_next (rs := rs) rd h0
    refine ⟨t, ht, ?_⟩
    rw [hr]
    exact ⟨Int.dvd_self_sub_fmod, natAbs_fmod_lt _ h0, sign_fmod _ h0, hframe⟩
  · exact check_raises (not_not.2 h0) .divZero (.mod rd rs rt) s _

/-! ## Bits of a magnitude (40_bigint.md R107, R108) -/

/-- Below the bit length no power of two exceeds the number. -/
theorem two_pow_le_of_lt_bitlenOf {m k : Nat} (h : k < bitlenOf m) : 2 ^ k ≤ m :=
  Nat.not_lt.1 (mt bitlenOf_le.2 (Nat.not_le.2 h))

/-- The magnitude of a register has at most 576 bits. -/
theorem bitlenOf_val_le (s : State) (r : RegIx) : bitlenOf (s.val r).natAbs ≤ 576 :=
  bitlenOf_le.2 (lt_of_le_of_lt (fits_val s r) maxMag_bounds.2)

/-- GETBIT of the index `i` writes bit `i` of the magnitude. -/
theorem exec_getbit_next {rt : RegIx} {s : State} {i : Nat} (rd rs : RegIx) (hi : s.val rt = i) :
    ∃ t, exec (.getbit rd rs rt) s = .next t ∧ t.val rd = (bitOf (s.val rs).natAbs i : Int) ∧ wroteOnly [rd] s t := by
  show ∃ t, execGetbit rd rs rt s = .next t ∧ _
  rw [execGetbit, hi, check_pos (Int.natCast_nonneg i), Int.toNat_natCast]
  exact commitReg_next (fits_bitOf _ _) s

/-- Settles O19. -/
theorem bitLengthAndBit : Obligations.BitLengthAndBit := by
  intro rd rs rt s
  refine ⟨⟨packRegs_two _ _ _, ?_⟩, packRegs_three _ _ _ _, fun i hi => ?_, fun hneg => ?_⟩
  · obtain ⟨t, ht, hv, hframe⟩ := commitReg_next (rd := rd) (fits_bitlenOf (fits_val s rs)) s
    exact ⟨t, ht, hframe, _, hv, bitlenOf_val_le s rs, lt_two_pow_bitlenOf _, fun k => two_pow_le_of_lt_bitlenOf⟩
  · rw [← bitOf_eq]
    exact exec_getbit_next rd rs hi
  · exact check_raises (Int.not_le.2 hneg) .operand (.getbit rd rs rt) s _

end Sys2Proof.Proofs
end

section
/-! Proofs of the statements about the modular instructions (41_modular.md): the modulus check before the unreduced result, the one
representative in [0, m), and the inverse. -/

namespace Sys2Proof.Proofs

open Sys2Proof Sys2Proof.Machine Sys2Proof.Laws

/-! ## Sum, difference and product modulo m (41_modular.md R120, R121, R122) -/

/-- What MODADD, MODSUB and MODMUL share: the modulus check, the unreduced result `v` that must fit, its floor remainder by the
modulus committed. -/
def reduceInto (rd rm : RegIx) (v : Int) (i : Instr) (s : State) : Res :=
  modulusCheck (s.val rm) i s (check (fits v) .overflow i s (commitReg rd (Int.fmod v (s.val rm)) s))

/-- Each of the three is the shared operation on its own unreduced result. -/
theorem exec_eq_reduceInto {i : Instr} {v : Int} {rd rs rt rm : RegIx} {s : State}
    (h : i = .modadd rd rs rt rm ∧ v = s.val rs + s.val rt ∨ i = .modsub rd rs rt rm ∧ v = s.val rs - s.val rt ∨
      i = .modmul rd rs rt rm ∧ v = s.val rs * s.val rt) :
    exec i s = reduceInto rd rm v i s := by
  obtain ⟨rfl, rfl⟩ | ⟨rfl, rfl⟩ | ⟨rfl, rfl⟩ := h
  · rfl
  · rfl
  · rfl

/-- The modulus is checked before the unreduced result: an overflow is seen only where m > 0. -/
theorem reduceInto_overflow {rm : RegIx} {v : Int} {s : State} (hm : 0 < s.val rm) (hv : 2 ^ 576 - 1 < v.natAbs)
    (rd : RegIx) (i : Instr) : ∃ t, reduceInto rd rm v i s = .next t ∧ tookError .overflow (encode i) s t := by
  rw [reduceInto, modulusCheck_pos hm]
  exact overflow_of_not_fits hv i s _

/-- An unreduced result that fits leaves its floor remainder, which fits since the modulus does. -/
theorem reduceInto_next {rm : RegIx} {v : Int} {s : State} (hm : 0 < s.val rm) (hv : v.natAbs ≤ 2 ^ 576 - 1)
    (rd : RegIx) (i : Instr) :
    ∃ t, reduceInto rd rm v i s = .next t ∧ t.val rd = Int.fmod v (s.val rm) ∧ wroteOnly [rd] s t := by
  rw [reduceInto, modulusCheck_pos hm, check_pos (fits_iff.2 hv)]
  exact commitReg_next (fits_fmod v hm.ne' (fits_val s rm)) s

/-- Settles O20. -/
theorem modularResultsAreReduced : Obligations.ModularResultsAreReduced := by
  intro rd rs rt rm s
  refine ⟨rfl, rfl, rfl, fun i v hi => ?_⟩
  rw [exec_eq_reduceInto hi]
  refine ⟨fun h0 => ?_, fun hneg => ?_, fun hpos hv => ?_, fun hpos hv => ?_⟩
  · exact modulusCheck_zero h0 i s _
  · exact modulusCheck_neg hneg i s _
  · exact reduceInto_overflow hpos hv rd i
  · obtain ⟨t, ht, hr, hframe⟩ := reduceInto_next hpos hv rd i
    refine ⟨t, ht, ?_⟩
    rw [hr]
    exact ⟨fmod_range v hpos, Int.dvd_self_sub_fmod, hframe⟩

/-! ## The inverse modulo m (41_modular.md R123) -/

/-- Two inverses of `a` in [0, m) are one. -/
theorem inverse_unique_of_range {a m x y : Int} (hx : 0 ≤ x ∧ x < m) (hy : 0 ≤ y ∧ y < m) (hax : a * x % m = 1 % m)
    (hay : a * y % m = 1 % m) : x = y :=
  calc x = 1 * x % m := by rw [one_mul, Int.emod_eq_of_lt hx.1 hx.2]
    _ = 1 * y % m := mul_inverse_unique hax hay
    _ = y := by rw [one_mul, Int.emod_eq_of_lt hy.1 hy.2]

/-- MODINV of an operand without an inverse takes E_NOINV. -/
theorem exec_modinv_raises {rs rm : RegIx} {s : State} (hm : 0 < s.val rm) (hg : Int.gcd (s.val rs) (s.val rm) ≠ 1)
    (rd : RegIx) : exec (.modinv rd rs rm) s = raise .noInv (.modinv rd rs rm) s := by
  show execModinv rd rs rm s = _
  rw [execModinv, modulusCheck_pos hm, (modInverse_eq_none hm).2 hg]

/-- MODINV of an operand with the inverse `x` commits it. -/
theorem exec_modinv_commits {rs rm : RegIx} {s : State} {x : Int} (hm : 0 < s.val rm)
    (hx : modInverse (s.val rs) (s.val rm) = some x) (rd : RegIx) : exec (.modinv rd rs rm) s = commitReg rd x s := by
  show execModinv rd rs rm s = _
  rw [execModinv, modulusCheck_pos hm, hx]

/-- Settles O21: the operand need not be reduced, and for m = 1 the one number in [0, m), 0, is the inverse. -/
theorem modinvIsTheInverse : Obligations.ModinvIsTheInverse := by
  intro rd rs rm s
  refine ⟨packRegs_three _ _ _ _, fun h0 => ?_, fun hneg => ?_, fun hpos hg => ?_, fun hpos hg => ?_⟩
  · exact modulusCheck_zero h0 (.modinv rd rs rm) s _
  · exact modulusCheck_neg hneg (.modinv rd rs rm) s _
  · rw [exec_modinv_raises hpos hg]
    exact raise_next _ _ s
  · obtain ⟨x, hx, hlo, hhi, hinv⟩ := modInverse_spec hpos hg
    obtain ⟨t, ht, hv, hframe⟩ := commitReg_next (rd := rd) (fits_modInverse hpos (fits_val s rm) hx) s
    rw [exec_modinv_commits hpos hx]
    refine ⟨t, ht, hframe, ?_⟩
    rw [hv]
    exact ⟨⟨hlo, hhi⟩, hinv, fun y hy0 hym hy => inverse_unique_of_range ⟨hy0, hym⟩ ⟨hlo, hhi⟩ hy hinv⟩

end Sys2Proof.Proofs
end

section
/-! Proofs of the statements about the curve group (42_curve.md): the point tests, the point-unit check, the double, the sum and the
multiple of a point, what holds over an odd prime, and that the adder is commutative. -/

namespace Sys2Proof.Proofs

open Sys2Proof Sys2Proof.Machine Sys2Proof.Laws

/-- A point is its two coordinates. -/
theorem point_ext_iff {q r : Point} : q = r ↔ q.x = r.x ∧ q.y = r.y := by
  cases q
  cases r
  exact Iff.of_eq (Point.mk.injEq ..)

/-! ## The doubler and the adder answer exactly what the relations say (42_curve.md R134, R135) -/

theorem ecdbl_eq_some_iff {p a : Int} {q r : Point} (hp : 0 < p) : ecdbl p a q = some r ↔ DoublesTo p a q r := by
  by_cases hc : canDouble p q
  · obtain ⟨r', hr', hd, -⟩ := ecdbl_spec hp a hc
    rw [hr', Option.some.injEq]
    exact ⟨fun h => h ▸ hd, doublesTo_unique hd⟩
  · rw [ecdbl_eq_none hp a hc]
    exact iff_of_false nofun fun hd => hc (canDouble_of_doublesTo hd)

theorem ecadd_eq_some_iff {p a : Int} {q r t : Point} (hp : 0 < p) (hq : pointOk p q) (hr : pointOk p r) :
    ecadd p a q r = some t ↔ AddsTo p a q r t := by
  by_cases hc : canAdd p q r
  · obtain ⟨t', ht', ha, -⟩ := ecadd_spec hp a hq hr hc
    rw [ht', Option.some.injEq]
    exact ⟨fun h => h ▸ ha, addsTo_unique ha⟩
  · rw [ecadd_eq_none hp a hc]
    exact iff_of_false nofun fun ha => hc (canAdd_of_addsTo ha)

/-! ## The adder is commutative (42_curve.md R138) -/

/-- The chord of slope `l` gives the same y from either of its two points, since `l * (x2 - x1) ≡ y2 - y1`; `d` is the inverse of
the difference of the x coordinates. -/
theorem chord_symm {p x1 y1 x2 y2 d l : Int} (x : Int) (hd : (x2 - x1) * d % p = 1 % p) (hl : l = (y2 - y1) * d % p) :
    (l * (x1 - x) - y1) % p = (l * (x2 - x) - y2) % p := by
  have hslope : l ≡ (y2 - y1) * d [ZMOD p] := hl ▸ Int.mod_modEq _ p
  have hrise : l * (x2 - x1) ≡ y2 - y1 [ZMOD p] :=
    calc l * (x2 - x1) ≡ (y2 - y1) * d * (x2 - x1) [ZMOD p] := hslope.mul_right _
      _ = (y2 - y1) * ((x2 - x1) * d) := by ring
      _ ≡ (y2 - y1) * 1 [ZMOD p] := Int.ModEq.mul_left _ hd
      _ = y2 - y1 := mul_one _
  calc l * (x1 - x) - y1 = l * (x2 - x) - y1 - l * (x2 - x1) := by ring
    _ ≡ l * (x2 - x) - y1 - (y2 - y1) [ZMOD p] := hrise.sub_left _
    _ = l * (x2 - x) - y2 := by ring

/-- A sum is the sum in the other order; the chord's slope is the same by the inverse `-d`. -/
theorem addsTo_symm {p a : Int} {q r t : Point} (h : AddsTo p a q r t) : AddsTo p a r q t := by
  obtain ⟨hq, ht⟩ | ⟨-, hr, ht⟩ | ⟨hq, hr, rfl, hd⟩ | ⟨hq, hr, hx, hy, ht⟩ | ⟨hq, hr, hx, d, l, hd, hl, htx, hty⟩ := h
  · by_cases hr : r = identity
    · exact .inl ⟨hr, ht.trans (hr.trans hq.symm)⟩
    · exact .inr (.inl ⟨hr, hq, ht⟩)
  · exact .inl ⟨hr, ht⟩
  · exact .inr (.inr (.inl ⟨hr, hq, rfl, hd⟩))
  · exact .inr (.inr (.inr (.inl ⟨hr, hq, hx.symm, hy.symm, ht⟩)))
  · refine .inr (.inr (.inr (.inr ⟨hr, hq, hx.symm, -d, l, ?_, ?_, ?_, ?_⟩)))
    · rw [← hd, show (q.x - r.x) * -d = (r.x - q.x) * d by ring]
    · rw [hl, show (q.y - r.y) * -d = (r.y - q.y) * d by ring]
    · rw [htx, sub_right_comm]
    · rw [hty, chord_symm t.x hd hl]

/-- Settles O28: each order answers exactly the sums of the relation, and the relation is symmetric. -/
theorem pointAdditionCommutes : Obligations.PointAdditionCommutes := by
  intro p a q r hp hq hr
  ext t
  exact (ecadd_eq_some_iff hp hq hr).trans (.trans ⟨addsTo_symm, addsTo_symm⟩ (ecadd_eq_some_iff hp hr hq).symm)

/-! ## The multiplier is doubling and adding (42_curve.md R136) -/

/-- One turn of the loop: double the accumulator and, where the bit is 1, add the point. -/
def mulStep (p a : Int) (q : Point) (bit : Bool) (acc : Point) : Option Point :=
  (ecdbl p a acc).bind fun d => if bit then ecadd p a d q else some d

/-- The loop begins with the turn of its most significant bit. -/
theorem ecmulLoop_succ (p a : Int) (k : Nat) (q : Point) (n : Nat) (acc : Point) :
    ecmulLoop p a k q (n + 1) acc = (mulStep p a q (k.testBit n) acc).bind (ecmulLoop p a k q n) := by
  rw [ecmulLoop, mulStep]
  cases ecdbl p a acc with
  | none => rfl
  | some d =>
    cases k.testBit n with
    | false => rfl
    | true =>
      simp only [Option.bind_some, if_true]
      cases ecadd p a d q with
      | none => rfl
      | some e => rfl

/-- The loop ends with the turn of bit 0, after the turns of the bits of `k / 2`. -/
theorem ecmulLoop_succ_last (p a : Int) (k : Nat) (q : Point) (n : Nat) (acc : Point) :
    ecmulLoop p a k q (n + 1) acc = (ecmulLoop p a (k / 2) q n acc).bind (mulStep p a q (k.testBit 0)) := by
  induction n generalizing acc with
  | zero => rw [ecmulLoop_succ]; exact Option.bind_fun_some _
  | succ n ih =>
    calc ecmulLoop p a k q (n + 2) acc
      _ = (mulStep p a q (k.testBit (n + 1)) acc).bind (ecmulLoop p a k q (n + 1)) := ecmulLoop_succ _ _ _ _ _ _
      _ = (mulStep p a q ((k / 2).testBit n) acc).bind
            fun e => (ecmulLoop p a (k / 2) q n e).bind (mulStep p a q (k.testBit 0)) := by
        rw [Nat.testBit_succ, funext ih]
      _ = (ecmulLoop p a (k / 2) q (n + 1) acc).bind (mulStep p a q (k.testBit 0)) := by
        rw [ecmulLoop_succ, Option.bind_assoc]

theorem mulsTo_zero_iff {p a : Int} {q r : Point} : MulsTo p a q 0 r ↔ r = identity := by
  constructor
  · intro h
    generalize hk : 0 = k at h
    cases h with
    | zero => rfl
    | double hpos _ _ => omega
    | doubleAdd _ _ _ => omega
  · rintro rfl
    exact .zero

/-- The multiple by an even number; for 0 the double is that of the identity. -/
theorem mulsTo_even_iff {p a : Int} {q r' : Point} {k : Nat} :
    MulsTo p a q (2 * k) r' ↔ ∃ r, MulsTo p a q k r ∧ DoublesTo p a r r' := by
  constructor
  · intro h
    generalize hm : 2 * k = m at h
    cases h with
    | zero =>
      obtain rfl : k = 0 := by omega
      exact ⟨identity, .zero, .inl ⟨rfl, rfl⟩⟩
    | @double k' r _ _ hmul hdbl =>
      obtain rfl : k' = k := by omega
      exact ⟨r, hmul, hdbl⟩
    | doubleAdd _ _ _ => omega
  · rintro ⟨r, hmul, hdbl⟩
    rcases Nat.eq_zero_or_pos k with rfl | hpos
    · obtain rfl := mulsTo_zero_iff.1 hmul
      exact mulsTo_zero_iff.2 (doublesTo_unique hdbl (.inl ⟨rfl, rfl⟩))
    · exact .double hpos hmul hdbl

theorem mulsTo_odd_iff {p a : Int} {q r'' : Point} {k : Nat} :
    MulsTo p a q (2 * k + 1) r'' ↔ ∃ r, MulsTo p a q k r ∧ ∃ r', DoublesTo p a r r' ∧ AddsTo p a r' q r'' := by
  constructor
  · intro h
    generalize hm : 2 * k + 1 = m at h
    cases h with
    | zero => omega
    | double _ _ _ => omega
    | @doubleAdd k' r r' _ hmul hdbl hadd =>
      obtain rfl : k' = k := by omega
      exact ⟨r, hmul, r', hdbl, hadd⟩
  · rintro ⟨r, hmul, r', hdbl, hadd⟩
    exact .doubleAdd hmul hdbl hadd

/-- A turn of the loop in terms of the relations. -/
theorem mulStep_eq_some_iff {p a : Int} {q acc r : Point} (hp : 0 < p) (hq : pointOk p q) (bit : Bool) :
    mulStep p a q bit acc = some r ↔
      if bit then ∃ d, DoublesTo p a acc d ∧ AddsTo p a d q r else DoublesTo p a acc r := by
  cases bit with
  | false => simp [mulStep, ecdbl_eq_some_iff hp]
  | true =>
    simp only [mulStep, Option.bind_eq_some_iff, if_true, ecdbl_eq_some_iff hp]
    refine exists_congr fun d => and_congr_right fun hd => ecadd_eq_some_iff hp ?_ hq
    exact ecdbl_pointOk hp ((ecdbl_eq_some_iff hp).2 hd)

/-- The multiple by `k` is one more turn, of bit 0, after the multiple by `k / 2`. -/
theorem mulsTo_iff_mulStep {p a : Int} {q r : Point} (hp : 0 < p) (hq : pointOk p q) (k : Nat) :
    MulsTo p a q k r ↔ ∃ acc, MulsTo p a q (k / 2) acc ∧ mulStep p a q (k.testBit 0) acc = some r := by
  simp only [mulStep_eq_some_iff hp hq, Nat.testBit_zero, decide_eq_true_eq]
  rcases Nat.mod_two_eq_zero_or_one k with h | h
  · have hk : k = 2 * (k / 2) := by omega
    simp only [h, zero_ne_one, if_false]
    rw [← mulsTo_even_iff, ← hk]
  · have hk : k = 2 * (k / 2) + 1 := by omega
    simp only [h, if_true]
    rw [← mulsTo_odd_iff, ← hk]

/-- The loop over enough bits answers exactly the multiple; bits above the most significant one double the identity. -/
theorem ecmulLoop_eq_some_iff {p a : Int} {q r : Point} (hp : 0 < p) (hq : pointOk p q) {n k : Nat} (hk : k < 2 ^ n) :
    ecmulLoop p a k q n identity = some r ↔ MulsTo p a q k r := by
  induction n generalizing k r with
  | zero =>
    obtain rfl : k = 0 := by omega
    rw [ecmulLoop, mulsTo_zero_iff, Option.some.injEq, eq_comm]
  | succ n ih =>
    have hhalf : k / 2 < 2 ^ n := by omega
    rw [ecmulLoop_succ_last, Option.bind_eq_some_iff, mulsTo_iff_mulStep hp hq]
    simp only [ih hhalf]

/-- The loop adds the identity to the identity. -/
theorem ecmulLoop_identity (p a : Int) (k n : Nat) : ecmulLoop p a k identity n identity = some identity := by
  induction n with
  | zero => rfl
  | succ n ih =>
    have hstep : mulStep p a identity (k.testBit n) identity = some identity := by cases k.testBit n <;> rfl
    rw [ecmulLoop_succ, hstep]
    exact ih

/-- The two shortcuts of the multiplier answer what the loop answers. -/
theorem ecmul_eq_loop (p a : Int) (k : Nat) (q : Point) : ecmul p a k q = ecmulLoop p a k q (bitlenOf k) identity := by
  unfold ecmul
  split
  · next h =>
    obtain hk | hq := Bool.or_eq_true_iff.1 h
    · obtain rfl : k = 0 := by simpa using hk
      rfl
    · rw [isId_iff.1 hq, ecmulLoop_identity]
  · rfl

theorem ecmul_eq_some_iff {p a : Int} {k : Nat} {q r : Point} (hp : 0 < p) (hq : pointOk p q) :
    ecmul p a k q = some r ↔ MulsTo p a q k r := by
  rw [ecmul_eq_loop, ecmulLoop_eq_some_iff hp hq (lt_two_pow_bitlenOf k)]

/-! ## The instructions of the point unit (42_curve.md R133) -/

theorem fieldP_eq (s : State) : s.fieldP = s.curve[0].value := rfl

theorem coeffA_eq (s : State) : s.coeffA = s.curve[1].value := rfl

/-- What PADD, PDBL and PMUL share: the point-unit check of the operands `qs`, and the answer of the point function committed. -/
def pointInto (pd : RegIx) (qs : List Point) (o : Option Point) (i : Instr) (s : State) : Res :=
  pointCheck qs i s (commitPointOr pd o i s)

theorem exec_padd {pd ps pt : RegIx} (h : (Instr.padd pd ps pt).wf = true) (s : State) :
    exec (.padd pd ps pt) s = pointInto pd [s.point ps, s.point pt]
      (ecadd s.fieldP s.coeffA (s.point ps) (s.point pt)) (.padd pd ps pt) s := checkLegal_pos h s _

theorem exec_pdbl {pd ps : RegIx} (h : (Instr.pdbl pd ps).wf = true) (s : State) :
    exec (.pdbl pd ps) s = pointInto pd [s.point ps] (ecdbl s.fieldP s.coeffA (s.point ps)) (.pdbl pd ps) s :=
  checkLegal_pos h s _

theorem exec_pmul {pd rk ps : RegIx} (h : (Instr.pmul pd rk ps).wf = true) (s : State) :
    exec (.pmul pd rk ps) s = pointInto pd [s.point ps]
      (ecmul s.fieldP s.coeffA (s.val rk).natAbs (s.point ps)) (.pmul pd rk ps) s := checkLegal_pos h s _

section
variable {s : State} {qs : List Point} (hp : 0 < s.fieldP) (hqs : ∀ q ∈ qs, pointOk s.fieldP q)
include hp hqs

/-- A point the point unit accepts is written; it fits, since p, which bounds it, is the value of a register. -/
theorem pointInto_some {r : Point} (hr : pointOk s.fieldP r) (pd : RegIx) (i : Instr) :
    ∃ t, pointInto pd qs (some r) i s = .next t ∧ t.point pd = r ∧ wroteOnly [pd, pd + 1] s t := by
  obtain ⟨hx, hy⟩ := fits_of_pointOk (fits_value s.curve[0]) hr
  rw [pointInto, pointCheck_pos qs hp hqs]
  exact commitPoint_next hx hy s

/-- Where the point function has no answer, E_NOINV is taken. -/
theorem pointInto_none (pd : RegIx) (i : Instr) :
    ∃ t, pointInto pd qs none i s = .next t ∧ tookError .noInv (encode i) s t := by
  rw [pointInto, pointCheck_pos qs hp hqs]
  exact raise_next .noInv i s

end

/-- Each of the three is the shared operation, and its answers on accepted operands are points the point unit accepts. -/
theorem exec_eq_pointInto {pd ps pt rk : RegIx} {s : State} {i : Instr} {qs : List Point}
    (hi : i = .padd pd ps pt ∧ qs = [s.point ps, s.point pt] ∨ i = .pdbl pd ps ∧ qs = [s.point ps] ∨
      i = .pmul pd rk ps ∧ qs = [s.point ps]) (hwf : i.wf = true) :
    ∃ o, exec i s = pointInto pd qs o i s ∧
      (0 < s.fieldP → (∀ q ∈ qs, pointOk s.fieldP q) → ∀ r, o = some r → pointOk s.fieldP r) := by
  obtain ⟨rfl, rfl⟩ | ⟨rfl, rfl⟩ | ⟨rfl, rfl⟩ := hi
  · exact ⟨_, exec_padd hwf s, fun hp hqs _ => ecadd_pointOk hp (hqs _ (by simp)) (hqs _ (by simp))⟩
  · exact ⟨_, exec_pdbl hwf s, fun hp _ _ => ecdbl_pointOk hp⟩
  · exact ⟨_, exec_pmul hwf s, fun hp hqs _ => ecmul_pointOk hp (hqs _ (by simp))⟩

/-- Settles O23: the check stands before the point function, whose shortcuts therefore skip none of it. -/
theorem pointUnitChecksItsOperands : Obligations.PointUnitChecksItsOperands := by
  intro pd ps pt rk s i qs hi hwf
  obtain ⟨o, hexec, hok⟩ := exec_eq_pointInto hi hwf
  rw [hexec]
  refine ⟨fun h0 => ?_, fun hneg => ?_, fun hp hbad => ?_, fun hp hqs => ?_⟩
  · exact pointCheck_noCurve qs h0 i _
  · exact pointCheck_modulus qs hneg i _
  · exact pointCheck_operand hp hbad i _
  · cases o with
    | none =>
      obtain ⟨t, ht, herr⟩ := pointInto_none hp hqs pd i
      exact ⟨t, ht, .inl herr⟩
    | some r =>
      obtain ⟨t, ht, -, hframe⟩ := pointInto_some hp hqs (hok hp hqs r rfl) pd i
      exact ⟨t, ht, .inr hframe⟩

/-- Settles O24: the doubler answers where 2y needs no inverse or has one. -/
theorem pdblDoublesThePoint : Obligations.PdblDoublesThePoint := by
  intro pd ps s
  refine ⟨packRegs_two _ _ _, ?_⟩
  rw [← fieldP_eq, ← coeffA_eq]
  intro hwf hp hq
  have hqs : ∀ q ∈ [s.point ps], pointOk s.fieldP q := List.forall_mem_singleton.2 hq
  rw [exec_pdbl hwf]
  refine ⟨fun hc => ?_, fun hc => ?_⟩
  · obtain ⟨r, hr, hdbl, hok⟩ := ecdbl_spec hp s.coeffA hc
    rw [hr]
    obtain ⟨t, ht, rfl, hframe⟩ := pointInto_some hp hqs hok pd (.pdbl pd ps)
    exact ⟨t, ht, hdbl, hframe⟩
  · rw [ecdbl_eq_none hp _ hc]
    exact pointInto_none hp hqs pd _

/-- Settles O25: the adder answers where it needs no inverse or has it. -/
theorem paddAddsThePoints : Obligations.PaddAddsThePoints := by
  intro pd ps pt s
  refine ⟨packRegs_three _ _ _ _, ?_⟩
  rw [← fieldP_eq, ← coeffA_eq]
  intro hwf hp hq hr
  have hqs : ∀ q ∈ [s.point ps, s.point pt], pointOk s.fieldP q :=
    List.forall_mem_cons.2 ⟨hq, List.forall_mem_singleton.2 hr⟩
  rw [exec_padd hwf]
  refine ⟨fun hc => ?_, fun hc => ?_⟩
  · obtain ⟨sum, hsum, hadd, hok⟩ := ecadd_spec hp s.coeffA hq hr hc
    rw [hsum]
    obtain ⟨t, ht, rfl, hframe⟩ := pointInto_some hp hqs hok pd (.padd pd ps pt)
    exact ⟨t, ht, hadd, hframe⟩
  · rw [ecadd_eq_none hp _ hc]
    exact pointInto_none hp hqs pd _

/-- Settles O26: the multiplier answers exactly the multiples of the relation. -/
theorem pmulIsDoubleAndAdd : Obligations.PmulIsDoubleAndAdd := by
  intro pd rk ps s
  refine ⟨packRegs_three _ _ _ _, ?_⟩
  rw [← fieldP_eq, ← coeffA_eq]
  intro hwf hp hq
  have hqs : ∀ q ∈ [s.point ps], pointOk s.fieldP q := List.forall_mem_singleton.2 hq
  rw [exec_pmul hwf]
  simp only [← ecmul_eq_some_iff hp hq]
  refine ⟨fun r hr => ?_, fun hnone => ?_⟩
  · rw [hr]
    exact pointInto_some hp hqs (ecmul_pointOk hp hq hr) pd _
  · rw [Option.eq_none_iff_forall_ne_some.2 fun r hr => hnone ⟨r, hr⟩]
    exact pointInto_none hp hqs pd _

/-! ## Over an odd prime every inverse the point unit needs exists (42_curve.md R134, R135) -/

/-- A number that is not zero and smaller than a prime has no common divisor with it. -/
theorem gcd_prime_eq_one {p : Nat} (hp : p.Prime) {c : Int} (h0 : c ≠ 0) (hlt : c.natAbs < p) : Int.gcd c p = 1 :=
  (Nat.coprime_of_lt_prime (Int.natAbs_ne_zero.2 h0) hlt hp).symm

section
variable {p : Nat} (hp : p.Prime) (h2 : p ≠ 2)
include hp h2

/-- `0 < y < p` and `p` is odd, so neither factor of `2 * y` shares a divisor with `p`. -/
theorem canDouble_of_oddPrime {q : Point} (hq : pointOk p q) : canDouble p q := by
  obtain rfl | ⟨-, hy0, hyp⟩ := hq
  · exact .inl rfl
  by_cases hy : q.y = 0
  · exact .inl hy
  right
  have htwo : Int.gcd 2 p = 1 := gcd_prime_eq_one hp two_ne_zero (lt_of_le_of_ne hp.two_le h2.symm)
  have hcop : Int.gcd q.y p = 1 := gcd_prime_eq_one hp hy (by omega)
  rw [← Int.isCoprime_iff_gcd_eq_one] at htwo hcop ⊢
  exact htwo.mul_left hcop

/-- Two x coordinates in [0, p) differ by less than `p`. -/
theorem canAdd_of_oddPrime {q r : Point} (hq : pointOk p q) (hr : pointOk p r) : canAdd p q r := by
  have hdouble := canDouble_of_oddPrime hp h2 hq
  obtain hq | ⟨⟨hq0, hqp⟩, -⟩ := hq
  · exact .inl hq
  obtain hr | ⟨⟨hr0, hrp⟩, -⟩ := hr
  · exact .inr (.inl hr)
  by_cases hx : q.x = r.x
  · by_cases hy : q.y = r.y
    · exact .inr (.inr (.inl ⟨point_ext_iff.2 ⟨hx, hy⟩, hdouble⟩))
    · exact .inr (.inr (.inr (.inl ⟨hx, hy⟩)))
  · exact .inr (.inr (.inr (.inr ⟨hx, gcd_prime_eq_one hp (by omega) (by omega)⟩)))

theorem ecdbl_completes (a : Int) {q : Point} (hq : pointOk p q) : ∃ r, ecdbl p a q = some r ∧ pointOk p r := by
  obtain ⟨r, hr, -, hok⟩ := ecdbl_spec (Int.natCast_pos.2 hp.pos) a (canDouble_of_oddPrime hp h2 hq)
  exact ⟨r, hr, hok⟩

theorem ecadd_completes (a : Int) {q r : Point} (hq : pointOk p q) (hr : pointOk p r) :
    ∃ t, ecadd p a q r = some t ∧ pointOk p t := by
  obtain ⟨t, ht, -, hok⟩ := ecadd_spec (Int.natCast_pos.2 hp.pos) a hq hr (canAdd_of_oddPrime hp h2 hq hr)
  exact ⟨t, ht, hok⟩

theorem mulStep_completes (a : Int) {q acc : Point} (hq : pointOk p q) (hacc : pointOk p acc) (bit : Bool) :
    ∃ r, mulStep p a q bit acc = some r ∧ pointOk p r := by
  obtain ⟨d, hd, hdok⟩ := ecdbl_completes hp h2 a hacc
  rw [mulStep, hd, Option.bind_some]
  cases bit with
  | false => exact ⟨d, rfl, hdok⟩
  | true => exact ecadd_completes hp h2 a hdok hq

theorem ecmulLoop_completes (a : Int) (k : Nat) {q acc : Point} (hq : pointOk p q) (hacc : pointOk p acc)
    (n : Nat) : ∃ r, ecmulLoop p a k q n acc = some r ∧ pointOk p r := by
  induction n generalizing acc with
  | zero => exact ⟨acc, rfl, hacc⟩
  | succ n ih =>
    obtain ⟨e, he, heok⟩ := mulStep_completes hp h2 a hq hacc (k.testBit n)
    rw [ecmulLoop_succ, he]
    exact ih heok

theorem ecmul_completes (a : Int) (k : Nat) {q : Point} (hq : pointOk p q) :
    ∃ r, ecmul p a k q = some r ∧ pointOk p r := by
  rw [ecmul_eq_loop]
  exact ecmulLoop_completes hp h2 a k hq (pointOk_identity p) _

end

/-- Where the point function answers a point the point unit accepts, that point is in the destination. -/
theorem pointInto_completes {p : Int} {s : State} {qs : List Point} {o : Option Point} (hfield : s.fieldP = p) (hp : 0 < p)
    (hqs : ∀ q ∈ qs, pointOk p q) (ho : ∃ r, o = some r ∧ pointOk p r) (pd : RegIx) (i : Instr) :
    ∃ t, pointInto pd qs o i s = .next t ∧ wroteOnly [pd, pd + 1] s t ∧ pointOk p (t.point pd) := by
  subst hfield
  obtain ⟨r, rfl, hok⟩ := ho
  obtain ⟨t, ht, rfl, hframe⟩ := pointInto_some hp hqs hok pd i
  exact ⟨t, ht, hframe, hok⟩

/-- Settles O27: on accepted operands each point function answers a point the point unit accepts. -/
theorem pointUnitCompletesOverOddPrimes : Obligations.PointUnitCompletesOverOddPrimes := by
  intro pd ps pt rk s p i hprime h2 hfield hwf hq hi
  rw [← fieldP_eq] at hfield
  have hp : (0 : Int) < p := Int.natCast_pos.2 hprime.pos
  have hqs : ∀ q ∈ [s.point ps], pointOk p q := List.forall_mem_singleton.2 hq
  obtain ⟨rfl, hr⟩ | rfl | rfl := hi
  · rw [exec_padd hwf, hfield]
    have hqrs : ∀ q ∈ [s.point ps, s.point pt], pointOk p q := List.forall_mem_cons.2 ⟨hq, List.forall_mem_singleton.2 hr⟩
    exact pointInto_completes hfield hp hqrs (ecadd_completes hprime h2 _ hq hr) pd _
  · rw [exec_pdbl hwf, hfield]
    exact pointInto_completes hfield hp hqs (ecdbl_completes hprime h2 _ hq) pd _
  · rw [exec_pmul hwf, hfield]
    exact pointInto_completes hfield hp hqs (ecmul_completes hprime h2 _ _ hq) pd _

/-! ## The point tests (42_curve.md R131, R132) -/

/-- Format R1: the three unused fields and the zero byte are one field of twenty zero bits. -/
theorem packRegs_one (op : BitVec 8) (a : BitVec 4) : packRegs op a 0#4 0#4 0#4 = op ++ a ++ 0#20 := by
  apply BitVec.eq_of_toNat_eq
  rw [toNat_packRegs]
  simp only [toNat_append_add, BitVec.toNat_ofNat]
  omega

/-- The identity is the only point that is equal to it, and any two others are compared by their coordinates. -/
theorem eqv_iff {q r : Point} : q.eqv r = true ↔ q.x = r.x ∧ q.y = r.y := by
  rw [← point_ext_iff, Point.eqv]
  by_cases hq : q = identity
  · by_cases hr : r = identity
    · simp [isId_iff, hq, hr]
    · simp [isId_iff, hq, hr, Ne.symm hr]
  · by_cases hr : r = identity
    · simp [isId_iff, hq, hr]
    · simp [isId_iff, hq, hr, point_ext_iff]

/-- A commit of a test that decides `P` sets EQ where `P` holds and GT where it does not, and writes nothing else but the PC. -/
theorem commit_testFlags {c : Bool} {P : Prop} (h : c = true ↔ P) (s : State) :
    ∃ t, commitFlags (testFlags c) s = .next t ∧ wroteFlagsOnly s t ∧ (P → t.flags = 0b010#3) ∧ (¬P → t.flags = 0b100#3) := by
  obtain ⟨t, ht, hflags, hframe⟩ := commitFlags_next (testFlags c) s
  refine ⟨t, ht, hframe, ?_⟩
  rw [hflags, ← h]
  exact ⟨fun hc => if_pos hc, fun hc => if_neg hc⟩

/-- The one operand constraint of a point instruction (30_encoding.md R84, case 3). -/
theorem pisid_operandIllegal (ps : RegIx) :
    (Instr.pisid ps).operandIllegal = if evenField ps then none else some .oddPoint := rfl

theorem pcmp_operandIllegal (ps pt : RegIx) :
    (Instr.pcmp ps pt).operandIllegal = if evenField ps && evenField pt then none else some .oddPoint := rfl

theorem pisid_wf {ps : RegIx} (h : evenField ps = true) : (Instr.pisid ps).wf = true := by
  rw [Instr.wf, pisid_operandIllegal, if_pos h, Option.isNone_none]

theorem pcmp_wf {ps pt : RegIx} (hs : evenField ps = true) (ht : evenField pt = true) : (Instr.pcmp ps pt).wf = true := by
  rw [Instr.wf, pcmp_operandIllegal, hs, ht, Bool.and_self, if_pos rfl, Option.isNone_none]

theorem exec_pisid {ps : RegIx} (h : evenField ps = true) (s : State) :
    exec (.pisid ps) s = commitFlags (testFlags (s.point ps).isId) s := checkLegal_pos (pisid_wf h) s _

theorem exec_pcmp {ps pt : RegIx} (hs : evenField ps = true) (ht : evenField pt = true) (s : State) :
    exec (.pcmp ps pt) s = commitFlags (testFlags ((s.point ps).eqv (s.point pt))) s := checkLegal_pos (pcmp_wf hs ht) s _

/-- Settles O22. -/
theorem pointTestsSetEqOrGt : Obligations.PointTestsSetEqOrGt := by
  intro ps pt s
  refine ⟨⟨packRegs_one _ _, fun heven => ?_, fun hodd => ?_⟩, packRegs_two _ _ _, fun hs ht => ?_, fun hodd => ?_⟩
  · rw [exec_pisid heven]
    exact commit_testFlags (isId_iff.trans point_ext_iff) s
  · exact decode_of_operandIllegal (decodeShape_encode _) (by simp [pisid_operandIllegal, hodd])
  · rw [exec_pcmp hs ht]
    exact commit_testFlags eqv_iff s
  · refine decode_of_operandIllegal (decodeShape_encode _) ?_
    rw [pcmp_operandIllegal, Bool.and_eq_false_iff.2 hodd]
    rfl

end Sys2Proof.Proofs
end

section
/-! Proofs of the statements about data movement (43_move_memory.md): the register moves, the record that LD reads, and the record
that ST writes and an LD at the same index reads back. -/

namespace Sys2Proof.Proofs

open Sys2Proof Sys2Proof.Machine Sys2Proof.Laws

/-! ## Register moves and constants (43_move_memory.md R150, R151, R152) -/

/-- The constant of LDI as its unsigned 16 bits say it (30_encoding.md R80). -/
theorem immValue_eq (imm : Imm16) :
    immValue imm = if imm.toNat < 0x8000 then (imm.toNat : Int) else (imm.toNat : Int) - 0x10000 := by
  rw [immValue, BitVec.toInt_eq_toNat_cond]
  split <;> split <;> omega

/-- MOVC of a register of the curve bank. -/
theorem exec_movc {k : BitVec 4} (h : k.toNat < 6) (rd : RegIx) (s : State) :
    exec (.movc rd k) s = commitReg rd s.curve[k.toNat].value s := dif_pos h

/-- MOVC's one operand constraint (30_encoding.md R84, case 4). -/
theorem movc_operandIllegal (rd : RegIx) (k : BitVec 4) :
    (Instr.movc rd k).operandIllegal = if k.toNat ≤ 5 then none else some .curveIndex := rfl

/-- Settles O13: each move commits one register, with a value that fits. -/
theorem movesWriteTheValue : Obligations.MovesWriteTheValue := by
  intro rd rs imm k s
  refine ⟨⟨packRegs_two _ _ _, ?_⟩, ⟨rfl, ?_⟩, packRegs_two _ _ _, fun hk => ?_, fun hk => ?_⟩
  · exact commitReg_next (fits_val s rs) s
  · rw [← immValue_eq]
    exact commitReg_next (fits_immValue imm) s
  · rw [exec_movc hk]
    exact commitReg_next (fits_value _) s
  · refine decode_of_operandIllegal (decodeShape_encode _) ?_
    rw [movc_operandIllegal, if_neg (Nat.not_le.2 hk)]

/-! ## The words of a record (20_memory.md R67) -/

theorem recordWords_eq : recordWords = 10 := rfl

/-- A load of some words has them as its value exactly where each is the word at its index. -/
theorem memRead_eq_some {m : Memory} {a n : Nat} {ws : List Digit} :
    memRead m a n = some ws ↔ ws.length = n ∧ ∀ k < n, dmemWord m (a + k) = ws[k]? := by
  induction n generalizing a ws with
  | zero => cases ws <;> simp [memRead]
  | succ n ih =>
    cases ws with
    | nil => exact iff_of_false (fun h => nomatch memRead_length h) (fun h => nomatch h.1)
    | cons w ws =>
      have hcons : memRead m a (n + 1) = some (w :: ws) ↔ dmemWord m a = some w ∧ memRead m (a + 1) n = some ws := by
        rw [memRead]
        cases dmemWord m a <;> cases memRead m (a + 1) n <;> simp
      rw [hcons, ih, Nat.forall_lt_succ_left]
      simp only [List.length_cons, List.getElem?_cons_zero, List.getElem?_cons_succ, Nat.add_right_cancel_iff,
        Nat.add_right_comm a 1, Nat.add_assoc a _ 1, Nat.add_zero]
      exact and_left_comm

/-- The magnitude of digits given by their index (10_state.md R22). -/
theorem magOfDigits_map_range (f : Nat → Digit) (n : Nat) :
    magOfDigits ((List.range n).map f) = ((List.range n).map fun i => (f i).toNat * 2 ^ (64 * i)).sum := by
  rw [magOfDigits_eq_sum, List.length_map, List.length_range]
  congr 1
  refine List.map_congr_left fun i hi => ?_
  rw [List.getElem?_map, List.getElem?_range (List.mem_range.1 hi)]
  rfl

/-- The value of a record: the header's bit 0 is the sign of the magnitude (43_move_memory.md R154). -/
theorem recordValue_cons (h : Digit) (ds : List Digit) :
    recordValue (h :: ds) = (if h.getLsbD 0 then -1 else 1) * (magOfDigits ds : Int) := by
  rw [recordValue]
  split
  · rw [neg_one_mul]
  · rw [one_mul]

/-! ## LD (43_move_memory.md R153, R154) -/

/-- LD of a record whose words are all written commits its value. -/
theorem exec_ld_next {addr : Imm16} {s : State} {ws : List Digit} (rd : RegIx)
    (ha : recordIndex addr + 10 ≤ s.params.dmemWords) (hws : memRead s.dmem (recordIndex addr) 10 = some ws) :
    ∃ t, exec (.ld rd addr) s = .next t ∧ t.val rd = recordValue ws ∧ wroteOnly [rd] s t := by
  show ∃ t, execLd rd addr s = .next t ∧ _
  rw [execLd, recordCheck_pos ha, recordWords_eq, hws]
  exact commitReg_next (fits_recordValue (memRead_length hws)) s

/-- Settles O14: the ten words at A are the header and the digits that the magnitude is the sum of. -/
theorem loadReadsTheRecord : Obligations.LoadReadsTheRecord := by
  intro rd addr s
  refine ⟨rfl, rfl, fun ha ws hws => ?_, fun ha hnone => ?_, fun ha => recordCheck_raises ha (.ld rd addr) _⟩
  · have hread : memRead s.dmem (recordIndex addr) 10 = some (ws 0 :: (List.range 9).map fun i => ws (1 + i)) := by
      refine memRead_eq_some.2 ⟨by simp, fun k hk => ?_⟩
      rw [hws k hk]
      cases k with
      | zero => rfl
      | succ k => rw [List.getElem?_cons_succ, List.getElem?_map, List.getElem?_range (by omega), Nat.add_comm k 1]; rfl
    rw [← magOfDigits_map_range, ← recordValue_cons]
    exact exec_ld_next rd ha hread
  · obtain ⟨k, hk, hbytes⟩ := hnone
    refine unwrittenWordsFault.2 s rd addr ha ⟨8 * k, by omega, ?_⟩
    rw [← Nat.mul_add]
    exact hbytes 0 (by decide)

/-! ## ST (43_move_memory.md R153, R155) -/

/-- `used` of a value that fits (10_state.md R23). -/
theorem used_ofInt_bounds {v : Int} (h : fits v) :
    (1 ≤ (BigReg.ofInt v).used ∧ (BigReg.ofInt v).used ≤ 9) ∧ v.natAbs < 2 ^ (64 * (BigReg.ofInt v).used) ∧
      ((BigReg.ofInt v).used = 1 ∨ 2 ^ (64 * ((BigReg.ofInt v).used - 1)) ≤ v.natAbs) := by
  have hb := used_bounds (BigReg.ofInt v)
  rwa [mag_ofInt h] at hb

/-- The header is a number of two bytes, so no bit of it is lost. -/
theorem toNat_recordHeader (v : Int) :
    (recordHeader v).toNat = (if v < 0 then 1 else 0) + 256 * (BigReg.ofInt v).used := by
  obtain ⟨⟨-, hused⟩, -⟩ := used_bounds (BigReg.ofInt v)
  rw [recordHeader, BitVec.toNat_ofNat]
  refine Nat.mod_eq_of_lt ?_
  split <;> omega

theorem recordOf_getElem?_zero (v : Int) : (recordOf v)[0]? = some (recordHeader v) := rfl

/-- The word after the header and `i` digits is digit `i` of the magnitude. -/
theorem recordOf_getElem?_digit (v : Int) {i : Nat} (h : i < 9) : (recordOf v)[1 + i]? = some (digitOf v.natAbs i) := by
  rw [recordOf, Nat.add_comm, List.getElem?_cons_succ, Vector.getElem?_toList, Vector.getElem?_eq_getElem h,
    digitsOf_getElem _ _ h]

/-- ST of an existing record writes the record of the value, and an LD at the same index finds its words there. -/
theorem exec_st_next {rs : RegIx} {addr : Imm16} {s : State} (ha : recordIndex addr + 10 ≤ s.params.dmemWords) :
    ∃ t, exec (.st rs addr) s = .next t ∧
      memRead t.dmem (recordIndex addr) 10 = some (recordOf (s.val rs)) ∧
      wroteDmemOnly (8 * recordIndex addr) 80 s t := by
  show ∃ t, execSt rs addr s = .next t ∧ _
  rw [execSt, recordCheck_pos ha]
  obtain ⟨t, ht, hdmem, hframe⟩ := commitMem_next (recordIndex addr) (recordOf (s.val rs)) s
  rw [recordOf_length] at hframe
  refine ⟨t, ht, ?_, hframe⟩
  rw [hdmem]
  exact memRead_memWrite s.dmem (recordIndex addr) (recordOf (s.val rs))

/-- Settles O15: the words that ST leaves at A are those of the record of the value, and an LD there gives their value. -/
theorem storeWritesTheRecord : Obligations.StoreWritesTheRecord := by
  intro rs addr s
  refine ⟨rfl, rfl, fun ha => ?_, fun ha => recordCheck_raises ha (.st rs addr) _⟩
  have hfits := fits_val s rs
  obtain ⟨t, ht, hread, hframe⟩ := exec_st_next (rs := rs) ha
  obtain ⟨-, hwords⟩ := memRead_eq_some.1 hread
  obtain ⟨hrange, hlt, hle⟩ := used_ofInt_bounds hfits
  refine ⟨t, ht, ⟨_, hrange, hlt, hle, recordHeader (s.val rs), ?_, toNat_recordHeader _⟩,
    fun i hi => ?_, hframe, fun rd => ?_⟩
  · exact (hwords 0 (by decide)).trans (recordOf_getElem?_zero _)
  · refine ⟨digitOf (s.val rs).natAbs i, ?_, by rw [digitOf, BitVec.toNat_ofNat]⟩
    rw [Nat.add_assoc, hwords (1 + i) (by omega), recordOf_getElem?_digit _ hi]
  · obtain ⟨-, -, -, -, ⟨hparams, -⟩, -⟩ := hframe
    obtain ⟨u, hu, hval, hload⟩ := exec_ld_next (s := t) rd (by rw [hparams]; exact ha) hread
    exact ⟨u, hu, hval.trans (recordValue_recordOf hfits), hload⟩

end Sys2Proof.Proofs
end

section
/-! Proofs of the statements about control (44_control.md): how a run ends, the next PC of NOP, J and B, and HALT. -/

namespace Sys2Proof.Proofs

open Sys2Proof Sys2Proof.Machine Sys2Proof.Laws

/-! ## How a run ends (44_control.md R161, R165) -/

/-- A step is the engine's turn or the event at the head of the port list; a quiet entry is both. -/
theorem step_turn_or_event {s t : State} (h : step s = .next t) :
    (∃ rest, engineTurn { s with ports := rest } = .next t) ∨
      ∃ e rest, s.ports = e :: rest ∧ t = portEvent e { s with ports := rest } := by
  unfold step turn at h
  split at h
  · exact .inl ⟨s.ports, h⟩
  · exact .inl ⟨_, h⟩
  · next e rest _ hp => cases h; exact .inr ⟨e, rest, hp, rfl⟩

/-- The engine takes an error, or executes the instruction whose word stands at PC. -/
theorem engineStep_error_or_exec {s t : State} (h : engineStep s = .next t) :
    (∃ e w, t = raiseError e w s) ∨ ∃ i, imemWord s.imem s.pc.toNat = some (encode i) ∧ exec i s = .next t := by
  unfold engineStep at h
  split at h
  · cases h; exact .inl ⟨_, _, rfl⟩
  · split at h
    · cases h
    · next w hw =>
      split at h
      · cases h; exact .inl ⟨_, _, rfl⟩
      · next i hd =>
        obtain ⟨-, hencode⟩ := encodeInvertsDecode w i hd
        exact .inr ⟨i, hencode ▸ hw, h⟩

/-- An instruction ends the run by an error or by being HALT. -/
theorem execShape_ends {i : Instr} {s t : State} (h : ExecShape i s t) (hb : s.busy = true) (ht : t.busy = false) :
    (∃ e w, t = raiseError e w s) ∨ (i = .halt ∧ t = endRun s) := by
  cases h with
  | error e _ => exact .inl ⟨e, _, rfl⟩
  | halt hi => exact .inr ⟨hi, rfl⟩
  | _ => exact absurd (ht.symm.trans hb) Bool.false_ne_true

/-- The engine's turn ends the run by an error or by a HALT that stands at PC. -/
theorem engineTurn_ends {s t : State} (h : engineTurn s = .next t) (hb : s.busy = true) (ht : t.busy = false) :
    (∃ e w, t = raiseError e w s) ∨ (imemWord s.imem s.pc.toNat = some (encode .halt) ∧ t = endRun s) := by
  unfold engineTurn at h
  split at h
  · obtain herr | ⟨i, hw, hexec⟩ := engineStep_error_or_exec h
    · exact .inl herr
    · obtain herr | ⟨rfl, rfl⟩ := execShape_ends (exec_shape hexec) hb ht
      · exact .inl herr
      · exact .inr ⟨hw, rfl⟩
  · cases h; exact absurd (ht.symm.trans hb) Bool.false_ne_true

/-- A host write ends a run only by CTRL.SRST. -/
theorem hostWriteShape_ends {o : Offset} {data : BitVec 64} {s t : State} (h : HostWriteShape o data s t)
    (hb : s.busy = true) (ht : t.busy = false) : o = 0x00010 ∧ data.getLsbD 3 = true ∧ t = softReset s := by
  cases h with
  | soft ho h3 => exact ⟨BitVec.eq_of_toNat_eq ho, h3, rfl⟩
  | start ie lock _ _ => exact absurd ht.symm Bool.false_ne_true
  | _ => exact absurd (ht.symm.trans hb) Bool.false_ne_true

/-- An event at the ports ends a run only as a reset, which leaves DONE and ERR 0. -/
theorem portEvent_ends {e : PortEvent} {s : State} (hb : s.busy = true) (ht : (portEvent e s).busy = false) :
    ((portEvent e s).done = false ∧ (portEvent e s).err = false) ∧
      (e = .resetAssert ∨ ∃ width data, data.getLsbD 3 = true ∧ e = .write width (s.hostAddr 0x00010) data) := by
  have hkept : s.busy ≠ false := fun h => Bool.false_ne_true (h.symm.trans hb)
  cases e with
  | read width a =>
    obtain ⟨r, n, hk⟩ := portRead_keeps width a s
    rw [hk] at ht
    exact absurd ht hkept
  | write width a data =>
    obtain ⟨t, r, hk, hs⟩ := portWrite_shape width a data s
    rw [hk] at ht ⊢
    obtain rfl | ⟨o, rfl, -, hw⟩ := hs
    · exact absurd ht hkept
    · obtain ⟨rfl, h3, rfl⟩ := hostWriteShape_ends hw hb ht
      exact ⟨⟨rfl, rfl⟩, .inr ⟨width, data, h3, rfl⟩⟩
  | resetAssert => exact ⟨⟨rfl, rfl⟩, .inl rfl⟩
  | resetRelease => exact absurd ht hkept
  | quiet => exact absurd ht hkept

/-- Settles O32: the engine's turn ends a run by HALT or by an error, an event at the ports only by a reset; the fields that
neither writes are 0 while the engine runs. -/
theorem runEndsForOneOfThreeReasons : Obligations.RunEndsForOneOfThreeReasons := by
  intro s t hrec hb h ht
  obtain ⟨-, hrunning, -⟩ := hrec
  obtain ⟨hdone, herr, -⟩ := hrunning hb
  obtain ⟨rest, hturn⟩ | ⟨e, rest, hp, rfl⟩ := step_turn_or_event h
  · obtain ⟨e, w, rfl⟩ | ⟨hhalt, rfl⟩ := engineTurn_ends hturn hb ht
    · exact .inr (.inl ⟨hdone, rfl, rfl, (code_range e).1⟩)
    · exact .inl ⟨rfl, herr, rfl, hhalt⟩
  · obtain ⟨⟨hdone', herr'⟩, he⟩ := portEvent_ends (s := { s with ports := rest }) hb ht
    refine .inr (.inr ⟨hdone', herr', ?_⟩)
    obtain rfl | ⟨width, data, h3, rfl⟩ := he
    · exact .inl ⟨rest, hp⟩
    · exact .inr ⟨width, data, rest, h3, hp⟩

/-! ## NOP, J and B (44_control.md R160, R162, R163) -/

/-- Format J: the unused register field and the zero field are one byte of zeros. -/
theorem packImm_jump (op : BitVec 8) (imm : Imm16) : packImm op 0#4 imm = op ++ 0#8 ++ imm := by
  apply BitVec.eq_of_toNat_eq
  rw [toNat_packImm]
  simp only [toNat_append_add, BitVec.toNat_ofNat]
  omega

/-- A running engine whose PC is at or beyond IMEM_WORDS takes E_FETCH (60_exceptions.md R172). -/
theorem step_of_fetch_beyond {s : State} (hrun : s.running) (hpc : s.params.imemWords ≤ s.pc.toNat) :
    step s = .next (raiseError .fetch 0 s) := by
  rw [step_running hrun, engineStep, if_pos hpc]

/-- A jump writes the PC only; where its target is at or beyond IMEM_WORDS, the step after it takes E_FETCH there. -/
theorem jump_next {i : Instr} {target : Imm16} {s : State} (h : exec i s = .next (s.setPc target)) :
    ∃ t, exec i s = .next t ∧ wrotePcOnly target s t ∧
      (s.running → s.params.imemWords ≤ target.toNat →
        ∃ u, step t = .next u ∧ tookError .fetch 0 t u ∧ u.epc = target) :=
  ⟨_, h, setPc_wrotePcOnly _ _, fun hrun hpc =>
    ⟨_, step_of_fetch_beyond (s := s.setPc target) hrun hpc, raiseError_tookError _ _ _, rfl⟩⟩

/-- B whose condition holds is a jump. -/
theorem exec_b_taken {cond : FlagBits} {s : State} (h : s.flags &&& cond ≠ 0) (target : Imm16) :
    exec (.b cond target) s = .next (s.setPc target) :=
  congrArg _ (if_pos (bne_iff_ne.2 h))

/-- B whose condition does not hold goes on. -/
theorem exec_b_not_taken {cond : FlagBits} {s : State} (h : s.flags &&& cond = 0) (target : Imm16) :
    exec (.b cond target) s = .next s.advance :=
  congrArg _ (if_neg fun hc => bne_iff_ne.1 hc h)

/-- Settles O11. -/
theorem nopJumpAndBranch : Obligations.NopJumpAndBranch := by
  intro s cond target
  refine ⟨⟨rfl, ?_⟩, ⟨packImm_jump _ _, jump_next rfl⟩, rfl, fun h => ?_, fun h => ?_⟩
  · exact ⟨_, rfl, setPc_wrotePcOnly _ _⟩
  · exact jump_next (exec_b_taken h target)
  · exact ⟨_, exec_b_not_taken h target, setPc_wrotePcOnly _ _⟩

/-! ## HALT (44_control.md R161) -/

/-- With DONE 1, `irq` is IE (10_state.md R41). -/
theorem irq_of_done {s : State} (h : s.done = true) : irq s = s.ie := by
  rw [irq, h, Bool.true_or, Bool.and_true]

/-- Settles O12. -/
theorem haltEndsTheRun : Obligations.HaltEndsTheRun := by
  refine ⟨rfl, fun s => ⟨endRun s, rfl, rfl, rfl, rfl, rfl, rfl, rfl, rfl, rfl, ?_, ?_, ?_, ?_⟩⟩
  · exact fun _ _ => rfl
  · exact fun _ => rfl
  · exact hostSideKept_refl s
  · exact irq_of_done (s := endRun s) rfl

end Sys2Proof.Proofs
end

section
/-! Proofs of the statements about exceptions (60_exceptions.md): who has a step, what a running engine fetches, which instructions
stop, and what an error leaves. -/

namespace Sys2Proof.Proofs

open Sys2Proof Sys2Proof.Machine Sys2Proof.Laws

/-! ## Who has the step (60_exceptions.md R170, R186) -/

theorem step_of_ports_nil {s : State} (h : s.ports = []) : step s = engineTurn s := by
  rw [step, turn, h]

theorem step_of_quiet {s : State} {rest : List PortEvent} (h : s.ports = .quiet :: rest) :
    step s = engineTurn { s with ports := rest } := by
  rw [step, turn, h]

theorem engineTurn_idle {s : State} (h : s.busy = false ∨ s.rstN = false) : engineTurn s = .next s := by
  have hnot : (s.rstN && s.busy) = false := Bool.and_eq_false_iff.2 h.symm
  rw [engineTurn, hnot]
  rfl

theorem engineTurn_running {s : State} (hr : s.rstN = true) (hb : s.busy = true) : engineTurn s = engineStep s := by
  rw [engineTurn, hr, hb]
  rfl

/-- Settles O9. -/
theorem idleEngineExecutesNothing : Obligations.IdleEngineExecutesNothing := by
  refine fun s hidle => ⟨fun hp => ?_, fun rest hp => ?_⟩
  · rw [step_of_ports_nil hp, engineTurn_idle hidle]
  · rw [step_of_quiet hp, engineTurn_idle (s := { s with ports := rest }) hidle]

/-! ## The fetched word (60_exceptions.md R170, R172) -/

/-- A running engine executes what the word at PC decodes to. -/
theorem engineStep_of_decode_ok {s : State} {w : InsnWord} {i : Instr} (hpc : s.pc.toNat < s.params.imemWords)
    (hw : imemWord s.imem s.pc.toNat = some w) (hd : decode w = .ok i) : engineStep s = exec i s := by
  simp only [engineStep, if_neg (Nat.not_le.2 hpc), hw, hd]

/-- Settles O6. -/
theorem stepRunsDecodedInstruction : Obligations.StepRunsDecodedInstruction := by
  refine fun s w i hr hb hpc hw hd => ⟨fun hp => ?_, fun rest hp => ?_⟩
  · rw [step_of_ports_nil hp, engineTurn_running hr hb, engineStep_of_decode_ok hpc hw hd]
  · rw [step_of_quiet hp, engineTurn_running (s := { s with ports := rest }) hr hb,
      engineStep_of_decode_ok (s := { s with ports := rest }) hpc hw hd]

/-- Settles O7. -/
theorem fetchBeyondImemRaisesFetch : Obligations.FetchBeyondImemRaisesFetch := fun _ hrun hpc =>
  ⟨_, step_of_fetch_beyond hrun hpc, raiseError_tookError _ _ _⟩

/-! ## The placed word (log 4) -/

/-- Four bytes written at a word of IMEM are that word. -/
theorem imemWord_writeBytes_four (m : Memory) (n : Nat) {bs : List Byte} (h : bs.length = 4) :
    imemWord (writeBytes m (4 * n) bs) n = some (insnOfBytes bs) := by
  have hread := readBytes_writeBytes m (4 * n) bs
  rw [h] at hread
  rw [imemWord, hread, Option.map_some]

theorem decodeTableWord_eq_some {n w : Nat} {i : Instr} :
    decodeTableWord n w = some i ↔ decode (insnOfBytes (leBytes 4 (w % 2 ^ n))) = .ok i := by
  rw [decodeTableWord, decodeBytes, if_pos (leBytes_length 4 _)]
  cases decode (insnOfBytes (leBytes 4 (w % 2 ^ n))) <;> simp [Except.toOption]

/-- The PC of a placed word lies inside IMEM. -/
theorem placeWord_pc_lt {s : State} (h : 0 < s.params.imemWords) (w : Nat) :
    (placeWord s w).pc.toNat < (placeWord s w).params.imemWords := by
  show (if s.pc.toNat < s.params.imemWords then s.pc else 0).toNat < s.params.imemWords
  split
  · assumption
  · exact h

/-- The word at the PC is the one placed. -/
theorem placeWord_fetches (s : State) (w : Nat) :
    imemWord (placeWord s w).imem (placeWord s w).pc.toNat = some (insnOfBytes (leBytes 4 w)) :=
  imemWord_writeBytes_four s.imem _ (leBytes_length 4 w)

/-- Settles O10: the state with the word placed is one of those O6 speaks of. -/
theorem placedWordRuns : Obligations.PlacedWordRuns := by
  intro s w i himem hi
  have hd := decodeTableWord_eq_some.1 hi
  obtain ⟨hrun, -⟩ := stepRunsDecodedInstruction (s.withFetchWord 32 w) _ i rfl rfl (placeWord_pc_lt himem _)
    (placeWord_fetches s _) hd
  exact hrun rfl

/-! ## Every instruction but LD has a next state (60_exceptions.md R170) -/

/-- The outcome is a next state: the instruction completes or takes an engine error. -/
def HasNext (r : Res) : Prop := ∃ t, r = .next t

theorem hasNext_next (t : State) : HasNext (.next t) := ⟨t, rfl⟩

theorem hasNext_check {c : Prop} [Decidable c] {e : EngineError} {i : Instr} {s : State} {k : Res} (hk : HasNext k) :
    HasNext (check c e i s k) := by
  by_cases hc : c
  · rw [check_pos hc]; exact hk
  · rw [check_neg hc]; exact hasNext_next _

theorem hasNext_modulusCheck {m : Int} {i : Instr} {s : State} {k : Res} (hk : HasNext k) :
    HasNext (modulusCheck m i s k) :=
  hasNext_check (hasNext_check hk)

theorem hasNext_pointCheck {qs : List Point} {i : Instr} {s : State} {k : Res} (hk : HasNext k) :
    HasNext (pointCheck qs i s k) :=
  hasNext_check (hasNext_check (hasNext_check hk))

theorem hasNext_commitPointOr (pd : RegIx) (q : Option Point) (i : Instr) (s : State) :
    HasNext (commitPointOr pd q i s) := by
  cases q with
  | none => exact hasNext_next _
  | some r => exact hasNext_next _

theorem hasNext_execMovc (rd : RegIx) (k : BitVec 4) (s : State) : HasNext (execMovc rd k s) := by
  unfold execMovc
  split
  · exact hasNext_next _
  · exact hasNext_next _

theorem hasNext_execModinv (rd rs rm : RegIx) (s : State) : HasNext (execModinv rd rs rm s) := by
  refine hasNext_modulusCheck ?_
  cases modInverse (s.val rs) (s.val rm) with
  | none => exact hasNext_next _
  | some x => exact hasNext_next _

/-- Behind its checks every instruction but LD commits or raises. -/
theorem hasNext_exec {i : Instr} (h : ∀ rd addr, i ≠ .ld rd addr) (s : State) : HasNext (exec i s) := by
  cases i with
  | nop | halt | j | b => exact hasNext_next _
  | mov | ldi | cmp | cmpm | bitlen => exact hasNext_next _
  | movc rd k => exact hasNext_execMovc rd k s
  | ld rd addr => exact absurd rfl (h rd addr)
  | st | add | sub | mul | mod | getbit => exact hasNext_check (hasNext_next _)
  | divrem => exact hasNext_check (hasNext_check (hasNext_next _))
  | modadd | modsub | modmul => exact hasNext_modulusCheck (hasNext_check (hasNext_next _))
  | modinv rd rs rm => exact hasNext_execModinv rd rs rm s
  | pisid | pcmp => exact hasNext_check (hasNext_next _)
  | padd | pdbl | pmul => exact hasNext_check (hasNext_pointCheck (hasNext_commitPointOr _ _ _ s))

/-! ## LD of a record with an unwritten byte (20_memory.md R75) -/

/-- Words of DMEM without a value have an unwritten byte. -/
theorem unwritten_byte_of_memRead_eq_none {m : Memory} {a n : Nat} (h : memRead m a n = none) :
    ∃ k < 8 * n, readByte m (8 * a + k) = none := by
  obtain ⟨j, hj, hword⟩ := memRead_eq_none.1 h
  obtain ⟨k, hk, hbyte⟩ := dmemWord_eq_none.1 hword
  refine ⟨8 * j + k, by omega, ?_⟩
  rw [← Nat.add_assoc, ← Nat.mul_add]
  exact hbyte

/-- LD takes E_ADDR beyond DMEM, the fault where a byte of an existing record is unwritten, and commits otherwise. -/
theorem exec_ld_next_or_fault (rd : RegIx) (addr : Imm16) (s : State) :
    HasNext (exec (.ld rd addr) s) ∨
      (exec (.ld rd addr) s = .fault .unwrittenDmem ∧ recordIndex addr + 10 ≤ s.params.dmemWords ∧
        ∃ k < 80, readByte s.dmem (8 * recordIndex addr + k) = none) := by
  by_cases ha : recordIndex addr + 10 ≤ s.params.dmemWords
  · cases hws : memRead s.dmem (recordIndex addr) 10 with
    | none =>
      have hbyte := unwritten_byte_of_memRead_eq_none hws
      exact .inr ⟨unwrittenWordsFault.2 s rd addr ha hbyte, ha, hbyte⟩
    | some ws =>
      obtain ⟨t, ht, -⟩ := exec_ld_next rd ha hws
      exact .inl ⟨t, ht⟩
  · obtain ⟨t, ht, -⟩ := recordCheck_raises (Nat.not_le.1 ha) (.ld rd addr) _
    exact .inl ⟨t, ht⟩

/-- Settles O33: only LD has a path that is neither a commit nor an error. -/
theorem onlyUnwrittenLoadsFault : Obligations.OnlyUnwrittenLoadsFault := by
  intro i s
  by_cases hi : ∃ rd addr, i = .ld rd addr
  · obtain ⟨rd, addr, rfl⟩ := hi
    obtain hnext | ⟨hfault, ha, hbyte⟩ := exec_ld_next_or_fault rd addr s
    · exact .inl hnext
    · exact .inr ⟨hfault, rd, addr, rfl, ha, hbyte⟩
  · exact .inl (hasNext_exec (fun rd addr h => hi ⟨rd, addr, h⟩) s)

/-! ## Errors are precise (60_exceptions.md R171 to R174) -/

/-- Of the shapes of an instruction only the error sets ERR, with the instruction's own word. -/
theorem execShape_error_of_err {i : Instr} {s t : State} (h : ExecShape i s t) (hs : s.err = false) (ht : t.err = true) :
    ∃ e, e ≠ .fetch ∧ t = raiseError e (encode i) s := by
  cases h with
  | error e he => exact ⟨e, he, rfl⟩
  | _ => exact absurd (hs.symm.trans ht) Bool.false_ne_true

/-- Inside IMEM a step of a running engine that sets ERR takes an error with the word at PC, of the decoder or of the
instruction; E_FETCH is neither. -/
theorem step_error_inside_imem {s t : State} (hrun : s.running) (hpc : s.pc.toNat < s.params.imemWords)
    (hs : s.err = false) (h : step s = .next t) (ht : t.err = true) :
    ∃ e w, e ≠ .fetch ∧ imemWord s.imem s.pc.toNat = some w ∧ t = raiseError e w s := by
  have ⟨hr, hb, hp⟩ := hrun
  cases hw : imemWord s.imem s.pc.toNat with
  | none => cases h.symm.trans (unwrittenWordsFault.1 s hrun hpc (imemWord_eq_none.1 hw))
  | some w =>
    cases hd : decode w with
    | error e =>
      cases h.symm.trans (step_of_decode_error hrun hpc hw hd)
      exact ⟨.illegal, w, by decide, rfl, rfl⟩
    | ok i =>
      have hexec : exec i s = .next t := ((stepRunsDecodedInstruction s w i hr hb hpc hw hd).1 hp).symm.trans h
      obtain ⟨-, rfl⟩ := encodeInvertsDecode w i hd
      obtain ⟨e, he, rfl⟩ := execShape_error_of_err (exec_shape hexec) hs ht
      exact ⟨e, _, he, rfl, rfl⟩

/-- With ERR 1, `irq` is IE (10_state.md R41). -/
theorem irq_of_err {s : State} (h : s.err = true) : irq s = s.ie := by
  rw [irq, h, Bool.or_true, Bool.and_true]

/-- An error stops the engine: with nothing at the ports the step after it changes nothing. -/
theorem step_raiseError {s : State} (h : s.ports = []) (e : EngineError) (w : InsnWord) :
    step (raiseError e w s) = .next (raiseError e w s) :=
  (idleEngineExecutesNothing (raiseError e w s) (.inl rfl)).1 h

/-- Settles O31, by whether PC is inside IMEM: both sides are an error entry at this state, whose effect is the record. -/
theorem errorsArePrecise : Obligations.ErrorsArePrecise := by
  intro s t hrun hs h ht
  have ⟨_, _, hports⟩ := hrun
  rcases Nat.lt_or_ge s.pc.toNat s.params.imemWords with hpc | hpc
  · obtain ⟨e, w, he, hw, rfl⟩ := step_error_inside_imem hrun hpc hs h ht
    exact ⟨e, w, raiseError_tookError e w s, fun hge => absurd hpc (Nat.not_lt.2 hge), fun _ => ⟨he, hw⟩,
      step_raiseError hports e w, irq_of_err rfl⟩
  · cases h.symm.trans (step_of_fetch_beyond hrun hpc)
    exact ⟨.fetch, 0, raiseError_tookError _ _ s, fun _ => ⟨rfl, rfl⟩, fun hlt => absurd hlt (Nat.not_lt.2 hpc),
      step_raiseError hports _ _, irq_of_err rfl⟩

end Sys2Proof.Proofs
end

section
/-! Proofs of the statements about reset (70_reset_and_hazards.md): what rst_n at 0 holds, how it is released, and what a soft reset
leaves. -/

namespace Sys2Proof.Proofs

open Sys2Proof Sys2Proof.Machine Sys2Proof.Laws

/-! ## The hardware reset (R199, R200) -/

/-- The step in which rst_n goes to 0, whatever the engine was doing. -/
theorem step_resetAssert {s : State} {rest : List PortEvent} (h : s.ports = .resetAssert :: rest) :
    step s = .next (hardReset { s with ports := rest }) := by
  rw [step, turn, h]
  rfl

theorem hardReset_heldInReset (s : State) : (hardReset s).heldInReset := rfl

section
variable {s : State}

theorem rstN_of_heldInReset (h : s.heldInReset) : s.rstN = false := by rw [h]

/-- The port list and the response are no state that a reset holds. -/
theorem heldInReset_own (h : s.heldInReset) (ports : List PortEvent) (response : Option BusResponse) :
    { s with ports := ports, response := response }.heldInReset :=
  congrArg (fun u : State => { u with ports := ports, response := response }) h

/-- In reset the block takes no access: the bus at most answers for it. -/
theorem hostAccess_heldInReset (h : s.heldInReset) (a : Nat) (k : Offset → State → State) :
    (hostAccess a k s).heldInReset := by
  obtain hk | ⟨-, hk⟩ | ⟨o, -, hr, -⟩ := hostAccess_cases a k s
  · rwa [hk]
  · rw [hk]; exact heldInReset_own h s.ports _
  · exact absurd ((rstN_of_heldInReset h).symm.trans hr) Bool.false_ne_true

/-- Every event but the release leaves the block held. -/
theorem portEvent_heldInReset (h : s.heldInReset) {e : PortEvent} (he : e ≠ .resetRelease) :
    (portEvent e s).heldInReset := by
  cases e with
  | read width a => exact hostAccess_heldInReset h a _
  | write width a data => exact hostAccess_heldInReset h a _
  | resetAssert => exact hardReset_heldInReset s
  | resetRelease => exact absurd rfl he
  | quiet => exact h

/-- The release changes the level of rst_n and nothing else, so the block starts from the reset values. -/
theorem portEvent_resetRelease (h : s.heldInReset) :
    portEvent .resetRelease s =
      { State.reset with params := s.params, ports := s.ports, response := s.response, freeCount := s.freeCount } :=
  congrArg (fun u : State => { u with rstN := true }) h

end

/-- Settles O40. A held engine executes nothing, so a step changes at most the port list, or is an event at the ports. -/
theorem resetHoldsUntilReleased : Obligations.ResetHoldsUntilReleased := by
  refine ⟨fun s rest hp => ⟨_, step_resetAssert hp, hardReset_heldInReset _⟩, fun s t h ht => ?_⟩
  have hrest (rest : List PortEvent) : { s with ports := rest }.heldInReset := heldInReset_own h rest s.response
  obtain ⟨rest, hturn⟩ | ⟨e, rest, hp, rfl⟩ := step_turn_or_event ht
  · cases (engineTurn_idle (.inr (rstN_of_heldInReset (hrest rest)))).symm.trans hturn
    exact .inl (hrest rest)
  · by_cases he : e = .resetRelease
    · subst he
      exact .inr ⟨rest, hp, portEvent_resetRelease (hrest rest)⟩
    · exact .inl (portEvent_heldInReset (hrest rest) he)

/-! ## The soft reset (R202) -/

/-- With rst_n at 1 a soft reset keeps the RAMs, the parameters and the model's own fields, and nothing else. -/
theorem softReset_released {s : State} (hr : s.rstN = true) :
    softReset s = { State.reset with
      params := s.params, imem := s.imem, dmem := s.dmem, ports := s.ports, response := s.response,
      freeCount := s.freeCount } := by
  rw [softReset, hr]
  rfl

/-- Settles O42: with bit 3 set the write of CTRL is the soft reset, its other bits unread. -/
theorem softResetKeepsTheRams : Obligations.SoftResetKeepsTheRams := by
  intro s rest width data hr hw hp h3
  rw [step_writeCtrl hr hw hp, writeCtrl_srst h3, softReset_released (s := { s with ports := rest }) hr]
  rfl

end Sys2Proof.Proofs
end
